-- ==== Sys2Proof/Word.lean ====
section
/-! DEFINITION. The two word types: the byte of `SRC` and `DST` (R30) and the 32-bit word of the CSRs and of a
fingerprint (R11, R32). -/

namespace Sys2Proof

/-- A byte: 8 bits (R30). -/
abbrev Byte := BitVec 8

/-- A CSR's contents, a command code or a fingerprint: 32 bits (R11, R32, R63). -/
abbrev Word := BitVec 32

end Sys2Proof
end

