-- ==== Sys2Proof/Config.lean ====
section
/-! DEFINITION. The constants R5 fixes, the parameter R7 leaves open (`SIZE31`), and the free values: the bytes of
`SRC` and `DST` whose contents the spec leaves unspecified (R20, R13, R157). -/

namespace Sys2Proof.Config

/-- `MAX_BLOCK_SIZE`: the largest chunk handed to the Block Encoder (R5, R6: a constant, no register). -/
def maxBlockSize : Nat := 65536

/-- `MIN_NON_LITERAL_BLOCK`: a shorter chunk is emitted as one literal (R5, R114). -/
def minNonLiteralBlock : Nat := 17

/-- `INPUT_MARGIN`: `sLimit = blk_len - 15` (R5, R95). -/
def inputMargin : Nat := 15

/-- `MIN_TABLE_SIZE` (R5, R91). -/
def minTableSize : Nat := 256

/-- `MAX_TABLE_SIZE`: also the number of entries `HT` has (R5, R14). -/
def maxTableSize : Nat := 16384

/-- `HASH_MUL`, the hash multiplier (R5, R92). -/
def hashMul : Word := 0x1e35a7bd#32

/-- `LEN_MAX`: the largest length a header may carry and the largest worst-case bound (R5, R71, R110). -/
def lenMax : Nat := 0xFFFFFFFF

/-- `LEN_MAX31`: the limit above which a header raises `TooLarge` when `SIZE31` holds (R5, R72). -/
def lenMax31 : Nat := 0x7FFFFFFF

/-- `VARINT_MAX_BYTES`: the longest header the decoder accepts (R7, R71). -/
def varintMaxBytes : Nat := 10

/-- `BOUND(n) = 32 + n + n/6`, floor division (R5, R110). -/
def bound (n : Nat) : Nat := 32 + n + n / 6

/-- The open parameter of R7: it is fixed for the life of a machine. State carries it, because the fixed type of
`step` leaves no other argument (DESIGN CHOICE, safe, log 7). -/
structure Params where
  /-- `SIZE31`: the 32-bit size limit of R72 applies. -/
  size31 : Bool
  deriving DecidableEq, Repr

/-- The spec's default: `SIZE31 = false` (R7, R72). -/
def Params.default : Params := ⟨false⟩

/-- FREE VALUE (DESIGN CHOICE, safe, log 5): the byte of `SRC` at an index the host has not written since reset
(R20 "unspecified (any value)"); arguments: how many resets were applied, the index. -/
opaque unspecifiedSrc : Nat → Nat → Byte

/-- FREE VALUE (DESIGN CHOICE, safe, logs 5 and 6): the byte of `DST` at an index whose contents the spec leaves
unspecified (R20, R13, R157); arguments: how many resets were applied, how many finished commands since left a range
that holds the index unspecified, the index. -/
opaque unspecifiedDst : Nat → Nat → Nat → Byte

end Sys2Proof.Config
end

