-- ==== Sys2Proof/Syntax.lean ====
section
/-! DEFINITION. The instructions: one constructor per row of spec/opcode_table.json. A token's payload is data that
follows it, not part of the instruction (log 14). -/

namespace Sys2Proof

/-- The instructions of DSASnappy CORE: the eight tokens and the header of a compressed stream (R50 to R57) and the
three host commands (R63). -/
inductive Instr where
  /-- `LIT.S`: `m = tag[7:2]`, at most 59 (R53). -/
  | litS (m : BitVec 6)
  /-- `LIT.1`: one length byte (R54). -/
  | lit1 (m : BitVec 8)
  /-- `LIT.2`: two length bytes, little-endian (R54). -/
  | lit2 (m : BitVec 16)
  /-- `LIT.3`: three length bytes (R54). -/
  | lit3 (m : BitVec 24)
  /-- `LIT.4`: four length bytes (R54). -/
  | lit4 (m : BitVec 32)
  /-- `COPY1`: `l = length - 4`, 11-bit offset (R55). -/
  | copy1 (l : BitVec 3) (offset : BitVec 11)
  /-- `COPY2`: `l = length - 1`, 16-bit offset (R56). -/
  | copy2 (l : BitVec 6) (offset : BitVec 16)
  /-- `COPY4`: `l = length - 1`, 32-bit offset (R57). -/
  | copy4 (l : BitVec 6) (offset : BitVec 32)
  /-- `HDR`: the value of a header and the number of bytes it takes, the shortest form or a longer one (R51, R61). -/
  | hdr (value : Nat) (len : Nat)
  /-- `COMPRESS`: `CMD` value 1 (R63). -/
  | compress
  /-- `DECOMPRESS`: `CMD` value 2 (R63). -/
  | decompress
  /-- `MAXLEN`: `CMD` value 3 (R63). -/
  | maxlen
  deriving DecidableEq, Repr

end Sys2Proof
end

