-- ==== Sys2Proof/WellFormed.lean ====
section
/-! DEFINITION. Which instructions have an encoding. -/

namespace Sys2Proof

/-- An instruction's operands fit its encoding: `LIT.S` has `m <= 59` (R53; the four values above are the tags of the
long literals, R59); a header has 1 to 10 bytes (R51) and a value that its 7-bit groups hold. Every other field's
width is its type. -/
def Instr.wellFormed : Instr → Bool
  | .litS m => decide (m.toNat ≤ 59)
  | .hdr value len => decide (1 ≤ len) && decide (len ≤ Config.varintMaxBytes) && decide (value < 128 ^ len)
  | .lit1 _ => true
  | .lit2 _ => true
  | .lit3 _ => true
  | .lit4 _ => true
  | .copy1 _ _ => true
  | .copy2 _ _ => true
  | .copy4 _ _ => true
  | .compress => true
  | .decompress => true
  | .maxlen => true

end Sys2Proof
end

