-- ==== Sys2Proof/Decode.lean ====
section
/-! DEFINITION. Decoding (total, rejecting by name) and encoding, from the tables of R51 to R59 and R63. Where an
instruction's bits come from depends on what runs: a command is the value written to `CMD`, a header is the first bytes
of a compressed stream, a token is read from its body. -/

namespace Sys2Proof

/-- Why bits are no instruction. No tag value is illegal (R59), so a token fails only by being cut short. -/
inductive DecodeError where
  /-- No tag byte is left: the end of the body, no token (R120). -/
  | noTag
  /-- The trailing bytes of a token run past the end of the body: `Corrupt` (R60, R122 to R125, R127 to R129). -/
  | truncatedToken
  /-- The input ends before a header byte with bit 7 clear: `Corrupt` (R71). -/
  | headerEnds
  /-- Ten header bytes with bit 7 set: `Corrupt` (R71). -/
  | headerTooLong
  /-- A `CMD` value other than 1, 2, 3: `BadCommand` (R63). -/
  | badCommand
  deriving DecidableEq, Repr

/-- The bits of one instruction, by where the machine reads them. -/
inductive Code where
  /-- Bytes at the start of a compressed stream. -/
  | header (bytes : List Byte)
  /-- Bytes at the decoder's cursor. -/
  | token (bytes : List Byte)
  /-- The value written to `CMD`. -/
  | command (value : Word)
  deriving DecidableEq, Repr

/-! ## Decoding -/

/-- The token at the front of the bytes; what follows it is ignored. The four exact tags come before the general
literal row (R59); trailing bytes are little-endian (R31). -/
def decodeToken : List Byte → Except DecodeError Instr
  | [] => .error .noTag
  | t :: rest =>
    if t = 0xF0#8 then
      match rest with
      | b1 :: _ => .ok (.lit1 b1)
      | _ => .error .truncatedToken
    else if t = 0xF4#8 then
      match rest with
      | b1 :: b2 :: _ => .ok (.lit2 (b2 ++ b1))
      | _ => .error .truncatedToken
    else if t = 0xF8#8 then
      match rest with
      | b1 :: b2 :: b3 :: _ => .ok (.lit3 (b3 ++ b2 ++ b1))
      | _ => .error .truncatedToken
    else if t = 0xFC#8 then
      match rest with
      | b1 :: b2 :: b3 :: b4 :: _ => .ok (.lit4 (b4 ++ b3 ++ b2 ++ b1))
      | _ => .error .truncatedToken
    else if t.extractLsb' 0 2 = 0#2 then
      .ok (.litS (t.extractLsb' 2 6))
    else if t.extractLsb' 0 2 = 1#2 then
      match rest with
      | b1 :: _ => .ok (.copy1 (t.extractLsb' 2 3) (t.extractLsb' 5 3 ++ b1))
      | _ => .error .truncatedToken
    else if t.extractLsb' 0 2 = 2#2 then
      match rest with
      | b1 :: b2 :: _ => .ok (.copy2 (t.extractLsb' 2 6) (b2 ++ b1))
      | _ => .error .truncatedToken
    else
      match rest with
      | b1 :: b2 :: b3 :: b4 :: _ => .ok (.copy4 (t.extractLsb' 2 6) (b4 ++ b3 ++ b2 ++ b1))
      | _ => .error .truncatedToken

/-- The value and the byte count of a base-128 varint of at most `fuel` bytes: seven value bits a byte, least
significant group first, bit 7 set on every byte but the last (R51, R71). -/
def decodeVarint : (fuel : Nat) → List Byte → Except DecodeError (Nat × Nat)
  | 0, _ => .error .headerTooLong
  | _ + 1, [] => .error .headerEnds
  | fuel + 1, b :: rest =>
    if b.toNat < 0x80 then .ok (b.toNat, 1)
    else
      match decodeVarint fuel rest with
      | .ok (x, n) => .ok (b.toNat % 128 + 128 * x, n + 1)
      | .error e => .error e

/-- The header at the front of the bytes (R71); the bytes after it are not examined. -/
def decodeHeader (bytes : List Byte) : Except DecodeError Instr :=
  match decodeVarint Config.varintMaxBytes bytes with
  | .ok (x, n) => .ok (.hdr x n)
  | .error e => .error e

/-- The command a `CMD` value starts (R63); all 32 bits count (R11, U12). -/
def decodeCommand (v : Word) : Except DecodeError Instr :=
  if v = 1#32 then .ok .compress
  else if v = 2#32 then .ok .decompress
  else if v = 3#32 then .ok .maxlen
  else .error .badCommand

/-- Decoding by where the bits come from. -/
def decode : Code → Except DecodeError Instr
  | .header bytes => decodeHeader bytes
  | .token bytes => decodeToken bytes
  | .command v => decodeCommand v

/-! ## Encoding -/

/-- A varint of exactly `len` bytes, zero groups at the end where the value needs fewer (R51, R61). -/
def encodeVarint : (len : Nat) → (value : Nat) → List Byte
  | 0, _ => []
  | 1, v => [BitVec.ofNat 8 (v % 128)]
  | n + 2, v => BitVec.ofNat 8 (v % 128 + 128) :: encodeVarint (n + 1) (v / 128)

/-- Byte `k` of a word, byte 0 the least significant (R31). -/
def byteOf {w : Nat} (v : BitVec w) (k : Nat) : Byte := v.extractLsb' (8 * k) 8

/-- The bits of an instruction: tag byte and trailing bytes of a token (R53 to R57), bytes of a header (R51), value of
a command (R63). -/
def encode : Instr → Code
  | .litS m => .token [m ++ 0#2]
  | .lit1 m => .token [0xF0#8, byteOf m 0]
  | .lit2 m => .token [0xF4#8, byteOf m 0, byteOf m 1]
  | .lit3 m => .token [0xF8#8, byteOf m 0, byteOf m 1, byteOf m 2]
  | .lit4 m => .token [0xFC#8, byteOf m 0, byteOf m 1, byteOf m 2, byteOf m 3]
  | .copy1 l offset => .token [offset.extractLsb' 8 3 ++ l ++ 1#2, byteOf offset 0]
  | .copy2 l offset => .token [l ++ 2#2, byteOf offset 0, byteOf offset 1]
  | .copy4 l offset =>
    .token [l ++ 3#2, byteOf offset 0, byteOf offset 1, byteOf offset 2, byteOf offset 3]
  | .hdr value len => .header (encodeVarint len value)
  | .compress => .command 1#32
  | .decompress => .command 2#32
  | .maxlen => .command 3#32

/-- An instruction's bits with the bytes that follow it in the stream; nothing follows a command. -/
def Code.followedBy : Code → List Byte → Code
  | .header bytes, rest => .header (bytes ++ rest)
  | .token bytes, rest => .token (bytes ++ rest)
  | .command v, _ => .command v

/-- The stream bytes of a code; a command has none. -/
def Code.bytes : Code → List Byte
  | .header bytes => bytes
  | .token bytes => bytes
  | .command _ => []

/-- How many stream bytes an instruction takes before any payload (R53 to R58; a command takes none). -/
def Instr.headBytes : Instr → Nat
  | .litS _ => 1
  | .lit1 _ => 2
  | .lit2 _ => 3
  | .lit3 _ => 4
  | .lit4 _ => 5
  | .copy1 _ _ => 2
  | .copy2 _ _ => 3
  | .copy4 _ _ => 5
  | .hdr _ len => len
  | .compress => 0
  | .decompress => 0
  | .maxlen => 0

/-! ## The opcode table's numbering of bits -/

/-- The first `n` bytes of a number, least significant first (R31). -/
def leBytes : (n : Nat) → (w : Nat) → List Byte
  | 0, _ => []
  | n + 1, w => BitVec.ofNat 8 w :: leBytes n (w / 256)

/-- Which fetch reads an instruction of the opcode table (log 11): the command rows are 32 bits wide, the token rows
give the bits of the tag byte, and 80 bits (ten bytes) stand for the header row, which the table gives no width. The
longest token has five bytes before its payload, the longest header ten. -/
def tableCode (nbits w : Nat) : Code :=
  if nbits = 32 then .command (BitVec.ofNat 32 w)
  else if nbits = 80 then .header (leBytes Config.varintMaxBytes (w % 2 ^ 80))
  else .token (leBytes 5 (w % 2 ^ nbits))

/-- The instruction the decoder reads from an opcode-table word of `nbits` bits, the bits above them 0. -/
def decodeTableWord (nbits w : Nat) : Option Instr :=
  match decode (tableCode nbits w) with
  | .ok i => some i
  | .error _ => none

end Sys2Proof
end

