-- ==== Sys2Proof/Machine/State.lean ====
section
/-! DEFINITION. The state of one DSASnappy CORE (R10): six CSRs, the memories `SRC`, `DST` and `HT`, the working
registers of the encoder and the decoder, the phase register; the reasons a step can stop; the state after reset. -/

namespace Sys2Proof.Machine

/-- `STATUS.state` (R11, R15). -/
inductive StatusState where
  | idle
  | busy
  | done
  | error
  deriving DecidableEq, Repr

/-- The error kinds `ERR` can hold (R150). -/
inductive ErrKind where
  | noError
  | corrupt
  | tooLarge
  | unsupportedLiteralLength
  | inputTooLarge
  | dstTooSmall
  | badCommand
  deriving DecidableEq, Repr

/-- The phase register: which rule executes next while BUSY (R18). The nine values of R106 and R120, and four the
model adds for the sequencing the spec leaves unnamed (DESIGN CHOICE, safe, log 1): `cStart`, `hDec`, `dInit`,
`eChunk`. -/
inductive Phase where
  /-- A command was accepted and not begun (R15). -/
  | cStart
  /-- DECOMPRESS: the header comes next (R140, R71). -/
  | hDec
  /-- DECOMPRESS: the header was read, the rest of R140 and R141 come next. -/
  | dInit
  /-- `D_FETCH` (R120). -/
  | dFetch
  /-- `D_LIT` (R126). A token runs in one step, so no step that stays BUSY leaves this phase behind (log 1). -/
  | dLit
  /-- `D_COPY` (R130 to R132). A token runs in one step, so no step that stays BUSY leaves this phase behind (log 1). -/
  | dCopy
  /-- `D_END` (R134). -/
  | dEnd
  /-- COMPRESS: the test of the chunk loop comes next (R113). -/
  | eChunk
  /-- `B_INIT` (R91, R94, R95). -/
  | bInit
  /-- `B_SEARCH`: one probe (R96). -/
  | bSearch
  /-- `B_MATCH` (R98). -/
  | bMatch
  /-- `B_COPY` (R99 to R102). -/
  | bCopy
  /-- `B_REMAINDER` (R103). -/
  | bRemainder
  deriving DecidableEq, Repr

/-- The encoder's working registers (R16), as naturals (R16 allows it; log 12). Positions are chunk-relative. -/
structure EncRegs where
  inPos : Nat
  d : Nat
  blkLen : Nat
  tableSize : Nat
  shift : Nat
  sLimit : Nat
  s : Nat
  nextS : Nat
  nextEmit : Nat
  candidate : Nat
  base : Nat
  skip : Nat
  nextHash : Nat
  deriving DecidableEq, Repr

/-- The decoder's working registers (R17), as naturals (log 12). `s` is the decoder's program counter. -/
structure DecRegs where
  hdrLen : Nat
  destLen : Nat
  bodyLen : Nat
  s : Nat
  d : Nat
  length : Nat
  offset : Nat
  deriving DecidableEq, Repr

/-- A byte memory: its written bytes, addresses strictly rising. An address not listed holds no value of its own: it
reads as a free value (R20, log 5). -/
abbrev Memory := List Host.Cell

/-- The hash table: its entries that are not 0, indices strictly rising. An index not listed reads 0, the empty value
(R14, R94). -/
abbrev Table := List (Nat × BitVec 16)

/-- All state of one CORE (R10), the parameter of R7 and the model's own bookkeeping of unspecified bytes. -/
structure State where
  /-- `SIZE31` (R7, R72); nothing writes it (log 7). -/
  params : Config.Params
  /-- The value last written to `CMD` (R11); the host reads `CMD` as 0. -/
  cmd : Word
  /-- `STATUS.state` (R11, R15). -/
  status : StatusState
  /-- `ERR` (R11, R150). -/
  err : ErrKind
  /-- `SRC_LEN` (R11). -/
  srcLen : Word
  /-- `DST_CAP` (R11). -/
  dstCap : Word
  /-- `OUT_LEN` (R11, R15). -/
  outLen : Word
  /-- `SRC` (R12). -/
  src : Memory
  /-- `DST` (R13). -/
  dst : Memory
  /-- `HT` (R14). -/
  ht : Table
  /-- R16. -/
  enc : EncRegs
  /-- R17. -/
  dec : DecRegs
  /-- R18. -/
  phase : Phase
  /-- The model's own: how often reset was applied (log 5). -/
  resets : Nat
  /-- The model's own: the ranges of `DST`, first index and first index past them, that finished commands left
  unspecified since reset, newest first (R13, R157; log 6). -/
  dstUnspec : List (Nat × Nat)
  deriving DecidableEq, Repr

/-- Why the machine stops with a fault: an access the bounds discipline forbids. R34: "An access that would break
(a), (b) or (c) is never performed". No state that meets the invariant of Safety.lean raises one (log 8). -/
inductive Fault where
  /-- The CORE would read `SRC` at or beyond `SRC_LEN`, or a chunk's byte beyond the chunk (R34 (a), R105 (e), R176).
  Raised by the reads of Machine/Ops.lean; safe. -/
  | srcOutOfBounds
  /-- The CORE would write `DST` at or beyond `DST_CAP` (R34 (b)). Raised by the writes of Machine/Ops.lean; safe. -/
  | dstOutOfBounds
  /-- The encoder would access `HT` at an index it does not have, 16384 or above (R14). Raised by the table accesses of
  Machine/Ops.lean; safe. -/
  | htOutOfRange
  deriving DecidableEq, Repr

/-- Why a step or a host move is given no meaning. -/
inductive Refusal where
  /-- The instruction has no meaning yet. Raised by `exec` only; no arm does. Safe. -/
  | notModelled (mnemonic : String)
  /-- EMIT.LIT with `n = 0` or `n > 65536` (U7 "refuse"). Raised by `emitLit`; safe, unreachable (log 9). -/
  | emitLitDomain
  /-- EMIT.COPY with `length < 4`, `offset = 0` or `offset > 65535` (U7 "refuse"). Raised by `emitCopy`; safe,
  unreachable (log 9). -/
  | emitCopyDomain
  /-- ENC.BLOCK on a chunk shorter than 17 or longer than 65536 bytes (U8 "refuse"). Raised by `blockInit`; safe,
  unreachable (log 9). -/
  | encBlockDomain
  /-- A host access to `SRC` or `DST` while BUSY (U4 "refuse"). Raised by the host moves of Machine/HostPort.lean, by no
  step of the CORE; safe (log 10). -/
  | hostAccessWhileBusy
  deriving DecidableEq, Repr

/-- A stop, of either kind: what a meaning's parts answer in place of a state. -/
inductive Stop where
  | fault (f : Fault)
  | refused (r : Refusal)
  deriving DecidableEq, Repr

/-- What a part of a meaning answers: a state or a stop. -/
abbrev Run := Except Stop State

/-- R20 leaves the encoder's registers unspecified: DESIGN CHOICE 0 (unsafe, log 3). -/
def EncRegs.zero : EncRegs := ⟨0, 0, 0, 0, 0, 0, 0, 0, 0, 0, 0, 0, 0⟩

/-- R20 leaves the decoder's registers unspecified: DESIGN CHOICE 0 (unsafe, log 3). -/
def DecRegs.zero : DecRegs := ⟨0, 0, 0, 0, 0, 0, 0⟩

/-- The machine right after reset (R20, R170). The working registers, the phase and `HT` are unspecified there and
hold the values logs 3 and 4 name. -/
def State.reset : State where
  params := Config.Params.default
  cmd := 0
  status := .idle
  err := .noError
  srcLen := 0
  dstCap := 0
  outLen := 0
  src := []
  dst := []
  ht := []
  enc := .zero
  dec := .zero
  phase := .cStart
  resets := 0
  dstUnspec := []

end Sys2Proof.Machine
end

