-- ==== Sys2Proof/Machine/Memory.lean ====
section
/-! DEFINITION. The sparse memories: reading and writing one cell, forgetting a range, and their canonical form. -/

namespace Sys2Proof.Machine

/-- The value listed at a key, if any. -/
def Cells.find {β : Type} : List (Nat × β) → Nat → Option β
  | [], _ => none
  | (k, v) :: m, a => if a = k then some v else Cells.find m a

/-- List a value at a key, in place, keeping the keys rising. -/
def Cells.put {β : Type} : List (Nat × β) → Nat → β → List (Nat × β)
  | [], a, b => [(a, b)]
  | (k, v) :: m, a, b =>
    if a < k then (a, b) :: (k, v) :: m
    else if a = k then (a, b) :: m
    else (k, v) :: Cells.put m a b

/-- Unlist every key from `lo` up to and without `hi`. -/
def Cells.drop {β : Type} (m : List (Nat × β)) (lo hi : Nat) : List (Nat × β) :=
  m.filter fun c => !(decide (lo ≤ c.1) && decide (c.1 < hi))

/-- Keys strictly rising. -/
abbrev Cells.rising {β : Type} (m : List (Nat × β)) : Prop :=
  m.Pairwise fun x y => x.1 < y.1

/-- The canonical form of `SRC` and `DST`: addresses strictly rising, all of them 32-bit indices (R12, R13). An address
not listed holds no value, so every listed byte differs from it. -/
abbrev Memory.wf (m : Memory) : Prop :=
  Cells.rising m ∧ ∀ c ∈ m, c.1 < 2 ^ 32

/-- The canonical form of `HT`: indices strictly rising and below 16384 (R14), no entry listed that is 0. -/
abbrev Table.wf (t : Table) : Prop :=
  Cells.rising t ∧ ∀ c ∈ t, c.1 < Config.maxTableSize ∧ c.2 ≠ 0

/-- Write consecutive bytes, lowest address first (R35). -/
def Memory.putBytes : Memory → Nat → List Byte → Memory
  | m, _, [] => m
  | m, a, b :: bs => Memory.putBytes (Cells.put m a b) (a + 1) bs

/-- The entry of `HT` at an index (R14): 0, the empty value, where none is listed. -/
def Table.entry (t : Table) (h : Nat) : BitVec 16 :=
  (Cells.find t h).getD 0

/-- Write one entry of `HT`; writing 0 unlists it. -/
def Table.put (t : Table) (h : Nat) (v : BitVec 16) : Table :=
  if v = 0 then Cells.drop t h (h + 1) else Cells.put t h v

/-- `for i in 0 .. size-1: HT[i] <- 0` (R94). -/
def Table.clear (t : Table) (size : Nat) : Table :=
  Cells.drop t 0 size

/-- The number `sum over k of bytes[k] << (8*k)` (R31, `MemRead` of R8). -/
def leNat : List Byte → Nat
  | [] => 0
  | b :: bs => b.toNat + 256 * leNat bs

end Sys2Proof.Machine
end

