-- ==== Sys2Proof/Machine/Operands.lean ====
section
/-! DEFINITION. Operand assembly: the lengths and offsets the token rules compute from an instruction's fields, and the
hash of a fingerprint. Everything is unsigned and exact but the hash product. -/

namespace Sys2Proof.Machine

/-- A literal's length: `m + 1`, without wrap-around (R53, R54; LIT.4 reaches 2^32, R125). -/
def literalLength {w : Nat} (m : BitVec w) : Nat := m.toNat + 1

/-- `COPY1`'s length: `4 + l`, 4 to 11 (R55). -/
def copy1Length (l : BitVec 3) : Nat := 4 + l.toNat

/-- `COPY2`'s and `COPY4`'s length: `1 + l`, 1 to 64 (R56, R57). -/
def copyLength (l : BitVec 6) : Nat := 1 + l.toNat

/-- A copy's offset, unsigned (R55 to R57). -/
def copyOffset {w : Nat} (offset : BitVec w) : Nat := offset.toNat

/-- `hash(u) = ((u * 0x1e35a7bd) mod 2^32) >> shift`, logical (R92). -/
def hash (shift : Nat) (u : Word) : Nat := ((u * Config.hashMul) >>> shift).toNat

/-- `maxEncodedLength(n)`; none stands for "too large" (R110). -/
def maxEncodedLength (n : Nat) : Option Nat :=
  if n > Config.lenMax then none
  else if Config.bound n > Config.lenMax then none
  else some (Config.bound n)

end Sys2Proof.Machine
end

