-- ==== Sys2Proof/Machine/Ops.lean ====
section
/-! DEFINITION. The named operations every meaning is built from: register updates, the guarded accesses to `SRC`,
`DST` and `HT`, raising an error, starting and ending a command, fetching the bytes of a header or a token. -/

namespace Sys2Proof.Machine

/-! ## Register updates -/

def State.setPhase (s : State) (p : Phase) : State := { s with phase := p }

def State.setEnc (s : State) (e : EncRegs) : State := { s with enc := e }

def State.setDec (s : State) (r : DecRegs) : State := { s with dec := r }

def State.setDst (s : State) (m : Memory) : State := { s with dst := m }

def State.setHt (s : State) (t : Table) : State := { s with ht := t }

/-! ## Stops -/

/-- The outcome of a meaning's parts. -/
def Run.outcome : Run → Host.Outcome State Fault Refusal
  | .ok s => .next s
  | .error (.fault f) => .fault f
  | .error (.refused r) => .refused r

/-! ## `SRC` (R12, R34 (a)) -/

/-- The byte of `SRC` at an index: what the host wrote last, a free value where it wrote nothing (log 5). -/
def State.srcByte (s : State) (a : Nat) : Byte :=
  (Cells.find s.src a).getD (Config.unspecifiedSrc s.resets a)

/-- `n` bytes of `SRC` from an index on. -/
def State.srcBytes (s : State) : (a n : Nat) → List Byte
  | _, 0 => []
  | a, n + 1 => s.srcByte a :: s.srcBytes (a + 1) n

/-- A read of `SRC` by the CORE: never at or beyond `SRC_LEN` (R34 (a)). -/
def State.readSrc (s : State) (a n : Nat) : Except Stop (List Byte) :=
  if a + n ≤ s.srcLen.toNat then .ok (s.srcBytes a n) else .error (.fault .srcOutOfBounds)

/-! ## `DST` (R13, R34 (b)) -/

/-- How many finished commands left the index unspecified since reset (log 6). -/
def State.dstEpoch (s : State) (a : Nat) : Nat :=
  (s.dstUnspec.filter fun r => decide (r.1 ≤ a) && decide (a < r.2)).length

/-- The byte of `DST` at an index: the one written last, a free value where the spec leaves it unspecified (R20, R13,
R157; logs 5 and 6). -/
def State.dstByte (s : State) (a : Nat) : Byte :=
  (Cells.find s.dst a).getD (Config.unspecifiedDst s.resets (s.dstEpoch a) a)

/-- A write of `DST` by the CORE, byte by byte upward (R35): never at or beyond `DST_CAP` (R34 (b)). -/
def State.writeDst (s : State) (a : Nat) (bytes : List Byte) : Run :=
  if a + bytes.length ≤ s.dstCap.toNat then .ok (s.setDst (Memory.putBytes s.dst a bytes))
  else .error (.fault .dstOutOfBounds)

/-- `for i in 0 .. n-1: DST[d+i] <- DST[d-offset+i]`, one byte at a time, each read seeing every earlier write (R40,
R132, R133). -/
def State.copyLoop (s : State) (offset : Nat) : (d n : Nat) → State
  | _, 0 => s
  | d, n + 1 => (s.setDst (Cells.put s.dst d (s.dstByte (d - offset)))).copyLoop offset (d + 1) n

/-- The copy expander, guarded as every write of `DST` (R34 (b)). -/
def State.expandCopy (s : State) (offset d n : Nat) : Run :=
  if d + n ≤ s.dstCap.toNat then .ok (s.copyLoop offset d n) else .error (.fault .dstOutOfBounds)

/-- `DST[lo : hi]` is unspecified from here on (R13, R157, U3, U5; log 6). -/
def State.unspecify (s : State) (lo hi : Nat) : State :=
  { s with dst := Cells.drop s.dst lo hi, dstUnspec := (lo, hi) :: s.dstUnspec }

/-! ## `HT` (R14) -/

/-- A read of one entry. -/
def State.readHt (s : State) (h : Nat) : Except Stop Nat :=
  if h < Config.maxTableSize then .ok (Table.entry s.ht h).toNat else .error (.fault .htOutOfRange)

/-- A write of one entry, 16 bits. -/
def State.writeHt (s : State) (h p : Nat) : Run :=
  if h < Config.maxTableSize then .ok (s.setHt (Table.put s.ht h (BitVec.ofNat 16 p)))
  else .error (.fault .htOutOfRange)

/-! ## The chunk being encoded -/

/-- The chunk byte `P[p] = SRC[in_pos + p]`. -/
def State.chunkByte (s : State) (p : Nat) : Byte := s.srcByte (s.enc.inPos + p)

/-- A read of `P[p]`: inside the chunk and inside the input (R34 (a), R105 (e), R176). -/
def State.readChunk (s : State) (p : Nat) : Except Stop Byte :=
  if p < s.enc.blkLen ∧ s.enc.inPos + p < s.srcLen.toNat then .ok (s.chunkByte p)
  else .error (.fault .srcOutOfBounds)

/-- The fingerprint `F(p)`: four bytes, little-endian (R32). -/
def State.fp (s : State) (p : Nat) : Word :=
  BitVec.ofNat 32 (leNat (s.srcBytes (s.enc.inPos + p) 4))

/-- A read of `F(p)`: `p + 4 <= blk_len` (R105 (e), R176) and inside the input (R34 (a)). -/
def State.fingerprint (s : State) (p : Nat) : Except Stop Word :=
  if p + 4 ≤ s.enc.blkLen ∧ s.enc.inPos + p + 4 ≤ s.srcLen.toNat then .ok (s.fp p)
  else .error (.fault .srcOutOfBounds)

/-- A read of `H(p) = hash(F(p))` (R92). -/
def State.hashAt (s : State) (p : Nat) : Except Stop Nat := do
  let u ← s.fingerprint p
  .ok (hash s.enc.shift u)

/-! ## Raising an error, and the command that clears it -/

/-- `raise K`, its registers: `ERR <- code(K)`, `OUT_LEN <- 0`, `STATUS.state <- ERROR`; nothing else is saved and
control goes nowhere (R151). MAXLEN and a bad command touch no memory (R111, R63), so this is all they do. -/
def State.raiseQuiet (s : State) (k : ErrKind) : State :=
  { s with err := k, outLen := 0, status := .error }

/-- `raise K` in COMPRESS or DECOMPRESS: R151, and every byte of `DST[0 : DST_CAP]` is unspecified afterwards (R157,
U3; log 6). -/
def State.raise (s : State) (k : ErrKind) : State :=
  (s.raiseQuiet k).unspecify 0 s.dstCap.toNat

/-- There is no return from an error: the next `CMD` write clears it (R155). A write of `v` while not BUSY:
`state <- BUSY`, `ERR <- 0`, `OUT_LEN <- 0`, and the command starts (R15). -/
def State.startCommand (s : State) (v : Word) : State :=
  { s with cmd := v, status := .busy, err := .noError, outLen := 0, phase := .cStart }

/-- The end of a command that touched no memory: `OUT_LEN` its result, `state <- DONE` (R15, R111). -/
def State.finishQuiet (s : State) (n : Nat) : State :=
  { s with outLen := BitVec.ofNat 32 n, status := .done }

/-- The end of COMPRESS or DECOMPRESS without error (R15, R115, R142): the result is `DST[0 : OUT_LEN]`, and
`DST[OUT_LEN : DST_CAP]` is unspecified (R13, U5; log 6). -/
def State.finish (s : State) (n : Nat) : State :=
  (s.finishQuiet n).unspecify n s.dstCap.toNat

/-! ## Fetch -/

/-- The bytes HDR.DEC may look at: `SRC[0 : min(SRC_LEN, 10)]` (R71). -/
def State.fetchHeader (s : State) : List Byte :=
  s.srcBytes 0 (min s.srcLen.toNat Config.varintMaxBytes)

/-- The bytes of the next token, `B[s]` and up to four after it, none at or beyond `bodyLen` (R120; log 15). -/
def State.fetchToken (s : State) : Except Stop (List Byte) :=
  s.readSrc (s.dec.hdrLen + s.dec.s) (min 5 (s.dec.bodyLen - s.dec.s))

end Sys2Proof.Machine
end

