-- ==== Sys2Proof/Machine/Emit.lean ====
section
/-! DEFINITION. The Tag Emitters: `EMIT.LIT` and `EMIT.COPY` (R80 to R83). -/

namespace Sys2Proof.Machine

/-- Write bytes at the encoder's cursor and advance it. -/
def State.emit (s : State) (bytes : List Byte) : Run := do
  let t ← s.writeDst s.enc.d bytes
  .ok (t.setEnc { s.enc with d := s.enc.d + bytes.length })

/-- The tag and length bytes of a literal of `n` bytes: the shortest form that holds `n - 1` (R80). -/
def literalTag (n : Nat) : List Byte :=
  let m := n - 1
  if m < 60 then [BitVec.ofNat 8 (m <<< 2)]
  else if m < 256 then [0xF0#8, BitVec.ofNat 8 m]
  else [0xF4#8, BitVec.ofNat 8 (m &&& 0xFF), BitVec.ofNat 8 (m >>> 8)]

/-- `EMIT.LIT(a, n)`: one literal token whose payload is `SRC[a : a+n]` (R80); its domain is `1 <= n <= 65536` (U7). -/
def emitLit (a n : Nat) (s : State) : Run :=
  if n = 0 ∨ n > 65536 then .error (.refused .emitLitDomain)
  else do
    let payload ← s.readSrc a n
    s.emit (literalTag n ++ payload)

/-- A three-byte copy token with the given tag (R56, R81). -/
def wideCopy (tag offset : Nat) : List Byte :=
  [BitVec.ofNat 8 tag, BitVec.ofNat 8 (offset &&& 0xFF), BitVec.ofNat 8 (offset >>> 8)]

/-- `while length >= 68`: `COPY2 offset, 64` (R81); the bytes written and the length left. -/
def wideCopies (offset : Nat) : (fuel length : Nat) → List Byte × Nat
  | 0, length => ([], length)
  | fuel + 1, length =>
    if length ≥ 68 then
      let rest := wideCopies offset fuel (length - 64)
      (wideCopy 0xFE offset ++ rest.1, rest.2)
    else ([], length)

/-- `if length > 64`: `COPY2 offset, 60` (R81); the bytes written and the length left. -/
def splitCopy (offset length : Nat) : List Byte × Nat :=
  if length > 64 then (wideCopy 0xEE offset, length - 60) else ([], length)

/-- The last token: `COPY2` when `length >= 12` or `offset >= 2048`, else `COPY1` (R81). -/
def lastCopy (offset length : Nat) : List Byte :=
  if length ≥ 12 ∨ offset ≥ 2048 then wideCopy (((length - 1) <<< 2) ||| 2) offset
  else [BitVec.ofNat 8 (((offset >>> 8) <<< 5) ||| ((length - 4) <<< 2) ||| 1), BitVec.ofNat 8 (offset &&& 0xFF)]

/-- The bytes `EMIT.COPY(offset, length)` writes (R81). -/
def copyBytes (offset length : Nat) : List Byte :=
  let w := wideCopies offset (length / 64) length
  let c := splitCopy offset w.2
  w.1 ++ c.1 ++ lastCopy offset c.2

/-- `EMIT.COPY(offset, length)` (R81); its domain is `1 <= offset <= 65535`, `length >= 4` (U7). -/
def emitCopy (offset length : Nat) (s : State) : Run :=
  if length < 4 ∨ offset = 0 ∨ offset > 65535 then .error (.refused .emitCopyDomain)
  else s.emit (copyBytes offset length)

end Sys2Proof.Machine
end

