-- ==== Sys2Proof/Machine/Block.lean ====
section
/-! DEFINITION. The Block Encoder `ENC.BLOCK`, one definition per phase (R90 to R106). -/

namespace Sys2Proof.Machine

/-- R91's loop: double the size and lower the shift until the table is 16384 entries or no smaller than the chunk. -/
def growTable : (fuel blkLen : Nat) → Nat × Nat → Nat × Nat
  | 0, _, g => g
  | fuel + 1, blkLen, (size, shift) =>
    if size < Config.maxTableSize ∧ size < blkLen then growTable fuel blkLen (size * 2, shift - 1)
    else (size, shift)

/-- `tableSize` and `shift` for a chunk length (R91); six doublings lead from 256 to 16384. -/
def tableGeometry (blkLen : Nat) : Nat × Nat := growTable 6 blkLen (Config.minTableSize, 24)

/-- The entry of the search: `skip <- 32`, `nextS <- s` (R96). -/
def State.enterSearch (s : State) : State :=
  (s.setEnc { s.enc with skip := 32, nextS := s.enc.s }).setPhase .bSearch

/-- `B_INIT`: table size and shift (R91), the table cleared (R94), the initial registers (R95), then the search. Its
domain is a chunk of 17 to 65536 bytes (R90, U8). -/
def blockInit (s : State) : Run :=
  if s.enc.blkLen < Config.minNonLiteralBlock ∨ s.enc.blkLen > Config.maxBlockSize then
    .error (.refused .encBlockDomain)
  else do
    let g := tableGeometry s.enc.blkLen
    let t := (s.setHt (Table.clear s.ht g.1)).setEnc
      { s.enc with
        tableSize := g.1, shift := g.2, sLimit := s.enc.blkLen - Config.inputMargin, nextEmit := 0, s := 1 }
    let h ← t.hashAt 1
    .ok (t.setEnc { t.enc with nextHash := h }).enterSearch

/-- `B_SEARCH`: one probe (R96, R97, R41). The end test comes before the table is touched; the entry is read before it
is overwritten; a candidate counts only if the fingerprints are equal. -/
def blockSearch (s : State) : Run :=
  let e := s.enc
  let pos := e.nextS
  let stride := e.skip >>> 5
  let nextS := pos + stride
  let e1 := { e with s := pos, nextS := nextS, skip := e.skip + stride }
  if nextS > e.sLimit then .ok ((s.setEnc e1).setPhase .bRemainder)
  else do
    let cand ← s.readHt e.nextHash
    let t ← s.writeHt e.nextHash pos
    let h ← t.hashAt nextS
    let fs ← t.fingerprint pos
    let fc ← t.fingerprint cand
    .ok ((t.setEnc { e1 with candidate := cand, nextHash := h }).setPhase (if fs = fc then .bMatch else .bSearch))

/-- `B_MATCH`: the pending literal `[nextEmit, s)` (R98). -/
def blockMatch (s : State) : Run := do
  let t ← emitLit (s.enc.inPos + s.enc.nextEmit) (s.enc.s - s.enc.nextEmit) s
  .ok (t.setPhase .bCopy)

/-- R99's loop: where the match that reached positions `i` and `p` ends. -/
def State.extendMatch (s : State) : (fuel i p : Nat) → Except Stop Nat
  | 0, _, p => .ok p
  | fuel + 1, i, p =>
    if p < s.enc.blkLen then do
      let x ← s.readChunk i
      let y ← s.readChunk p
      if x = y then s.extendMatch fuel (i + 1) (p + 1) else .ok p
    else .ok p

/-- Re-insertion and immediate re-match after a copy (R102, R41): `s - 1` and `s` are inserted, the old entry at `s`
is verified, a hit starts the next copy with no literal between. -/
def blockReinsert (s : State) : Run := do
  let p := s.enc.s
  let prev ← s.hashAt (p - 1)
  let t ← s.writeHt prev (p - 1)
  let curr ← t.hashAt p
  let cand ← t.readHt curr
  let u ← t.writeHt curr p
  let fs ← u.fingerprint p
  let fc ← u.fingerprint cand
  if fs = fc then .ok ((u.setEnc { u.enc with candidate := cand }).setPhase .bCopy)
  else do
    let h ← u.hashAt (p + 1)
    .ok (u.setEnc { u.enc with candidate := cand, nextHash := h, s := p + 1 }).enterSearch

/-- `B_COPY`: extend the match (R99), emit the copy (R100), test the limit (R101), re-insert (R102). -/
def blockCopy (s : State) : Run := do
  let e := s.enc
  let p ← s.extendMatch (e.blkLen - (e.s + 4)) (e.candidate + 4) (e.s + 4)
  let t ← emitCopy (e.s - e.candidate) (p - e.s) (s.setEnc { e with base := e.s, s := p })
  let u := t.setEnc { t.enc with nextEmit := p }
  if p ≥ e.sLimit then .ok (u.setPhase .bRemainder) else blockReinsert u

/-- Advance to the next chunk (R113). -/
def State.nextChunk (s : State) : State :=
  (s.setEnc { s.enc with inPos := s.enc.inPos + s.enc.blkLen }).setPhase .eChunk

/-- `B_REMAINDER`: the last literal, if any byte is pending (R103), then back to the chunk loop (R113). -/
def blockRemainder (s : State) : Run :=
  if s.enc.nextEmit < s.enc.blkLen then do
    let t ← emitLit (s.enc.inPos + s.enc.nextEmit) (s.enc.blkLen - s.enc.nextEmit) s
    .ok t.nextChunk
  else .ok s.nextChunk

end Sys2Proof.Machine
end

