-- ==== Sys2Proof/Machine/Header.lean ====
section
/-! DEFINITION. The Header Codec (R70 to R73). -/

namespace Sys2Proof.Machine

/-- The bytes `HDR.ENC` writes for a length: the shortest form (R70). `fuel` bounds the bytes after the first; four
serve every 32-bit length. -/
def headerBytes : (fuel v : Nat) → List Byte
  | 0, v => [BitVec.ofNat 8 v]
  | fuel + 1, v =>
    if v ≥ 0x80 then BitVec.ofNat 8 ((v &&& 0x7F) ||| 0x80) :: headerBytes fuel (v >>> 7)
    else [BitVec.ofNat 8 v]

/-- `HDR.ENC(len)` for the lengths this hardware has, `len <= 0xFFFFFFFF` (R70). -/
def hdrEnc (len : Nat) : List Byte := headerBytes 4 len

/-- `HDR`, the meaning of a header of `len` bytes with the given value (R71): the input must hold its bytes and ten is
the most there may be; then the value tests, `Corrupt` before `TooLarge` (R72, R153); then `destLen` and `hdrLen`. The
rest of R140 comes next. -/
def execHdr (value len : Nat) (s : State) : Host.Outcome State Fault Refusal :=
  Run.outcome <|
    if len > s.srcLen.toNat then .ok (s.raise .corrupt)
    else if len > Config.varintMaxBytes then .ok (s.raise .corrupt)
    else if value > Config.lenMax then .ok (s.raise .corrupt)
    else if decide (value > Config.lenMax31) && s.params.size31 then .ok (s.raise .tooLarge)
    else .ok ((s.setDec { s.dec with destLen := value, hdrLen := len }).setPhase .dInit)

end Sys2Proof.Machine
end

