-- ==== Sys2Proof/Machine/Commands.lean ====
section
/-! DEFINITION. The commands MAXLEN, COMPRESS and DECOMPRESS (R110 to R116, R140 to R143), the chunk loop and the end of
the token program (R134). -/

namespace Sys2Proof.Machine

/-- `MAXLEN` (R111): touches no memory and no working register. -/
def execMaxlen (s : State) : Host.Outcome State Fault Refusal :=
  match maxEncodedLength s.srcLen.toNat with
  | none => .next (s.raiseQuiet .inputTooLarge)
  | some r => .next (s.finishQuiet r)

/-- `COMPRESS`, the start of the command (R112): both tests before any write, then the header; the chunk loop of R113
comes next (log 1). -/
def execCompress (s : State) : Host.Outcome State Fault Refusal :=
  match maxEncodedLength s.srcLen.toNat with
  | none => .next (s.raise .inputTooLarge)
  | some r =>
    if s.dstCap.toNat < r then .next (s.raise .dstTooSmall)
    else
      Run.outcome do
        let t ← (s.setEnc { s.enc with d := 0 }).emit (hdrEnc s.srcLen.toNat)
        .ok ((t.setEnc { t.enc with inPos := 0 }).setPhase .eChunk)

/-- `DECOMPRESS`, the start of the command (R140): its first act is HDR.DEC, which the next step runs as the
instruction `HDR` that the stream's first bytes decode to (log 1). -/
def execDecompress (s : State) : Host.Outcome State Fault Refusal :=
  .next (s.setPhase .hDec)

/-- The rest of R140 once the header was read: the capacity test (R141), then `bodyLen`, `s`, `d`; the Block Decoder
comes next. -/
def decodeInit (s : State) : Run :=
  if s.dec.destLen > s.dstCap.toNat then .ok (s.raise .dstTooSmall)
  else
    .ok ((s.setDec { s.dec with bodyLen := s.srcLen.toNat - s.dec.hdrLen, s := 0, d := 0 }).setPhase .dFetch)

/-- R134: the body has ended; success exactly when `d == destLen`, then R142. -/
def decodeEnd (s : State) : Run :=
  if s.dec.d ≠ s.dec.destLen then .ok (s.raise .corrupt) else .ok (s.finish s.dec.destLen)

/-- One turn of the chunk loop (R113): a short chunk is one literal (R114), a longer one goes through `ENC.BLOCK`; at
the end of the input the command completes (R115). -/
def chunkLoop (s : State) : Run :=
  if s.enc.inPos < s.srcLen.toNat then
    let t := s.setEnc { s.enc with blkLen := min (s.srcLen.toNat - s.enc.inPos) Config.maxBlockSize }
    if t.enc.blkLen < Config.minNonLiteralBlock then do
      let u ← emitLit t.enc.inPos t.enc.blkLen t
      .ok u.nextChunk
    else .ok (t.setPhase .bInit)
  else .ok (s.finish s.enc.d)

end Sys2Proof.Machine
end

