-- ==== Sys2Proof/Machine/Copies.lean ====
section
/-! DEFINITION. The copy tokens and the copy expander (R127 to R133). -/

namespace Sys2Proof.Machine

/-- Copy operand checks and expansion, common to the three forms (R130 to R133): reads the registers `offset`,
`length`, `d`, `destLen`. All three tests come before the first write. -/
def copyBody (s : State) : Run :=
  let r := s.dec
  if r.offset = 0 then .ok (s.raise .corrupt)
  else if r.offset > r.d then .ok (s.raise .corrupt)
  else if r.length > r.destLen - r.d then .ok (s.raise .corrupt)
  else do
    let t ← s.expandCopy r.offset r.d r.length
    .ok ((t.setDec { r with d := r.d + r.length }).setPhase .dFetch)

/-- A copy token of `head` bytes: the extent test (R127 to R129, R153), then `length`, `offset` and `s`, then R130. -/
def copy (head length offset : Nat) (s : State) : Run :=
  if s.dec.s + head > s.dec.bodyLen then .ok (s.raise .corrupt)
  else
    copyBody
      ((s.setDec { s.dec with length := length, offset := offset, s := s.dec.s + head }).setPhase .dCopy)

/-- `COPY1` (R127). -/
def execCopy1 (l : BitVec 3) (offset : BitVec 11) (s : State) : Host.Outcome State Fault Refusal :=
  (copy 2 (copy1Length l) (copyOffset offset) s).outcome

/-- `COPY2` (R128). -/
def execCopy2 (l : BitVec 6) (offset : BitVec 16) (s : State) : Host.Outcome State Fault Refusal :=
  (copy 3 (copyLength l) (copyOffset offset) s).outcome

/-- `COPY4` (R129). -/
def execCopy4 (l : BitVec 6) (offset : BitVec 32) (s : State) : Host.Outcome State Fault Refusal :=
  (copy 5 (copyLength l) (copyOffset offset) s).outcome

end Sys2Proof.Machine
end

