-- ==== Sys2Proof/Machine/Literals.lean ====
section
/-! DEFINITION. The literal tokens (R121 to R126). -/

namespace Sys2Proof.Machine

/-- Literal execution, common to the five forms (R126): reads the registers `length`, `s` (the first payload byte),
`d`, `destLen`, `bodyLen`. All three tests come before the first write. -/
def literalBody (s : State) : Run :=
  let r := s.dec
  if r.length = 0 then .ok (s.raise .unsupportedLiteralLength)
  else if r.length > r.destLen - r.d then .ok (s.raise .unsupportedLiteralLength)
  else if r.length > r.bodyLen - r.s then .ok (s.raise .unsupportedLiteralLength)
  else do
    let payload ← s.readSrc (r.hdrLen + r.s) r.length
    let t ← s.writeDst r.d payload
    .ok ((t.setDec { r with d := r.d + r.length, s := r.s + r.length }).setPhase .dFetch)

/-- A literal of the given length whose tag and length bytes take `head` bytes: `length` and `s` are set, then R126. -/
def literal (head length : Nat) (s : State) : Run :=
  literalBody ((s.setDec { s.dec with length := length, s := s.dec.s + head }).setPhase .dLit)

/-- A literal with trailing length bytes: `if s + head > bodyLen: raise Corrupt` comes first (R122 to R125, R153). -/
def longLiteral (head length : Nat) (s : State) : Run :=
  if s.dec.s + head > s.dec.bodyLen then .ok (s.raise .corrupt) else literal head length s

/-- `LIT.S` (R121): no trailing byte, so no extent test. -/
def execLitS (m : BitVec 6) (s : State) : Host.Outcome State Fault Refusal :=
  (literal 1 (literalLength m) s).outcome

/-- `LIT.1` (R122). -/
def execLit1 (m : BitVec 8) (s : State) : Host.Outcome State Fault Refusal :=
  (longLiteral 2 (literalLength m) s).outcome

/-- `LIT.2` (R123). -/
def execLit2 (m : BitVec 16) (s : State) : Host.Outcome State Fault Refusal :=
  (longLiteral 3 (literalLength m) s).outcome

/-- `LIT.3` (R124). -/
def execLit3 (m : BitVec 24) (s : State) : Host.Outcome State Fault Refusal :=
  (longLiteral 4 (literalLength m) s).outcome

/-- `LIT.4` (R125). -/
def execLit4 (m : BitVec 32) (s : State) : Host.Outcome State Fault Refusal :=
  (longLiteral 5 (literalLength m) s).outcome

end Sys2Proof.Machine
end

