-- ==== Sys2Proof/Machine/Dispatch.lean ====
section
/-! DEFINITION. The dispatch: one arm per constructor of Instr. -/

namespace Sys2Proof.Machine

def exec (i : Instr) (s : State) : Host.Outcome State Fault Refusal :=
  match i with
  | .litS m => Sys2Proof.Machine.execLitS m s
  | .lit1 m => Sys2Proof.Machine.execLit1 m s
  | .lit2 m => Sys2Proof.Machine.execLit2 m s
  | .lit3 m => Sys2Proof.Machine.execLit3 m s
  | .lit4 m => Sys2Proof.Machine.execLit4 m s
  | .copy1 l offset => Sys2Proof.Machine.execCopy1 l offset s
  | .copy2 l offset => Sys2Proof.Machine.execCopy2 l offset s
  | .copy4 l offset => Sys2Proof.Machine.execCopy4 l offset s
  | .hdr value len => Sys2Proof.Machine.execHdr value len s
  | .compress => Sys2Proof.Machine.execCompress s
  | .decompress => Sys2Proof.Machine.execDecompress s
  | .maxlen => Sys2Proof.Machine.execMaxlen s

end Sys2Proof.Machine
end

