-- ==== Sys2Proof/Machine/Sequencer.lean ====
section
/-! DEFINITION. What comes next while BUSY: an instruction's bits to decode, or a phase that runs with no instruction
(R18, R106, R120). -/

namespace Sys2Proof.Machine

/-- What the phase register says comes next. -/
inductive Work where
  /-- An instruction: its bits. -/
  | instruction (c : Code)
  /-- A phase of a command: what it leaves. -/
  | phaseRun (r : Run)

/-- The decoder's fetch (R120): at the end of the body go to `D_END`, else the next token's bytes. -/
def fetchOrEnd (s : State) : Work :=
  if s.dec.s ≥ s.dec.bodyLen then .phaseRun (.ok (s.setPhase .dEnd))
  else
    match s.fetchToken with
    | .ok bytes => .instruction (.token bytes)
    | .error e => .phaseRun (.error e)

/-- The work of each phase (R18; the order of phases is R106's and R120's). -/
def State.work (s : State) : Work :=
  match s.phase with
  | .cStart => .instruction (.command s.cmd)
  | .hDec => .instruction (.header s.fetchHeader)
  | .dInit => .phaseRun (decodeInit s)
  | .dFetch => fetchOrEnd s
  | .dLit => .phaseRun (literalBody s)
  | .dCopy => .phaseRun (copyBody s)
  | .dEnd => .phaseRun (decodeEnd s)
  | .eChunk => .phaseRun (chunkLoop s)
  | .bInit => .phaseRun (blockInit s)
  | .bSearch => .phaseRun (blockSearch s)
  | .bMatch => .phaseRun (blockMatch s)
  | .bCopy => .phaseRun (blockCopy s)
  | .bRemainder => .phaseRun (blockRemainder s)

/-- Bits that are no instruction raise the error the spec names: `BadCommand` for a `CMD` value (R63), `Corrupt` for a
header (R71) or a token cut short (R60; log 13). -/
def rejectCode (e : DecodeError) (s : State) : Run :=
  match e with
  | .badCommand => .ok (s.raiseQuiet .badCommand)
  | .noTag => .ok (s.raise .corrupt)
  | .truncatedToken => .ok (s.raise .corrupt)
  | .headerEnds => .ok (s.raise .corrupt)
  | .headerTooLong => .ok (s.raise .corrupt)

end Sys2Proof.Machine
end

