-- ==== Sys2Proof/Machine/Step.lean ====
section
/-! DEFINITION. One step of the CORE, and placing an instruction where the next step fetches it. -/

namespace Sys2Proof.Machine

/-- One step. A quiescent CORE keeps all its state and does nothing (R158, R170). While BUSY the phase register says
what executes next (R18): the instruction the fetched bits decode to, or a phase's own work. -/
def step (s : State) : Host.Outcome State Fault Refusal :=
  if s.status = .busy then
    match s.work with
    | .instruction c =>
      match decode c with
      | .ok i => exec i s
      | .error e => (rejectCode e s).outcome
    | .phaseRun r => r.outcome
  else .next s

/-- `s` with the bits of a code placed where the very next step fetches them (log 11). A command: what the host's `CMD`
write does (R15). A header: at the start of `SRC`, DECOMPRESS about to read it. A token: at the decoder's cursor, the
decoder about to fetch, `bodyLen` and `SRC_LEN` reaching past its bytes. -/
def State.placeCode (s : State) : Code → State
  | .command v => s.startCommand v
  | .header bytes =>
    { s with
      status := .busy, phase := .hDec, src := Memory.putBytes s.src 0 bytes,
      srcLen := BitVec.ofNat 32 bytes.length }
  | .token bytes =>
    { s with
      status := .busy, phase := .dFetch, src := Memory.putBytes s.src (s.dec.hdrLen + s.dec.s) bytes,
      dec := { s.dec with bodyLen := s.dec.s + bytes.length },
      srcLen := BitVec.ofNat 32 (s.dec.hdrLen + s.dec.s + bytes.length) }

/-- The state in which the very next step fetches and runs the opcode-table word `w` of `nbits` bits. -/
def State.withFetchWord (s : State) (nbits w : Nat) : State := s.placeCode (tableCode nbits w)

end Sys2Proof.Machine
end

