-- ==== Sys2Proof/Machine/Flags.lean ====
section
/-! DEFINITION. The CORE has no condition codes and no operation leaves a flag (R21). The only status a command leaves
is `STATUS`, `ERR` and `OUT_LEN`; here are the words the first two read as (R11, R150). -/

namespace Sys2Proof.Machine

/-- `STATUS`: bits 1:0 the state, bits 31:2 read 0 (R11). -/
def statusWord : StatusState → Word
  | .idle => 0
  | .busy => 1
  | .done => 2
  | .error => 3

/-- `ERR`: bits 2:0 the error code, bits 31:3 read 0 (R11, R150). -/
def errWord : ErrKind → Word
  | .noError => 0
  | .corrupt => 1
  | .tooLarge => 2
  | .unsupportedLiteralLength => 3
  | .inputTooLarge => 4
  | .dstTooSmall => 5
  | .badCommand => 6

end Sys2Proof.Machine
end

