-- ==== Sys2Proof/Machine/HostPort.lean ====
section
/-! DEFINITION. The host's side: its reads and writes of the CSRs, of `SRC` and `DST`, and reset (R11, R15, R23, R63,
R170). Each is a move of the host between steps of the CORE (log 10). -/

namespace Sys2Proof.Machine

/-- The six CSRs (R11). -/
inductive Csr where
  | cmd
  | status
  | err
  | srcLen
  | dstCap
  | outLen
  deriving DecidableEq, Repr

/-- A CSR's number (R11). -/
def Csr.number : Csr → Nat
  | .cmd => 0
  | .status => 1
  | .err => 2
  | .srcLen => 3
  | .dstCap => 4
  | .outLen => 5

/-- The CSR of a number; there are six (R11). -/
def Csr.ofNumber : Nat → Option Csr
  | 0 => some .cmd
  | 1 => some .status
  | 2 => some .err
  | 3 => some .srcLen
  | 4 => some .dstCap
  | 5 => some .outLen
  | _ => none

/-- A host read of a CSR, at any time (R11, R23); `CMD` reads 0. -/
def State.readCsr (s : State) : Csr → Word
  | .cmd => 0
  | .status => statusWord s.status
  | .err => errWord s.err
  | .srcLen => s.srcLen
  | .dstCap => s.dstCap
  | .outLen => s.outLen

/-- A host write of `CMD` while not BUSY: the command starts (R15); a value that is no command starts no operation and
ends at once in ERROR with `BadCommand` (R63; log 2). -/
def State.writeCmd (s : State) (v : Word) : State :=
  match decodeCommand v with
  | .ok _ => s.startCommand v
  | .error _ => (s.startCommand v).raiseQuiet .badCommand

/-- A host write of a CSR. `STATUS`, `ERR` and `OUT_LEN` ignore it; while BUSY the other three ignore it too (R11). -/
def State.writeCsr (s : State) (c : Csr) (v : Word) : State :=
  if s.status = .busy then s
  else
    match c with
    | .cmd => s.writeCmd v
    | .status => s
    | .err => s
    | .srcLen => { s with srcLen := v }
    | .dstCap => { s with dstCap := v }
    | .outLen => s

/-- A host write of one byte of `SRC` while the CORE is quiescent (R12, R23); while BUSY the model gives the host no
such move (U4, R179). -/
def State.hostWriteSrc (s : State) (a : Word) (b : Byte) : Run :=
  if s.status = .busy then .error (.refused .hostAccessWhileBusy)
  else .ok { s with src := Cells.put s.src a.toNat b }

/-- A host read of one byte of `DST` while the CORE is quiescent (R13, R23); while BUSY the model gives the host no
such move (U4, R179). -/
def State.hostReadDst (s : State) (a : Word) : Except Stop Byte :=
  if s.status = .busy then .error (.refused .hostAccessWhileBusy) else .ok (s.dstByte a.toNat)

/-- Reset, at any time: the state of R20; a command that runs is abandoned; every memory and working register is
unspecified again (R170, U9). `SIZE31` is a parameter of the machine and stays (R19). -/
def State.applyReset (s : State) : State :=
  { State.reset with params := s.params, resets := s.resets + 1 }

/-- The host's moves that change the machine. -/
inductive HostMove where
  | writeCsr (c : Csr) (v : Word)
  | writeSrc (a : Word) (b : Byte)
  | applyReset
  deriving DecidableEq, Repr

/-- What a host move does. -/
def hostMove (m : HostMove) (s : State) : Host.Outcome State Fault Refusal :=
  match m with
  | .writeCsr c v => .next (s.writeCsr c v)
  | .writeSrc a b => (s.hostWriteSrc a b).outcome
  | .applyReset => .next s.applyReset

end Sys2Proof.Machine
end

