-- ==== Sys2Proof/Safety.lean ====
section
/-! DEFINITION. What a safe run is, in the terms the claims use: a run that never stops. The invariant that gives it:
the memories are in canonical form, `ERR` and `STATUS` agree, and in each phase the working registers stand where the
rules put them (R15, R105, R120, R107). -/

namespace Sys2Proof.Safety

open Sys2Proof.Machine

/-- Not BUSY (R9 glossary). -/
abbrev Quiescent (s : State) : Prop := s.status ≠ .busy

/-- The three memories in canonical form. -/
abbrev MemoriesWf (s : State) : Prop := Memory.wf s.src ∧ Memory.wf s.dst ∧ Table.wf s.ht

/-- R15: `ERR != 0` exactly when `state == ERROR`; only a command that completed leaves a result length. -/
abbrev StatusAgrees (s : State) : Prop :=
  (s.err ≠ .noError ↔ s.status = .error) ∧ (s.outLen ≠ 0 → s.status = .done)

/-- `DST[0 : n]` was written, every byte of it (R13, R135 (c)). -/
abbrev Written (s : State) (n : Nat) : Prop := ∀ a < n, (Cells.find s.dst a).isSome

/-! ## The decoder (R120, R134) -/

/-- R120: `0 <= s <= bodyLen`, `0 <= d <= destLen <= DST_CAP`, `DST[0 : d]` the output so far; the body ends the input
(R140). -/
abbrev DecoderInv (s : State) : Prop :=
  1 ≤ s.dec.hdrLen ∧ s.dec.hdrLen ≤ Config.varintMaxBytes ∧
  s.dec.hdrLen + s.dec.bodyLen = s.srcLen.toNat ∧ s.dec.s ≤ s.dec.bodyLen ∧
  s.dec.d ≤ s.dec.destLen ∧ s.dec.destLen ≤ s.dstCap.toNat ∧ Written s s.dec.d

/-! ## The encoder (R105, R107) -/

/-- R112, R178: the capacity was validated before the first write; `DST[0 : d]` is the output so far. -/
abbrev CompressInv (s : State) : Prop :=
  Config.bound s.srcLen.toNat ≤ s.dstCap.toNat ∧ Written s s.enc.d

/-- How far the output may have come when the chunk's bytes before position `p` are encoded: what makes R107's bound
an invariant. Literals cost one byte in 60 beyond their payload, copies never cost more than they cover. -/
abbrev Budget (s : State) (p extra : Nat) : Prop :=
  60 * s.enc.d ≤ 60 * (5 + s.enc.inPos + s.enc.inPos / 6) + 61 * p + 60 * extra

/-- Between chunks (R113). -/
abbrev ChunkLoopInv (s : State) : Prop :=
  CompressInv s ∧ s.enc.inPos ≤ s.srcLen.toNat ∧
  (s.enc.inPos < s.srcLen.toNat →
    s.enc.inPos % Config.maxBlockSize = 0 ∧ s.enc.d ≤ 5 + s.enc.inPos + s.enc.inPos / 6) ∧
  s.enc.d ≤ 6 + s.enc.inPos + s.enc.inPos / 6

/-- In a chunk (R90, R113). -/
abbrev ChunkInv (s : State) : Prop :=
  CompressInv s ∧ s.enc.inPos % Config.maxBlockSize = 0 ∧ Config.minNonLiteralBlock ≤ s.enc.blkLen ∧
  s.enc.blkLen = min (s.srcLen.toNat - s.enc.inPos) Config.maxBlockSize

/-- R105 (d): every entry the chunk uses is below `p`. -/
abbrev TableBelow (s : State) (p : Nat) : Prop :=
  ∀ c ∈ s.ht, c.1 < s.enc.tableSize → c.2.toNat < p

/-- In a chunk after its start (R91, R95). -/
abbrev BlockInv (s : State) : Prop :=
  ChunkInv s ∧ (s.enc.tableSize, s.enc.shift) = tableGeometry s.enc.blkLen ∧
  s.enc.sLimit = s.enc.blkLen - Config.inputMargin

/-- Before a probe (R96): `nextHash == H(nextS)`, the next position is no further than `sLimit`. -/
abbrev SearchInv (s : State) : Prop :=
  BlockInv s ∧ s.enc.nextEmit < s.enc.nextS ∧ s.enc.nextS ≤ s.enc.sLimit ∧
  s.enc.nextHash = hash s.enc.shift (s.fp s.enc.nextS) ∧ TableBelow s s.enc.nextS ∧
  32 ≤ s.enc.skip ∧ s.enc.skip ≤ 31 + s.enc.nextS ∧ Budget s s.enc.nextEmit 0

/-- A verified match at `s` (R97, R105 (b)). -/
abbrev Matched (s : State) : Prop :=
  s.enc.candidate < s.enc.s ∧ s.enc.s < s.enc.sLimit ∧ s.fp s.enc.s = s.fp s.enc.candidate ∧
  TableBelow s (s.enc.s + 1)

/-- Before the pending literal of a match (R98: it is never empty). -/
abbrev MatchInv (s : State) : Prop :=
  BlockInv s ∧ Matched s ∧ s.enc.nextEmit < s.enc.s ∧ Budget s s.enc.nextEmit 0

/-- Before a copy (R99, R102). -/
abbrev CopyInv (s : State) : Prop :=
  BlockInv s ∧ Matched s ∧ s.enc.nextEmit ≤ s.enc.s ∧ Budget s s.enc.s 1

/-- Before the remainder (R103). -/
abbrev RemainderInv (s : State) : Prop :=
  ChunkInv s ∧ s.enc.nextEmit ≤ s.enc.blkLen ∧ Budget s s.enc.nextEmit 0

/-! ## The whole -/

/-- What holds in each phase of a running command. -/
abbrev PhaseInv (s : State) : Prop :=
  (s.phase = .dInit → 1 ≤ s.dec.hdrLen ∧ s.dec.hdrLen ≤ Config.varintMaxBytes ∧
    s.dec.hdrLen ≤ s.srcLen.toNat ∧ s.dec.destLen ≤ Config.lenMax) ∧
  (s.phase = .dFetch → DecoderInv s) ∧
  (s.phase = .dLit → DecoderInv s) ∧
  (s.phase = .dCopy → DecoderInv s) ∧
  (s.phase = .dEnd → DecoderInv s ∧ s.dec.s = s.dec.bodyLen) ∧
  (s.phase = .eChunk → ChunkLoopInv s) ∧
  (s.phase = .bInit → ChunkInv s ∧ Budget s 0 0) ∧
  (s.phase = .bSearch → SearchInv s) ∧
  (s.phase = .bMatch → MatchInv s) ∧
  (s.phase = .bCopy → CopyInv s) ∧
  (s.phase = .bRemainder → RemainderInv s)

/-- The machine's invariant. -/
abbrev Inv (s : State) : Prop :=
  MemoriesWf s ∧ StatusAgrees s ∧ (s.status = .busy → PhaseInv s)

/-- Every working register fits the width R16 and R17 give it. -/
abbrev RegistersFit (s : State) : Prop :=
  (s.enc.inPos < 2 ^ 32 ∧ s.enc.d < 2 ^ 32 ∧ s.enc.blkLen < 2 ^ 17 ∧ s.enc.tableSize < 2 ^ 15 ∧
    s.enc.shift < 2 ^ 5 ∧ s.enc.sLimit < 2 ^ 17 ∧ s.enc.s < 2 ^ 17 ∧ s.enc.nextS < 2 ^ 17 ∧
    s.enc.nextEmit < 2 ^ 17 ∧ s.enc.candidate < 2 ^ 17 ∧ s.enc.base < 2 ^ 17 ∧ s.enc.skip < 2 ^ 32 ∧
    s.enc.nextHash < 2 ^ 14) ∧
  (s.dec.hdrLen < 2 ^ 4 ∧ s.dec.destLen < 2 ^ 32 ∧ s.dec.bodyLen < 2 ^ 32 ∧ s.dec.s < 2 ^ 32 ∧
    s.dec.d < 2 ^ 32 ∧ s.dec.length < 2 ^ 33 ∧ s.dec.offset < 2 ^ 32)

/-- `k` steps of the CORE from `s` lead to `t`. -/
abbrev Leads (k : Nat) (s t : State) : Prop := Sys2Proof.core.run k s = .next t

/-- The host writes `v` to `CMD` in `s`, and the command ends in `t` (R172 steps 5 and 6). -/
def CommandEnds (v : Word) (s t : State) : Prop :=
  ∃ k, Leads k (s.writeCsr .cmd v) t ∧ Quiescent t

end Sys2Proof.Safety
end

