-- ==== Sys2Proof/Certificates/Slice0/Obligations.lean ====
section
/-! DEFINITION. The statements for the provers. Each docstring names the rules of spec/ it formalises. -/

open Sys2Proof Sys2Proof.Machine Sys2Proof.Safety

namespace Sys2Proof.Claims

/-! ## What the statements share -/

/-- What no step of the CORE writes: the parameter, the latched command, the two argument registers, `SRC` (R11, R12),
and the count of resets (the model's own). -/
abbrev SameInputs (s t : State) : Prop :=
  t.params = s.params ∧ t.cmd = s.cmd ∧ t.srcLen = s.srcLen ∧ t.dstCap = s.dstCap ∧ t.src = s.src ∧
  t.resets = s.resets

/-- The frame of a token that completes: everything but the decoder's registers, `DST` and the phase. -/
abbrev TokenFrame (s t : State) : Prop :=
  SameInputs s t ∧ t.status = s.status ∧ t.err = s.err ∧ t.outLen = s.outLen ∧ t.ht = s.ht ∧ t.enc = s.enc ∧
  t.dstUnspec = s.dstUnspec

/-- What `raise k` leaves when a step of COMPRESS or DECOMPRESS raises it: `ERR`, `OUT_LEN` and `STATUS` as R151 says;
the inputs, `HT`, the encoder's registers and every byte of `DST` at or beyond `DST_CAP` as before ("at the `raise` the
state is that of all earlier steps completed"; U2 calls the registers any value between commands: log 17). Nothing is
said of `DST[0 : DST_CAP]` (R157). -/
abbrev Raised (k : ErrKind) (s t : State) : Prop :=
  t.err = k ∧ t.outLen = 0 ∧ t.status = .error ∧ SameInputs s t ∧ t.ht = s.ht ∧ t.enc = s.enc ∧
  ∀ a, s.dstCap.toNat ≤ a → t.dstByte a = s.dstByte a

/-- `Raised` by a token: the decoder's registers but `length`, `offset` and the cursor are as before too. -/
abbrev TokenRaised (k : ErrKind) (s t : State) : Prop :=
  Raised k s t ∧ t.dec.hdrLen = s.dec.hdrLen ∧ t.dec.destLen = s.dec.destLen ∧
  t.dec.bodyLen = s.dec.bodyLen ∧ t.dec.d = s.dec.d

/-- A literal of `length` bytes after `head` tag and length bytes fits body, output and memories (R126, R120). -/
abbrev LiteralFits (s : State) (head length : Nat) : Prop :=
  s.dec.s + head + length ≤ s.dec.bodyLen ∧ s.dec.hdrLen + s.dec.bodyLen ≤ s.srcLen.toNat ∧
  s.dec.d + length ≤ s.dec.destLen ∧ s.dec.destLen ≤ s.dstCap.toNat

/-- What a literal leaves (R121 to R126): the payload in `DST`, both cursors past it, every other byte as before. -/
abbrev LiteralResult (s t : State) (head length : Nat) : Prop :=
  t.dec = { s.dec with length := length, s := s.dec.s + head + length, d := s.dec.d + length } ∧
  t.phase = .dFetch ∧
  (∀ k < length, t.dstByte (s.dec.d + k) = s.srcByte (s.dec.hdrLen + (s.dec.s + head + k))) ∧
  (∀ a, a < s.dec.d ∨ s.dec.d + length ≤ a → t.dstByte a = s.dstByte a) ∧
  TokenFrame s t

/-- A copy token fits body, output so far, output and memory (R127 to R130, R120). -/
abbrev CopyFits (s : State) (head length offset : Nat) : Prop :=
  s.dec.s + head ≤ s.dec.bodyLen ∧ 1 ≤ offset ∧ offset ≤ s.dec.d ∧
  s.dec.d + length ≤ s.dec.destLen ∧ s.dec.destLen ≤ s.dstCap.toNat

/-- What a copy leaves (R127 to R133): the pattern of the last `offset` bytes repeated over `length` bytes. -/
abbrev CopyResult (s t : State) (head length offset : Nat) : Prop :=
  t.dec = { s.dec with length := length, offset := offset, s := s.dec.s + head, d := s.dec.d + length } ∧
  t.phase = .dFetch ∧
  (∀ k < length, t.dstByte (s.dec.d + k) = s.dstByte (s.dec.d - offset + k % offset)) ∧
  (∀ a, a < s.dec.d ∨ s.dec.d + length ≤ a → t.dstByte a = s.dstByte a) ∧
  TokenFrame s t

/-- R60's operand errors of a copy whose extent is whole. -/
abbrev CopyOperandsBad (s : State) (length offset : Nat) : Prop :=
  offset = 0 ∨ s.dec.d < offset ∨ s.dec.destLen < s.dec.d + length

/-- A literal whose extent is whole overruns the output or the body (R126). -/
abbrev LiteralOverruns (s : State) (head length : Nat) : Prop :=
  s.dec.destLen < s.dec.d + length ∨ s.dec.bodyLen < s.dec.s + head + length

/-- The token bytes R58 gives a tag byte before any payload. -/
def tagHeadBytes (t : Byte) : Nat :=
  if t.toNat % 4 = 0 then (if t.toNat / 4 < 60 then 1 else t.toNat / 4 - 58)
  else if t.toNat % 4 = 1 then 2
  else if t.toNat % 4 = 2 then 3
  else 5

/-- The bytes an emission wrote at the encoder's cursor, the cursor past them, the rest of `DST` as before. -/
abbrev Emitted (s t : State) (bytes : List Byte) : Prop :=
  t.enc.d = s.enc.d + bytes.length ∧
  (∀ k, (h : k < bytes.length) → t.dstByte (s.enc.d + k) = bytes[k]) ∧
  ∀ a, a < s.enc.d ∨ s.enc.d + bytes.length ≤ a → t.dstByte a = s.dstByte a

/-- The frame of a phase of ENC.BLOCK: all but `DST`, `HT`, the encoder's registers and the phase. -/
abbrev BlockFrame (s t : State) : Prop :=
  SameInputs s t ∧ t.status = s.status ∧ t.err = s.err ∧ t.outLen = s.outLen ∧ t.dec = s.dec ∧
  t.dstUnspec = s.dstUnspec

/-- The chunk bytes `P[p : q]`. -/
def chunkBytes (s : State) (p q : Nat) : List Byte := s.srcBytes (s.enc.inPos + p) (q - p)

/-- Which phase may follow which inside one command: R106's and R120's arrows, and the model's own phases
(`cStart`, `hDec`, `dInit`, `eChunk`, log 1). -/
def follows : Phase → Phase → Bool
  | .cStart, q => q = .hDec || q = .eChunk
  | .hDec, q => q = .dInit
  | .dInit, q => q = .dFetch
  | .dFetch, q => q = .dFetch || q = .dEnd
  | .dLit, q => q = .dFetch
  | .dCopy, q => q = .dFetch
  | .dEnd, _ => false
  | .eChunk, q => q = .eChunk || q = .bInit
  | .bInit, q => q = .bSearch
  | .bSearch, q => q = .bSearch || q = .bMatch || q = .bRemainder
  | .bMatch, q => q = .bCopy
  | .bCopy, q => q = .bCopy || q = .bSearch || q = .bRemainder
  | .bRemainder, q => q = .eChunk

/-- R152's causes, by the phase whose rule raises them. -/
def mayRaise : Phase → ErrKind → Bool
  | .cStart, k => k = .inputTooLarge || k = .dstTooSmall || k = .badCommand
  | .hDec, k => k = .corrupt || k = .tooLarge
  | .dInit, k => k = .dstTooSmall
  | .dFetch, k => k = .corrupt || k = .unsupportedLiteralLength
  | .dLit, k => k = .unsupportedLiteralLength
  | .dCopy, k => k = .corrupt
  | .dEnd, k => k = .corrupt
  | .eChunk, _ => false
  | .bInit, _ => false
  | .bSearch, _ => false
  | .bMatch, _ => false
  | .bCopy, _ => false
  | .bRemainder, _ => false

/-- The phases of DECOMPRESS after its start. -/
def isDecoding : Phase → Bool
  | .hDec => true
  | .dInit => true
  | .dFetch => true
  | .dLit => true
  | .dCopy => true
  | .dEnd => true
  | .cStart => false
  | .eChunk => false
  | .bInit => false
  | .bSearch => false
  | .bMatch => false
  | .bCopy => false
  | .bRemainder => false

/-- An outcome with `HT` and the encoder's registers of its next state replaced. -/
def withEncoder (ht : Table) (enc : EncRegs) : Host.Outcome State Fault Refusal → Host.Outcome State Fault Refusal
  | .next t => .next { t with ht := ht, enc := enc }
  | .fault f => .fault f
  | .refused r => .refused r

/-- An outcome with the decoder's registers of its next state replaced. -/
def withDecoder (dec : DecRegs) : Host.Outcome State Fault Refusal → Host.Outcome State Fault Refusal
  | .next t => .next { t with dec := dec }
  | .fault f => .fault f
  | .refused r => .refused r

/-- Two machines a command cannot tell apart: same arguments, same parameter, same input bytes (R12, R22). -/
abbrev SameArguments (s u : State) : Prop :=
  u.srcLen = s.srcLen ∧ u.dstCap = s.dstCap ∧ u.params = s.params ∧
  ∀ a < s.srcLen.toNat, u.srcByte a = s.srcByte a

/-- What a command shows of itself: `STATUS`, `ERR`, `OUT_LEN` (R15). -/
abbrev SameResult (s u : State) : Prop :=
  u.status = s.status ∧ u.err = s.err ∧ u.outLen = s.outLen

end Sys2Proof.Claims

open Sys2Proof.Claims

/-! ## Encodings -/

/-- R55, R56, R57: every copy token's length and offset are the fields of its tag and trailing bytes, unsigned and
little-endian, and an offset of 0 is invalid in every form: it raises `Corrupt`. And words written out from R51, R53 to
R57 and R63 decode to the instruction they stand for. -/
def Obligations.SpecWordsDecode : Prop :=
  (∀ (t b1 : Byte) (rest : List Byte), t.toNat % 4 = 1 →
    ∃ l offset, decodeToken (t :: b1 :: rest) = .ok (.copy1 l offset) ∧
      4 + l.toNat = 4 + t.toNat / 4 % 8 ∧ offset.toNat = 256 * (t.toNat / 32) + b1.toNat) ∧
  (∀ (t b1 b2 : Byte) (rest : List Byte), t.toNat % 4 = 2 →
    ∃ l offset, decodeToken (t :: b1 :: b2 :: rest) = .ok (.copy2 l offset) ∧
      1 + l.toNat = 1 + t.toNat / 4 ∧ offset.toNat = b1.toNat + 256 * b2.toNat) ∧
  (∀ (t b1 b2 b3 b4 : Byte) (rest : List Byte), t.toNat % 4 = 3 →
    ∃ l offset, decodeToken (t :: b1 :: b2 :: b3 :: b4 :: rest) = .ok (.copy4 l offset) ∧
      1 + l.toNat = 1 + t.toNat / 4 ∧
      offset.toNat = b1.toNat + 256 * b2.toNat + 256 ^ 2 * b3.toNat + 256 ^ 3 * b4.toNat) ∧
  (∀ (s : State) (l : BitVec 3), ∃ t, exec (.copy1 l 0#11) s = .next t ∧ t.err = .corrupt) ∧
  (∀ (s : State) (l : BitVec 6), ∃ t, exec (.copy2 l 0#16) s = .next t ∧ t.err = .corrupt) ∧
  (∀ (s : State) (l : BitVec 6), ∃ t, exec (.copy4 l 0#32) s = .next t ∧ t.err = .corrupt) ∧
  decodeToken [0xEC#8] = .ok (.litS 59#6) ∧
  decodeToken [0xF0#8, 0x05#8] = .ok (.lit1 5#8) ∧
  decodeToken [0xF4#8, 0x00#8, 0x01#8] = .ok (.lit2 256#16) ∧
  decodeToken [0xF8#8, 0x03#8, 0x02#8, 0x01#8] = .ok (.lit3 0x010203#24) ∧
  decodeToken [0xFC#8, 0x04#8, 0x03#8, 0x02#8, 0x01#8] = .ok (.lit4 0x01020304#32) ∧
  decodeToken [0xE5#8, 0x01#8] = .ok (.copy1 1#3 1793#11) ∧
  decodeToken [0x1E#8, 0x04#8, 0x01#8] = .ok (.copy2 7#6 260#16) ∧
  decodeToken [0x0B#8, 0x06#8, 0x00#8, 0x00#8, 0x80#8] = .ok (.copy4 2#6 0x80000006#32) ∧
  decodeHeader [0xAC#8, 0x02#8] = .ok (.hdr 300 2) ∧
  decodeHeader [0x80#8, 0x00#8] = .ok (.hdr 0 2) ∧
  decodeCommand 1#32 = .ok .compress ∧
  decodeCommand 2#32 = .ok .decompress ∧
  decodeCommand 3#32 = .ok .maxlen

/-- Decoding inverts encoding: every well-formed instruction, every operand, whatever follows it (R51 to R58, R61,
R63). -/
def Obligations.DecodeOfEncode : Prop :=
  ∀ (i : Instr) (rest : List Byte), i.wellFormed = true → decode ((encode i).followedBy rest) = .ok i

/-- Encoding inverts decoding: what decodes is well-formed, and its bits are exactly the bits read (R58, R59). -/
def Obligations.EncodeOfDecode : Prop :=
  ∀ (c : Code) (i : Instr), decode c = .ok i → i.wellFormed = true ∧ ∃ rest, c = (encode i).followedBy rest

/-- R58, R59: the tag byte alone gives a token's size; every tag byte is a token once its trailing bytes are there,
and without them it is one cut short. -/
def Obligations.TagByteGivesTokenSize : Prop :=
  ∀ (t : Byte) (rest : List Byte),
    (tagHeadBytes t ≤ rest.length + 1 → ∃ i, decodeToken (t :: rest) = .ok i ∧ i.headBytes = tagHeadBytes t) ∧
    (rest.length + 1 < tagHeadBytes t → decodeToken (t :: rest) = .error .truncatedToken)

/-- R73: `HDR.DEC` of `HDR.ENC(n)` is `n`, in 1 to 5 bytes, or `TooLarge` when `SIZE31` holds and `n` exceeds its
limit; it reads at most ten bytes and none at or beyond `SRC_LEN`; the header of 81 is `51`.
That `HT` and the working registers stay after the error is the model's choice (log 17). -/
def Obligations.HeaderCodecLaws : Prop :=
  (∀ (s : State) (n : Nat), n ≤ 0xFFFFFFFF → s.status = .busy → s.phase = .hDec →
    (hdrEnc n).length ≤ s.srcLen.toNat → s.srcBytes 0 (hdrEnc n).length = hdrEnc n →
    ∃ t, step s = .next t ∧
      (if s.params.size31 = true ∧ 0x7FFFFFFF < n then Raised .tooLarge s t
       else t.dec.destLen = n ∧ t.dec.hdrLen = (hdrEnc n).length ∧ t.status = .busy)) ∧
  (∀ n ≤ 0xFFFFFFFF, 1 ≤ (hdrEnc n).length ∧ (hdrEnc n).length ≤ 5) ∧
  (∀ bytes, decodeHeader bytes = decodeHeader (bytes.take 10)) ∧
  (∀ s : State, s.fetchHeader = s.srcBytes 0 (min s.srcLen.toNat 10)) ∧
  hdrEnc 81 = [0x51#8]

/-- R70: the header is the shortest form: 1 byte below 2^7, 2 below 2^14, 3 below 2^21, 4 below 2^28, else 5. -/
def Obligations.HeaderIsShortestForm : Prop :=
  ∀ n ≤ 0xFFFFFFFF, (hdrEnc n).length =
    (if n < 2 ^ 7 then 1 else if n < 2 ^ 14 then 2 else if n < 2 ^ 21 then 3 else if n < 2 ^ 28 then 4 else 5)

/-! ## A step -/

/-- R18, R120, R140, R15: a step runs the instruction that the bits at the place the phase names decode to. -/
def Obligations.StepRunsTheDecodedInstruction : Prop :=
  ∀ (s : State) (i : Instr), s.status = .busy →
    (s.phase = .cStart → decodeCommand s.cmd = .ok i → step s = exec i s) ∧
    (s.phase = .hDec → decodeHeader (s.srcBytes 0 (min s.srcLen.toNat 10)) = .ok i → step s = exec i s) ∧
    (s.phase = .dFetch → s.dec.s < s.dec.bodyLen → s.dec.hdrLen + s.dec.bodyLen ≤ s.srcLen.toNat →
      decodeToken (s.srcBytes (s.dec.hdrLen + s.dec.s) (min 5 (s.dec.bodyLen - s.dec.s))) = .ok i →
      step s = exec i s)

/-- R60, R71: bits that are no instruction raise `Corrupt`. -/
def Obligations.UndecodableStreamIsCorrupt : Prop :=
  ∀ s : State, s.status = .busy →
    (s.phase = .hDec → ∀ e, decodeHeader (s.srcBytes 0 (min s.srcLen.toNat 10)) = .error e →
      step s = .next (s.raise .corrupt)) ∧
    (s.phase = .dFetch → s.dec.s < s.dec.bodyLen → s.dec.hdrLen + s.dec.bodyLen ≤ s.srcLen.toNat →
      ∀ e, decodeToken (s.srcBytes (s.dec.hdrLen + s.dec.s) (min 5 (s.dec.bodyLen - s.dec.s))) = .error e →
      step s = .next (s.raise .corrupt))

/-- R158, R170: a quiescent CORE keeps all its state and does nothing. -/
def Obligations.QuiescentCoreDoesNothing : Prop :=
  ∀ s : State, Quiescent s → ∀ k, Leads k s s

/-! ## Literal tokens -/

/-- R121 to R126: a literal that fits completes, copies its payload verbatim, moves both cursors, and leaves everything
else as it was. -/
def Obligations.LiteralsCopyTheirPayload : Prop :=
  ∀ s : State,
    (∀ m : BitVec 6, LiteralFits s 1 (m.toNat + 1) →
      ∃ t, exec (.litS m) s = .next t ∧ LiteralResult s t 1 (m.toNat + 1)) ∧
    (∀ m : BitVec 8, LiteralFits s 2 (m.toNat + 1) →
      ∃ t, exec (.lit1 m) s = .next t ∧ LiteralResult s t 2 (m.toNat + 1)) ∧
    (∀ m : BitVec 16, LiteralFits s 3 (m.toNat + 1) →
      ∃ t, exec (.lit2 m) s = .next t ∧ LiteralResult s t 3 (m.toNat + 1)) ∧
    (∀ m : BitVec 24, LiteralFits s 4 (m.toNat + 1) →
      ∃ t, exec (.lit3 m) s = .next t ∧ LiteralResult s t 4 (m.toNat + 1)) ∧
    (∀ m : BitVec 32, LiteralFits s 5 (m.toNat + 1) →
      ∃ t, exec (.lit4 m) s = .next t ∧ LiteralResult s t 5 (m.toNat + 1))

/-- R122 to R125, R153: a long literal whose length bytes run past the body raises `Corrupt`, whatever its length.
Nothing is said of the decoder's `s`, `length`, `offset` or of the phase; that `HT` and the other working registers stay
after the error is the model's choice (log 17). -/
def Obligations.LongLiteralCutShortIsCorrupt : Prop :=
  ∀ s : State,
    (∀ m : BitVec 8, s.dec.bodyLen < s.dec.s + 2 →
      ∃ t, exec (.lit1 m) s = .next t ∧ TokenRaised .corrupt s t) ∧
    (∀ m : BitVec 16, s.dec.bodyLen < s.dec.s + 3 →
      ∃ t, exec (.lit2 m) s = .next t ∧ TokenRaised .corrupt s t) ∧
    (∀ m : BitVec 24, s.dec.bodyLen < s.dec.s + 4 →
      ∃ t, exec (.lit3 m) s = .next t ∧ TokenRaised .corrupt s t) ∧
    (∀ m : BitVec 32, s.dec.bodyLen < s.dec.s + 5 →
      ∃ t, exec (.lit4 m) s = .next t ∧ TokenRaised .corrupt s t)

/-- R126, R60: a literal that overruns the output or the body raises `UnsupportedLiteralLength`.
That `HT` and the working registers stay after the error is the model's choice (log 17). -/
def Obligations.LiteralOverrunIsUnsupported : Prop :=
  ∀ s : State,
    (∀ m : BitVec 6, LiteralOverruns s 1 (m.toNat + 1) →
      ∃ t, exec (.litS m) s = .next t ∧ TokenRaised .unsupportedLiteralLength s t) ∧
    (∀ m : BitVec 8, s.dec.s + 2 ≤ s.dec.bodyLen → LiteralOverruns s 2 (m.toNat + 1) →
      ∃ t, exec (.lit1 m) s = .next t ∧ TokenRaised .unsupportedLiteralLength s t) ∧
    (∀ m : BitVec 16, s.dec.s + 3 ≤ s.dec.bodyLen → LiteralOverruns s 3 (m.toNat + 1) →
      ∃ t, exec (.lit2 m) s = .next t ∧ TokenRaised .unsupportedLiteralLength s t) ∧
    (∀ m : BitVec 24, s.dec.s + 4 ≤ s.dec.bodyLen → LiteralOverruns s 4 (m.toNat + 1) →
      ∃ t, exec (.lit3 m) s = .next t ∧ TokenRaised .unsupportedLiteralLength s t) ∧
    (∀ m : BitVec 32, s.dec.s + 5 ≤ s.dec.bodyLen → LiteralOverruns s 5 (m.toNat + 1) →
      ∃ t, exec (.lit4 m) s = .next t ∧ TokenRaised .unsupportedLiteralLength s t)

/-! ## Copy tokens -/

/-- R127 to R133: a copy that fits completes; `DST[d+k] = DST[d - offset + (k mod offset)]` with the values before it;
the cursors move; everything else is as it was. -/
def Obligations.CopiesRepeatThePattern : Prop :=
  ∀ s : State,
    (∀ (l : BitVec 3) (offset : BitVec 11), CopyFits s 2 (4 + l.toNat) offset.toNat →
      ∃ t, exec (.copy1 l offset) s = .next t ∧ CopyResult s t 2 (4 + l.toNat) offset.toNat) ∧
    (∀ (l : BitVec 6) (offset : BitVec 16), CopyFits s 3 (1 + l.toNat) offset.toNat →
      ∃ t, exec (.copy2 l offset) s = .next t ∧ CopyResult s t 3 (1 + l.toNat) offset.toNat) ∧
    (∀ (l : BitVec 6) (offset : BitVec 32), CopyFits s 5 (1 + l.toNat) offset.toNat →
      ∃ t, exec (.copy4 l offset) s = .next t ∧ CopyResult s t 5 (1 + l.toNat) offset.toNat)

/-- R127 to R130, R60: a copy cut short, or with an offset that is 0 or beyond the output so far, or longer than the
output left, raises `Corrupt`.
That `HT` and the working registers stay after the error is the model's choice (log 17). -/
def Obligations.BadCopyIsCorrupt : Prop :=
  ∀ s : State,
    (∀ (l : BitVec 3) (offset : BitVec 11),
      s.dec.bodyLen < s.dec.s + 2 ∨ CopyOperandsBad s (4 + l.toNat) offset.toNat →
      ∃ t, exec (.copy1 l offset) s = .next t ∧ TokenRaised .corrupt s t) ∧
    (∀ (l : BitVec 6) (offset : BitVec 16),
      s.dec.bodyLen < s.dec.s + 3 ∨ CopyOperandsBad s (1 + l.toNat) offset.toNat →
      ∃ t, exec (.copy2 l offset) s = .next t ∧ TokenRaised .corrupt s t) ∧
    (∀ (l : BitVec 6) (offset : BitVec 32),
      s.dec.bodyLen < s.dec.s + 5 ∨ CopyOperandsBad s (1 + l.toNat) offset.toNat →
      ∃ t, exec (.copy4 l offset) s = .next t ∧ TokenRaised .corrupt s t)

/-- R40, R131, R133: when `offset >= length` the byte-serial loop is the bulk copy of
`DST[d-offset : d-offset+length]`. -/
def Obligations.NonOverlappingCopyIsBulk : Prop :=
  ∀ (s : State) (offset d length : Nat), length ≤ offset → offset ≤ d →
    s.copyLoop offset d length =
      s.setDst (Memory.putBytes s.dst d ((List.range length).map fun i => s.dstByte (d - offset + i)))

/-! ## The header and DECOMPRESS -/

/-- R71: a header whose value is in range sets `destLen` and `hdrLen`, and nothing else but the phase. -/
def Obligations.HeaderSetsLengths : Prop :=
  ∀ (s : State) (value len : Nat), len ≤ s.srcLen.toNat → len ≤ 10 → value ≤ 0xFFFFFFFF →
    (s.params.size31 = true → value ≤ 0x7FFFFFFF) →
    exec (.hdr value len) s =
      .next { s with dec := { s.dec with destLen := value, hdrLen := len }, phase := .dInit }

/-- R72: above `0xFFFFFFFF` a header raises `Corrupt`, whatever `SIZE31` is; up to there and above `0x7FFFFFFF` it
raises `TooLarge` when `SIZE31` holds; when it does not, which is the default, no step raises `TooLarge`.
`SIZE31` as a field of State is the model's (log 7); that `HT` and the working registers named stay after the error
(R151) is the model's choice (log 17). -/
def Obligations.TooLargeOnlyUnderSizeLimit : Prop :=
  State.reset.params.size31 = false ∧
  (∀ (s : State) (value len : Nat), len ≤ s.srcLen.toNat → len ≤ 10 →
    (0xFFFFFFFF < value → ∃ t, exec (.hdr value len) s = .next t ∧ TokenRaised .corrupt s t) ∧
    (s.params.size31 = true → 0x7FFFFFFF < value → value ≤ 0xFFFFFFFF →
      ∃ t, exec (.hdr value len) s = .next t ∧ TokenRaised .tooLarge s t)) ∧
  (∀ s t : State, s.params.size31 = false → s.err ≠ .tooLarge → step s = .next t → t.err ≠ .tooLarge)

/-- R140: DECOMPRESS goes on to its header and changes nothing else (the step boundary there is the model's, log 1). -/
def Obligations.DecompressTurnsToItsHeader : Prop :=
  ∀ s : State, exec .decompress s = .next { s with phase := .hDec }

/-- R140, R141, R151: after the header, `DstTooSmall` if `destLen > DST_CAP`, before any write and any token; else
`bodyLen`, `s`, `d` are set and the decoder fetches. The step from the phase `dInit` is the model's boundary (log 1);
that the working registers and `HT` stay after the error is its choice (log 17). -/
def Obligations.CapacityIsTestedBeforeTokens : Prop :=
  ∀ s : State, s.status = .busy → s.phase = .dInit →
    (s.dstCap.toNat < s.dec.destLen → ∃ t, step s = .next t ∧ Raised .dstTooSmall s t ∧ t.dec = s.dec) ∧
    (s.dec.destLen ≤ s.dstCap.toNat →
      step s = .next
        { s with
          dec := { s.dec with bodyLen := s.srcLen.toNat - s.dec.hdrLen, s := 0, d := 0 }, phase := .dFetch })

/-- R134, R142: at the end of the body the decoder succeeds exactly when `d == destLen`, with `OUT_LEN = destLen` and
the bytes `DST[0 : destLen]` kept; otherwise `Corrupt`. -/
def Obligations.BodyEndsWithTheDeclaredLength : Prop :=
  ∀ s : State, s.status = .busy →
    (s.phase = .dFetch → s.dec.bodyLen ≤ s.dec.s → step s = .next { s with phase := .dEnd }) ∧
    (s.phase = .dEnd → s.dec.d ≠ s.dec.destLen → ∃ t, step s = .next t ∧ TokenRaised .corrupt s t) ∧
    (s.phase = .dEnd → s.dec.d = s.dec.destLen →
      ∃ t, step s = .next t ∧ t.status = .done ∧ t.err = s.err ∧ t.outLen = BitVec.ofNat 32 s.dec.destLen ∧
        SameInputs s t ∧ t.ht = s.ht ∧ t.enc = s.enc ∧ t.dec = s.dec ∧
        ∀ a, a < s.dec.destLen ∨ s.dstCap.toNat ≤ a → t.dstByte a = s.dstByte a)

/-! ## MAXLEN and the start of COMPRESS -/

/-- R110: `maxEncodedLength(n)` is `32 + n + n/6`, or too large; the largest `n` that is not is 3681400511. -/
def Obligations.WorstCaseBound : Prop :=
  (∀ n b, maxEncodedLength n = some b ↔ n ≤ 3681400511 ∧ b = 32 + n + n / 6) ∧
  (∀ n b, maxEncodedLength n = some b → n ≤ b ∧ b ≤ 0xFFFFFFFF) ∧
  maxEncodedLength 3681400511 = some 4294967294 ∧ maxEncodedLength 3681400512 = none ∧
  maxEncodedLength 0 = some 32 ∧ maxEncodedLength 1 = some 33 ∧ maxEncodedLength 5 = some 37 ∧
  maxEncodedLength 6 = some 39 ∧ maxEncodedLength 81 = some 126 ∧ maxEncodedLength 65536 = some 76490

/-- R111: MAXLEN, `CMD` value 3, leaves the bound in `OUT_LEN`, or raises `InputTooLarge` above 3681400511; it touches no
memory and no working register.
That `DST` stays is the model's choice of R111 against the wider words of R13 and R157 (log 6); that `HT` and the
working registers stay after the command ends is its choice too (log 17). -/
def Obligations.MaxlenReturnsTheBound : Prop :=
  decodeCommand 3#32 = .ok .maxlen ∧
  ∀ s : State,
    (s.srcLen.toNat ≤ 3681400511 →
      exec .maxlen s =
        .next
          { s with
            outLen := BitVec.ofNat 32 (32 + s.srcLen.toNat + s.srcLen.toNat / 6), status := .done }) ∧
    (3681400511 < s.srcLen.toNat →
      exec .maxlen s = .next { s with err := .inputTooLarge, outLen := 0, status := .error })

/-- R112, R70: COMPRESS with enough capacity writes the header at `DST[0]`, sets `d` past it and `in_pos` to 0, and
turns to the chunk loop; everything else is as it was. -/
def Obligations.CompressWritesTheHeader : Prop :=
  ∀ s : State, 32 + s.srcLen.toNat + s.srcLen.toNat / 6 ≤ s.dstCap.toNat →
    ∃ t, exec .compress s = .next t ∧
      t.enc = { s.enc with d := (hdrEnc s.srcLen.toNat).length, inPos := 0 } ∧ t.phase = .eChunk ∧
      (∀ k, (h : k < (hdrEnc s.srcLen.toNat).length) → t.dstByte k = (hdrEnc s.srcLen.toNat)[k]) ∧
      (∀ a, (hdrEnc s.srcLen.toNat).length ≤ a → t.dstByte a = s.dstByte a) ∧
      SameInputs s t ∧ t.status = s.status ∧ t.err = s.err ∧ t.outLen = s.outLen ∧ t.ht = s.ht ∧
      t.dec = s.dec ∧ t.dstUnspec = s.dstUnspec

/-- R112, R153: `InputTooLarge` first, whatever the capacity; then `DstTooSmall` below the bound.
That `HT` and the working registers stay after the error is the model's choice (log 17). -/
def Obligations.CompressTestsSizeThenCapacity : Prop :=
  ∀ s : State,
    (3681400511 < s.srcLen.toNat → ∃ t, exec .compress s = .next t ∧ Raised .inputTooLarge s t ∧ t.dec = s.dec) ∧
    (s.srcLen.toNat ≤ 3681400511 → s.dstCap.toNat < 32 + s.srcLen.toNat + s.srcLen.toNat / 6 →
      ∃ t, exec .compress s = .next t ∧ Raised .dstTooSmall s t ∧ t.dec = s.dec)

/-- R113 to R115: one turn of the chunk loop. The chunk is the rest of the input, at most 65536 bytes; one below 17
bytes is emitted as one `LIT.S`; at the end of the input the command completes with `OUT_LEN = d`. The phase `eChunk`
is the model's (log 1); that `HT` and the working registers stay after completion is the model's choice (log 17). -/
def Obligations.ChunkLoopTurn : Prop :=
  ∀ s : State, s.status = .busy → s.phase = .eChunk → ChunkLoopInv s →
    (s.enc.inPos < s.srcLen.toNat → 17 ≤ s.srcLen.toNat - s.enc.inPos →
      step s = .next
        { s with enc := { s.enc with blkLen := min (s.srcLen.toNat - s.enc.inPos) 65536 }, phase := .bInit }) ∧
    (∀ n, n = s.srcLen.toNat - s.enc.inPos → 0 < n → n < 17 →
      ∃ t, step s = .next t ∧ t.phase = .eChunk ∧ t.enc.inPos = s.srcLen.toNat ∧
        t.enc = { s.enc with d := t.enc.d, blkLen := n, inPos := s.enc.inPos + n } ∧
        Emitted s t (BitVec.ofNat 8 (4 * (n - 1)) :: s.srcBytes s.enc.inPos n) ∧ BlockFrame s t ∧ t.ht = s.ht) ∧
    (s.enc.inPos = s.srcLen.toNat →
      ∃ t, step s = .next t ∧ t.status = .done ∧ t.err = s.err ∧ t.outLen = BitVec.ofNat 32 s.enc.d ∧
        SameInputs s t ∧ t.ht = s.ht ∧ t.enc = s.enc ∧ t.dec = s.dec ∧
        ∀ a, a < s.enc.d ∨ s.dstCap.toNat ≤ a → t.dstByte a = s.dstByte a)

/-! ## Tag emitters -/

/-- R80, R83: inside its domain the bytes `EMIT.LIT` puts before the payload are the shortest literal token of that
length, `LIT.S`, `LIT.1` or `LIT.2`, and decode to it. -/
def Obligations.EmittedLiteralDecodes : Prop :=
  ∀ (n : Nat) (rest : List Byte), 1 ≤ n → n ≤ 65536 →
    (n ≤ 60 → ∃ m, m.toNat + 1 = n ∧ decodeToken (literalTag n ++ rest) = .ok (.litS m) ∧
      (literalTag n).length = 1) ∧
    (60 < n → n ≤ 256 → ∃ m, m.toNat + 1 = n ∧ decodeToken (literalTag n ++ rest) = .ok (.lit1 m) ∧
      (literalTag n).length = 2) ∧
    (256 < n → ∃ m, m.toNat + 1 = n ∧ decodeToken (literalTag n ++ rest) = .ok (.lit2 m) ∧
      (literalTag n).length = 3)

/-- R81, R83: inside its domain `EMIT.COPY` writes `COPY2` and `COPY1` tokens of the given offset, each of length 4 or
more, whose lengths add up to the length asked for. -/
def Obligations.EmittedCopiesAddUp : Prop :=
  ∀ offset length : Nat, 1 ≤ offset → offset ≤ 65535 → 4 ≤ length →
    ∃ tokens : List Instr,
      copyBytes offset length = (tokens.map fun i => (encode i).bytes).flatten ∧
      (∀ i ∈ tokens,
        (∃ l o, i = .copy1 l o ∧ o.toNat = offset) ∨
        (∃ l o, i = .copy2 l o ∧ o.toNat = offset ∧ 4 ≤ 1 + l.toNat)) ∧
      (tokens.map fun
        | .copy1 l _ => 4 + l.toNat
        | .copy2 l _ => 1 + l.toNat
        | _ => 0).sum = length

/-- R82: how many bytes `EMIT.COPY(offset, length)` writes. -/
def Obligations.EmittedCopySize : Prop :=
  ∀ offset length q r : Nat, 4 ≤ length →
    q = (if length < 68 then 0 else (length - 4) / 64) → r = length - 64 * q →
    (copyBytes offset length).length =
      (if r > 64 then 3 * q + 3 + (if r - 60 ≥ 12 ∨ offset ≥ 2048 then 3 else 2)
       else 3 * q + (if r ≥ 12 ∨ offset ≥ 2048 then 3 else 2))

/-! ## The Block Encoder -/

/-- R91: the table is the smallest power of two at least 256 that is no smaller than the chunk, at most 16384; the
shift is 32 less its logarithm. -/
def Obligations.TableIsSmallestPowerOfTwo : Prop :=
  ∀ n, 17 ≤ n → n ≤ 65536 →
    ∃ k, 8 ≤ k ∧ k ≤ 14 ∧ tableGeometry n = (2 ^ k, 32 - k) ∧ (n ≤ 2 ^ k ∨ k = 14) ∧ (k = 8 ∨ 2 ^ (k - 1) < n)

/-- R32, R92: a fingerprint is the four bytes, little-endian; the hash is the product modulo 2^32 shifted right; it is
below the table's size, so masking it changes nothing; and R92's examples (G1 to G3: log 16). -/
def Obligations.HashIndexesTheTable : Prop :=
  (∀ (s : State) (p : Nat),
    (s.fp p).toNat =
      (s.chunkByte p).toNat + 2 ^ 8 * (s.chunkByte (p + 1)).toNat + 2 ^ 16 * (s.chunkByte (p + 2)).toNat +
        2 ^ 24 * (s.chunkByte (p + 3)).toNat) ∧
  (∀ (u : Word) (n size shift : Nat), tableGeometry n = (size, shift) →
    18 ≤ shift ∧ shift ≤ 24 ∧ size = 2 ^ (32 - shift) ∧
    hash shift u = (u.toNat * 0x1e35a7bd % 2 ^ 32) / 2 ^ shift ∧ hash shift u < size ∧
    hash shift u &&& (size - 1) = hash shift u) ∧
  hash 24 0x64636261 = 174 ∧ hash 24 0x61616161 = 242 ∧ hash 24 0 = 0 ∧ hash 18 0x64636261 = 11176

/-- R91, R94, R95, R96: `B_INIT` clears the entries the chunk uses and no other, sets the initial registers and enters
the search. -/
def Obligations.BlockStartsWithAClearTable : Prop :=
  ∀ s : State, s.status = .busy → s.phase = .bInit → 17 ≤ s.enc.blkLen → s.enc.blkLen ≤ 65536 →
    s.enc.inPos + s.enc.blkLen ≤ s.srcLen.toNat →
    ∃ t, step s = .next t ∧ t.phase = .bSearch ∧
      t.enc =
        { s.enc with
          tableSize := (tableGeometry s.enc.blkLen).1, shift := (tableGeometry s.enc.blkLen).2,
          sLimit := s.enc.blkLen - 15, nextEmit := 0, s := 1, nextS := 1, skip := 32,
          nextHash := hash (tableGeometry s.enc.blkLen).2 (s.fp 1) } ∧
      (∀ i, Table.entry t.ht i = if i < t.enc.tableSize then 0 else Table.entry s.ht i) ∧
      BlockFrame s t ∧ t.dst = s.dst

/-- R96, R97, R41: one probe. Past the limit it ends the search and leaves the table alone; else it reads the entry,
then overwrites that one entry with the position, and matches exactly when the fingerprints are equal. -/
def Obligations.ProbeReadsThenOverwrites : Prop :=
  ∀ s : State, s.status = .busy → s.phase = .bSearch → SearchInv s →
    (s.enc.sLimit < s.enc.nextS + s.enc.skip / 32 →
      ∃ t, step s = .next t ∧ t.phase = .bRemainder ∧ t.ht = s.ht ∧ t.dst = s.dst ∧ BlockFrame s t ∧
        t.enc =
          { s.enc with
            s := s.enc.nextS, nextS := s.enc.nextS + s.enc.skip / 32, skip := s.enc.skip + s.enc.skip / 32 }) ∧
    (s.enc.nextS + s.enc.skip / 32 ≤ s.enc.sLimit →
      ∃ t, step s = .next t ∧ t.dst = s.dst ∧ BlockFrame s t ∧
        t.enc =
          { s.enc with
            s := s.enc.nextS, nextS := s.enc.nextS + s.enc.skip / 32, skip := s.enc.skip + s.enc.skip / 32,
            candidate := (Table.entry s.ht s.enc.nextHash).toNat,
            nextHash := hash s.enc.shift (s.fp (s.enc.nextS + s.enc.skip / 32)) } ∧
        (∀ i, Table.entry t.ht i =
          if i = s.enc.nextHash then BitVec.ofNat 16 s.enc.nextS else Table.entry s.ht i) ∧
        (t.phase = .bMatch ∨ t.phase = .bSearch) ∧
        (t.phase = .bMatch ↔ s.fp s.enc.nextS = s.fp (Table.entry s.ht s.enc.nextHash).toNat))

/-- R98: a match from the search emits the pending literal, which is never empty, and goes on to the copy. -/
def Obligations.MatchEmitsThePendingLiteral : Prop :=
  ∀ s : State, s.status = .busy → s.phase = .bMatch → MatchInv s →
    ∃ t, step s = .next t ∧ t.phase = .bCopy ∧ s.enc.nextEmit < s.enc.s ∧
      Emitted s t (literalTag (s.enc.s - s.enc.nextEmit) ++ chunkBytes s s.enc.nextEmit s.enc.s) ∧
      t.enc = { s.enc with d := t.enc.d } ∧ t.ht = s.ht ∧ BlockFrame s t

/-- R103, R113: the remainder, if any byte is pending, is the chunk's last literal; then the next chunk. -/
def Obligations.RemainderIsTheLastLiteral : Prop :=
  ∀ s : State, s.status = .busy → s.phase = .bRemainder → RemainderInv s →
    ∃ t, step s = .next t ∧ t.phase = .eChunk ∧
      Emitted s t
        (if s.enc.nextEmit < s.enc.blkLen then
          literalTag (s.enc.blkLen - s.enc.nextEmit) ++ chunkBytes s s.enc.nextEmit s.enc.blkLen
         else []) ∧
      t.enc = { s.enc with d := t.enc.d, inPos := s.enc.inPos + s.enc.blkLen } ∧ t.ht = s.ht ∧ BlockFrame s t

/-- R99: a match is extended over exactly the bytes that agree: up to the end of the chunk or to the first that
differ. -/
def Obligations.MatchIsExtendedMaximally : Prop :=
  ∀ (s : State) (i p : Nat), i < p → p ≤ s.enc.blkLen → s.enc.inPos + s.enc.blkLen ≤ s.srcLen.toNat →
    ∃ q, s.extendMatch (s.enc.blkLen - p) i p = .ok q ∧ p ≤ q ∧ q ≤ s.enc.blkLen ∧
      (∀ k < q - p, s.chunkByte (i + k) = s.chunkByte (p + k)) ∧
      (q = s.enc.blkLen ∨ s.chunkByte (i + (q - p)) ≠ s.chunkByte q)

/-- R99 to R102: the copy phase emits `EMIT.COPY(base - candidate, p - base)` for the extended match, which ends at `p`
and is at least four bytes long, sets `base`, `s` and `nextEmit`, and ends the block, `HT` untouched, exactly when `p`
is at or beyond `sLimit`. Below it, R102: `p - 1` and `p` are inserted, the entry at `p` read after the first write is
the candidate, equal fingerprints start the next copy at once, else the search resumes at `p + 1`. -/
def Obligations.CopyPhaseEmitsTheMatch : Prop :=
  ∀ s : State, s.status = .busy → s.phase = .bCopy → CopyInv s →
    ∃ (p : Nat) (t : State), step s = .next t ∧ s.enc.s + 4 ≤ p ∧ p ≤ s.enc.blkLen ∧
      (∀ k, s.enc.s ≤ k → k < p → s.chunkByte k = s.chunkByte (k - (s.enc.s - s.enc.candidate))) ∧
      (p = s.enc.blkLen ∨ s.chunkByte p ≠ s.chunkByte (p - (s.enc.s - s.enc.candidate))) ∧
      Emitted s t (copyBytes (s.enc.s - s.enc.candidate) (p - s.enc.s)) ∧
      t.enc.base = s.enc.s ∧ t.enc.nextEmit = p ∧ BlockFrame s t ∧
      (s.enc.sLimit ≤ p →
        t.phase = .bRemainder ∧ t.ht = s.ht ∧
        t.enc = { s.enc with d := t.enc.d, base := s.enc.s, s := p, nextEmit := p }) ∧
      (p < s.enc.sLimit → ∀ prev curr cand,
        prev = hash s.enc.shift (s.fp (p - 1)) → curr = hash s.enc.shift (s.fp p) →
        cand = (if prev = curr then p - 1 else (Table.entry s.ht curr).toNat) →
        (∀ i, Table.entry t.ht i =
          if i = curr then BitVec.ofNat 16 p
          else if i = prev then BitVec.ofNat 16 (p - 1) else Table.entry s.ht i) ∧
        (if s.fp p = s.fp cand then
          t.phase = .bCopy ∧
          t.enc = { s.enc with d := t.enc.d, base := s.enc.s, s := p, nextEmit := p, candidate := cand }
         else
          t.phase = .bSearch ∧
          t.enc =
            { s.enc with
              d := t.enc.d, base := s.enc.s, nextEmit := p, candidate := cand, s := p + 1, nextS := p + 1,
              skip := 32, nextHash := hash s.enc.shift (s.fp (p + 1)) }))

/-- R102, R41: re-insertion writes `s - 1` before it reads the entry at `s`: when both hash alike the candidate is
`s - 1`, else what the entry held; equal fingerprints start the next copy at once, else the search resumes at
`s + 1`. -/
def Obligations.ReinsertionReadsAfterItsWrite : Prop :=
  ∀ (s : State) (prev curr cand : Nat), BlockInv s → TableBelow s s.enc.s → 1 ≤ s.enc.s → s.enc.s < s.enc.sLimit →
    prev = hash s.enc.shift (s.fp (s.enc.s - 1)) → curr = hash s.enc.shift (s.fp s.enc.s) →
    cand = (if prev = curr then s.enc.s - 1 else (Table.entry s.ht curr).toNat) →
    ∃ t, blockReinsert s = .ok t ∧ t.enc.candidate = cand ∧
      (∀ i, Table.entry t.ht i =
        if i = curr then BitVec.ofNat 16 s.enc.s
        else if i = prev then BitVec.ofNat 16 (s.enc.s - 1) else Table.entry s.ht i) ∧
      (if s.fp s.enc.s = s.fp cand then t.phase = .bCopy ∧ t.enc = { s.enc with candidate := cand }
       else t.phase = .bSearch ∧
        t.enc =
          { s.enc with
            candidate := cand, s := s.enc.s + 1, nextS := s.enc.s + 1, skip := 32,
            nextHash := hash s.enc.shift (s.fp (s.enc.s + 1)) }) ∧
      t.dst = s.dst ∧ BlockFrame s t

/-- R106, R120: which phase a step of a running command may leave. -/
def Obligations.PhasesFollowTheRules : Prop :=
  ∀ s t : State, s.status = .busy → step s = .next t → t.status = .busy → follows s.phase t.phase = true

/-! ## Errors, registers, host -/

/-- R152, R115: which errors a step of each phase may raise; the encoder raises none after COMPRESS has begun. -/
def Obligations.ErrorsOnlyWhereListed : Prop :=
  ∀ s t : State, s.status = .busy → step s = .next t → t.status = .error → mayRaise s.phase t.err = true

/-- R151: `raise K` writes `ERR`, `OUT_LEN` and `STATUS`, saves nothing, and leaves the CORE quiescent: no later step
changes anything. `raise` is COMPRESS's and DECOMPRESS's, and of `DST[0 : DST_CAP]` after it nothing is said (R157).
`raiseQuiet` is MAXLEN's and a bad command's and keeps all of `DST`: R111 and R63 against R157's wider words, the
model's choice (log 6). That the working registers, `HT` and the phase stay after either is its choice too (log 17). -/
def Obligations.RaiseStopsTheCommand : Prop :=
  ∀ (s : State) (k : ErrKind),
    s.raiseQuiet k = { s with err := k, outLen := 0, status := .error } ∧
    Raised k s (s.raise k) ∧ (s.raise k).dec = s.dec ∧ (s.raise k).phase = s.phase ∧
    (∀ n, Leads n (s.raise k) (s.raise k)) ∧ ∀ n, Leads n (s.raiseQuiet k) (s.raiseQuiet k)

/-- R63, R15, R155: a `CMD` write while quiescent clears `ERR` and `OUT_LEN` and makes the CORE BUSY, and the next step
runs the command written; a value that is no command ends in ERROR with `BadCommand` and touches no memory. The latch
`cmd` and the phase `cStart` are the model's (logs 1 and 2), `DST` kept on a bad value is its choice between R63 and
R157 (log 6), and so are the working registers (log 17). -/
def Obligations.CmdWriteStartsTheCommand : Prop :=
  ∀ (s : State) (v : Word), Quiescent s →
    (∀ i, (v = 1 ∧ i = .compress) ∨ (v = 2 ∧ i = .decompress) ∨ (v = 3 ∧ i = .maxlen) →
      s.writeCsr .cmd v =
        { s with cmd := v, status := .busy, err := .noError, outLen := 0, phase := .cStart } ∧
      step (s.writeCsr .cmd v) = exec i (s.writeCsr .cmd v)) ∧
    (v ≠ 1 → v ≠ 2 → v ≠ 3 → ∀ t, t = s.writeCsr .cmd v →
      t.status = .error ∧ t.err = .badCommand ∧ t.outLen = 0 ∧ t.src = s.src ∧ t.dst = s.dst ∧ t.ht = s.ht ∧
      t.dstUnspec = s.dstUnspec ∧ t.srcLen = s.srcLen ∧ t.dstCap = s.dstCap ∧ t.enc = s.enc ∧ t.dec = s.dec)

/-- R11: the CSRs' numbers, the command codes, what each CSR reads as, what a write of each does, what they hold after
reset, and that the CORE never modifies `SRC_LEN` or `DST_CAP`. -/
def Obligations.CsrFile : Prop :=
  (∀ s : State,
    s.readCsr .cmd = 0 ∧
    (s.readCsr .status).toNat =
      (match s.status with | .idle => 0 | .busy => 1 | .done => 2 | .error => 3) ∧
    (s.readCsr .err).toNat =
      (match s.err with
        | .noError => 0 | .corrupt => 1 | .tooLarge => 2 | .unsupportedLiteralLength => 3 | .inputTooLarge => 4
        | .dstTooSmall => 5 | .badCommand => 6) ∧
    s.readCsr .srcLen = s.srcLen ∧ s.readCsr .dstCap = s.dstCap ∧ s.readCsr .outLen = s.outLen) ∧
  (∀ (s : State) (v : Word),
    s.writeCsr .status v = s ∧ s.writeCsr .err v = s ∧ s.writeCsr .outLen v = s ∧
    (s.status = .busy → ∀ c, s.writeCsr c v = s) ∧
    (Quiescent s → s.writeCsr .srcLen v = { s with srcLen := v } ∧
      s.writeCsr .dstCap v = { s with dstCap := v } ∧
      (v ≠ 1 → v ≠ 2 → v ≠ 3 → (s.writeCsr .cmd v).err = .badCommand))) ∧
  (∀ c, State.reset.readCsr c = 0) ∧
  (∀ s t : State, step s = .next t → t.srcLen = s.srcLen ∧ t.dstCap = s.dstCap) ∧
  (decodeCommand 1#32 = .ok .compress ∧ decodeCommand 2#32 = .ok .decompress ∧ decodeCommand 3#32 = .ok .maxlen) ∧
  (Csr.ofNumber 0 = some .cmd ∧ Csr.ofNumber 1 = some .status ∧ Csr.ofNumber 2 = some .err ∧
    Csr.ofNumber 3 = some .srcLen ∧ Csr.ofNumber 4 = some .dstCap ∧ Csr.ofNumber 5 = some .outLen ∧
    ∀ n, 6 ≤ n → Csr.ofNumber n = none)

/-- R20, R170: reset, at power-on or applied to any state, leaves IDLE, no error, no result, both lengths 0, and nothing
runs until `CMD` is written. The working registers, the memories and the phase are unspecified there; what the model
puts in them is its own choice (logs 3 to 5) and is not stated. -/
def Obligations.ResetValues : Prop :=
  ∀ s t : State, t = State.reset ∨ t = s.applyReset →
    t.status = .idle ∧ t.err = .noError ∧ t.outLen = 0 ∧ t.srcLen = 0 ∧ t.dstCap = 0 ∧ t.readCsr .cmd = 0 ∧
    ∀ k, Leads k t t

/-- R23, U4 (log 10): while BUSY the model gives the host no access to `SRC` or `DST`; while quiescent a byte written to
`SRC` reads back, no other changes, and a read of `DST` gives its byte. -/
def Obligations.HostAccessOnlyWhileQuiescent : Prop :=
  ∀ (s : State) (a : Word) (b : Byte),
    (s.status = .busy →
      s.hostWriteSrc a b = .error (.refused .hostAccessWhileBusy) ∧
      s.hostReadDst a = .error (.refused .hostAccessWhileBusy)) ∧
    (Quiescent s →
      s.hostReadDst a = .ok (s.dstByte a.toNat) ∧
      ∃ t, s.hostWriteSrc a b = .ok t ∧ t.srcByte a.toNat = b ∧
        (∀ x, x ≠ a.toNat → t.srcByte x = s.srcByte x) ∧ t = { s with src := t.src })

/-- R15: `STATUS`, `ERR` and `OUT_LEN` under a step: a running command keeps BUSY with no error and no result, or ends
in DONE with no error, or in ERROR with an error and no result. -/
def Obligations.StatusChangesOnlyByRule : Prop :=
  ∀ s t : State, s.status = .busy → s.err = .noError → s.outLen = 0 → step s = .next t →
    (t.status = .busy ∧ t.err = .noError ∧ t.outLen = 0) ∨
    (t.status = .done ∧ t.err = .noError) ∨
    (t.status = .error ∧ t.err ≠ .noError ∧ t.outLen = 0)

/-! ## Whole-machine rules -/

/-- R12, R11: no step writes `SRC`, `SRC_LEN`, `DST_CAP`, the latched command or the parameter. -/
def Obligations.StepsKeepTheInputs : Prop :=
  ∀ s t : State, step s = .next t → SameInputs s t

/-- R13, R34 (b): no step changes a byte of `DST` at or beyond `DST_CAP`. -/
def Obligations.StepsWriteBelowCapacity : Prop :=
  ∀ (s t : State) (a : Nat), step s = .next t → s.dstCap.toNat ≤ a → t.dstByte a = s.dstByte a

/-- R14, R17, R2: neither direction writes or reads the other's state. A decoding step leaves `HT` and the encoder's
registers as they are, and whatever they hold it answers the same but for them; an encoding step and the start of a
command do so by the decoder's registers. -/
def Obligations.DirectionsShareNoState : Prop :=
  (∀ s t : State, s.status = .busy → step s = .next t →
    (isDecoding s.phase = true → t.ht = s.ht ∧ t.enc = s.enc) ∧
    (isDecoding s.phase = false → t.dec = s.dec)) ∧
  (∀ (s : State) (ht : Table) (enc : EncRegs), s.status = .busy → isDecoding s.phase = true →
    step { s with ht := ht, enc := enc } = withEncoder ht enc (step s)) ∧
  ∀ (s : State) (dec : DecRegs), s.status = .busy → isDecoding s.phase = false →
    step { s with dec := dec } = withDecoder dec (step s)

/-- R13, R135 (c): while a command runs, its output cursor never moves back, the bytes below it stay, and a step writes
between the old and the new cursor only. -/
def Obligations.OutputGrowsUpward : Prop :=
  ∀ s t : State, Inv s → s.status = .busy → step s = .next t → t.status = .busy →
    (s.phase = .dFetch ∨ s.phase = .dLit ∨ s.phase = .dCopy →
      s.dec.d ≤ t.dec.d ∧ ∀ a, a < s.dec.d ∨ t.dec.d ≤ a → t.dstByte a = s.dstByte a) ∧
    (isDecoding s.phase = false → s.phase ≠ .cStart →
      s.enc.d ≤ t.enc.d ∧ ∀ a, a < s.enc.d ∨ t.enc.d ≤ a → t.dstByte a = s.dstByte a)

/-- The invariant of Safety.lean holds at reset (R20; the values it is checked at are those of logs 3 to 5 where R20
gives none). -/
def Obligations.InvariantAtReset : Prop := Inv State.reset

/-- R105, R107, R120, R15: every step keeps the invariant. -/
def Obligations.StepKeepsInvariant : Prop := ∀ s t : State, Inv s → step s = .next t → Inv t

/-- Every host move keeps the invariant (R11, R15, R23, R170). -/
def Obligations.HostMovesKeepInvariant : Prop :=
  ∀ (s t : State) (m : HostMove), Inv s → hostMove m s = .next t → Inv t

/-- R34, R105 (e), R107, R135 (b): from a state that meets the invariant no step stops: no access is ever out of
bounds, no emitter is called outside its domain, nothing is refused. -/
def Obligations.NoStepStops : Prop := ∀ s : State, Inv s → ∃ t, step s = .next t

/-- R16, R17, R180: every working register keeps to its width. -/
def Obligations.RegistersKeepTheirWidth : Prop :=
  ∀ s t : State, Inv s → RegistersFit s → step s = .next t → RegistersFit t

/-! ## Whole commands -/

/-- R181, R106, R135 (a): every running command ends. -/
def Obligations.EveryCommandEnds : Prop :=
  ∀ s : State, Inv s → ∃ k t, Leads k s t ∧ Quiescent t

/-- R115, R107: COMPRESS with `DST_CAP >= BOUND(SRC_LEN)` ends in DONE, its output no longer than the bound. -/
def Obligations.CompressMeetsTheBound : Prop :=
  ∀ s : State, Inv s → Quiescent s → 32 + s.srcLen.toNat + s.srcLen.toNat / 6 ≤ s.dstCap.toNat →
    ∃ t, CommandEnds 1 s t ∧ t.status = .done ∧ t.err = .noError ∧
      1 ≤ t.outLen.toNat ∧ t.outLen.toNat ≤ 32 + s.srcLen.toNat + s.srcLen.toNat / 6

/-- R114, R116: the empty input compresses to the single byte `00`, an input of 1 to 16 bytes to its header byte and
one `LIT.S`. -/
def Obligations.ShortInputsAreOneLiteral : Prop :=
  ∀ (s : State) (n : Nat), Quiescent s → n = s.srcLen.toNat → n ≤ 16 → 32 + n + n / 6 ≤ s.dstCap.toNat →
    ∃ t, CommandEnds 1 s t ∧ t.status = .done ∧ t.dstByte 0 = BitVec.ofNat 8 n ∧
      (n = 0 → t.outLen = 1) ∧
      (1 ≤ n → t.outLen.toNat = n + 2 ∧ t.dstByte 1 = BitVec.ofNat 8 (4 * (n - 1)) ∧
        ∀ k < n, t.dstByte (2 + k) = s.srcByte k)

/-- R117: the end-to-end law. COMPRESS ends in DONE, and DECOMPRESS of its output, in any CORE whose `SRC` holds it,
ends in DONE with the original bytes. -/
def Obligations.DecompressOfCompress : Prop :=
  ∀ s : State, Inv s → Quiescent s → s.srcLen.toNat ≤ 3681400511 →
    32 + s.srcLen.toNat + s.srcLen.toNat / 6 ≤ s.dstCap.toNat →
    ∃ t, CommandEnds 1 s t ∧ t.status = .done ∧
      ∀ u : State, Inv u → Quiescent u → u.srcLen = t.outLen →
        (∀ a < t.outLen.toNat, u.srcByte a = t.dstByte a) → s.srcLen.toNat ≤ u.dstCap.toNat →
        (u.params.size31 = false ∨ s.srcLen.toNat ≤ 0x7FFFFFFF) →
        ∃ v, CommandEnds 2 u v ∧ v.status = .done ∧ v.outLen = s.srcLen ∧
          ∀ a < s.srcLen.toNat, v.dstByte a = s.srcByte a

/-- R135 (e): a stream that DECOMPRESS accepts, cut short by one byte or more, ends in ERROR. -/
def Obligations.TruncatedStreamFails : Prop :=
  ∀ (s t u : State), Inv s → Quiescent s → CommandEnds 2 s t → t.status = .done →
    Inv u → Quiescent u → u.params = s.params → u.dstCap = s.dstCap → u.srcLen.toNat < s.srcLen.toNat →
    (∀ a < u.srcLen.toNat, u.srcByte a = s.srcByte a) →
    ∃ v, CommandEnds 2 u v ∧ v.status = .error

/-- R22, R171, R12, R135 (d): a command's outcome depends on `SRC[0 : SRC_LEN]`, the argument registers and the
parameter alone: not on `HT`, a working register, old bytes of `DST`, or `SRC` beyond `SRC_LEN`. -/
def Obligations.OutcomeDependsOnInputAlone : Prop :=
  ∀ (s u t : State) (v : Word), Inv s → Inv u → Quiescent s → Quiescent u → SameArguments s u →
    CommandEnds v s t →
    ∃ w, CommandEnds v u w ∧ SameResult t w ∧
      ((v = 1 ∨ v = 2) → t.status = .done → ∀ a < t.outLen.toNat, w.dstByte a = t.dstByte a)
end

