-- ==== Sys2Proof/Laws/Memory.lean ====
section
/-! SUPPORT. The laws of the sparse memories: a read after a write, a read after forgetting a range, and that every
operation keeps the canonical form. -/

namespace Sys2Proof.Machine

variable {β : Type}

/-! ## One cell -/

@[simp] theorem Cells.find_nil (a : Nat) : Cells.find ([] : List (Nat × β)) a = none := rfl

@[simp] theorem Cells.find_put_same (m : List (Nat × β)) (a : Nat) (b : β) :
    Cells.find (Cells.put m a b) a = some b := by
  induction m with
  | nil => simp [Cells.put, Cells.find]
  | cons c m ih =>
    obtain ⟨k, v⟩ := c
    simp only [Cells.put]
    split
    · simp [Cells.find]
    · split
      · simp [Cells.find]
      · simp [Cells.find, *]

theorem Cells.find_put_other (m : List (Nat × β)) {a a' : Nat} (b : β) (h : a' ≠ a) :
    Cells.find (Cells.put m a b) a' = Cells.find m a' := by
  induction m with
  | nil => simp [Cells.put, Cells.find, h]
  | cons c m ih =>
    obtain ⟨k, v⟩ := c
    simp only [Cells.put]
    split
    · simp [Cells.find, h]
    · split
      · rename_i hk
        simp [Cells.find, h, ← hk]
      · simp only [Cells.find, ih]

theorem Cells.find_put (m : List (Nat × β)) (a a' : Nat) (b : β) :
    Cells.find (Cells.put m a b) a' = if a' = a then some b else Cells.find m a' := by
  split
  · next h => rw [h, Cells.find_put_same]
  · next h => exact Cells.find_put_other m b h

theorem Cells.find_drop (m : List (Nat × β)) (lo hi a : Nat) :
    Cells.find (Cells.drop m lo hi) a = if lo ≤ a ∧ a < hi then none else Cells.find m a := by
  induction m with
  | nil => simp [Cells.drop, Cells.find]
  | cons c m ih =>
    obtain ⟨k, v⟩ := c
    have hd : Cells.drop ((k, v) :: m) lo hi =
        if lo ≤ k ∧ k < hi then Cells.drop m lo hi else (k, v) :: Cells.drop m lo hi := by
      by_cases h : lo ≤ k ∧ k < hi
      · simp [Cells.drop, h.1, h.2]
      · simp only [Cells.drop, List.filter_cons, h, if_false]
        rw [if_pos (by simp only [Bool.not_eq_true', Bool.and_eq_false_imp, decide_eq_true_eq, decide_eq_false_iff_not]; omega)]
    rw [hd]
    by_cases hk : lo ≤ k ∧ k < hi
    · rw [if_pos hk, ih]
      split
      · rfl
      · next ha =>
        have : a ≠ k := by rintro rfl; exact ha hk
        simp [Cells.find, this]
    · rw [if_neg hk]
      simp only [Cells.find, ih]
      by_cases ha : a = k
      · subst ha; simp [hk]
      · simp [ha]

/-! ## Membership and order -/

theorem Cells.mem_put {m : List (Nat × β)} {a : Nat} {b : β} {c : Nat × β} (h : c ∈ Cells.put m a b) :
    c = (a, b) ∨ c ∈ m := by
  induction m with
  | nil => simpa [Cells.put] using h
  | cons x m ih =>
    obtain ⟨k, v⟩ := x
    simp only [Cells.put] at h
    split at h
    · simpa using h
    · split at h
      · rcases List.mem_cons.1 h with h | h
        · exact .inl h
        · exact .inr (List.mem_cons_of_mem _ h)
      · rcases List.mem_cons.1 h with h | h
        · exact .inr (by simp [h])
        · exact (ih h).imp_right (List.mem_cons_of_mem _)

theorem Cells.mem_drop {m : List (Nat × β)} {lo hi : Nat} {c : Nat × β} (h : c ∈ Cells.drop m lo hi) : c ∈ m :=
  (List.mem_filter.1 h).1

theorem Cells.mem_of_find {m : List (Nat × β)} {a : Nat} {b : β} (h : Cells.find m a = some b) : (a, b) ∈ m := by
  induction m with
  | nil => simp at h
  | cons x m ih =>
    obtain ⟨k, v⟩ := x
    simp only [Cells.find] at h
    split at h
    · next hk => simp_all
    · exact List.mem_cons_of_mem _ (ih h)

theorem Cells.rising_put {m : List (Nat × β)} (h : Cells.rising m) (a : Nat) (b : β) :
    Cells.rising (Cells.put m a b) := by
  induction m with
  | nil => simp [Cells.put]
  | cons x m ih =>
    obtain ⟨k, v⟩ := x
    obtain ⟨hk, hm⟩ := List.pairwise_cons.1 h
    simp only [Cells.put]
    split
    · next hak =>
      refine List.pairwise_cons.2 ⟨fun c hc => ?_, h⟩
      rcases List.mem_cons.1 hc with rfl | hc
      · exact hak
      · exact lt_trans hak (hk c hc)
    · split
      · next hak => subst hak; exact List.pairwise_cons.2 ⟨hk, hm⟩
      · refine List.pairwise_cons.2 ⟨fun c hc => ?_, ih hm⟩
        rcases Cells.mem_put hc with rfl | hc
        · show k < a; omega
        · exact hk c hc

theorem Cells.rising_drop {m : List (Nat × β)} (h : Cells.rising m) (lo hi : Nat) :
    Cells.rising (Cells.drop m lo hi) :=
  h.sublist List.filter_sublist

/-! ## `SRC` and `DST` -/

theorem Memory.wf_nil : Memory.wf [] := ⟨List.Pairwise.nil, by simp⟩

theorem Memory.wf_put {m : Memory} (h : Memory.wf m) {a : Nat} (ha : a < 2 ^ 32) (b : Byte) :
    Memory.wf (Cells.put m a b) := by
  refine ⟨Cells.rising_put h.1 a b, fun c hc => ?_⟩
  rcases Cells.mem_put hc with rfl | hc
  · exact ha
  · exact h.2 c hc

theorem Memory.wf_drop {m : Memory} (h : Memory.wf m) (lo hi : Nat) : Memory.wf (Cells.drop m lo hi) :=
  ⟨Cells.rising_drop h.1 lo hi, fun c hc => h.2 c (Cells.mem_drop hc)⟩

theorem Memory.wf_putBytes {m : Memory} (h : Memory.wf m) (a : Nat) (bytes : List Byte)
    (ha : a + bytes.length ≤ 2 ^ 32) : Memory.wf (Memory.putBytes m a bytes) := by
  induction bytes generalizing m a with
  | nil => exact h
  | cons b bs ih =>
    simp only [List.length_cons] at ha
    exact ih (Memory.wf_put h (by omega) b) (a + 1) (by omega)

/-- Everything a group write does: the bytes at their addresses, nothing else. -/
theorem Memory.find_putBytes (m : Memory) (a : Nat) (bytes : List Byte) (x : Nat) :
    Cells.find (Memory.putBytes m a bytes) x =
      if h : a ≤ x ∧ x < a + bytes.length then some (bytes[x - a]'(by omega)) else Cells.find m x := by
  induction bytes generalizing m a with
  | nil =>
    have h : ¬(a ≤ x ∧ x < a + ([] : List Byte).length) := by simp
    rw [dif_neg h]
    rfl
  | cons b bs ih =>
    simp only [Memory.putBytes, ih, List.length_cons]
    by_cases hx : x = a
    · subst hx
      rw [dif_neg (by omega), dif_pos (by omega), Cells.find_put_same]
      simp
    · by_cases h : a + 1 ≤ x ∧ x < a + 1 + bs.length
      · rw [dif_pos h, dif_pos (by omega)]
        obtain ⟨j, rfl⟩ : ∃ j, x = a + 1 + j := ⟨x - (a + 1), by omega⟩
        have e1 : a + 1 + j - (a + 1) = j := by omega
        have e2 : a + 1 + j - a = j + 1 := by omega
        simp only [e1, e2, List.getElem_cons_succ]
      · rw [dif_neg h, dif_neg (by omega), Cells.find_put_other _ _ hx]

/-! ## `HT` -/

theorem Table.wf_nil : Table.wf [] := ⟨List.Pairwise.nil, by simp⟩

theorem Table.wf_put {t : Table} (h : Table.wf t) {i : Nat} (hi : i < Config.maxTableSize) (v : BitVec 16) :
    Table.wf (Table.put t i v) := by
  unfold Table.put
  split
  · exact ⟨Cells.rising_drop h.1 _ _, fun c hc => h.2 c (Cells.mem_drop hc)⟩
  · next hv =>
    refine ⟨Cells.rising_put h.1 i v, fun c hc => ?_⟩
    rcases Cells.mem_put hc with rfl | hc
    · exact ⟨hi, hv⟩
    · exact h.2 c hc

theorem Table.wf_clear {t : Table} (h : Table.wf t) (n : Nat) : Table.wf (Table.clear t n) :=
  ⟨Cells.rising_drop h.1 _ _, fun c hc => h.2 c (Cells.mem_drop hc)⟩

@[simp] theorem Table.entry_nil (i : Nat) : Table.entry [] i = 0 := rfl

/-- A read after a write of one entry. -/
theorem Table.entry_put (t : Table) (i j : Nat) (v : BitVec 16) :
    Table.entry (Table.put t i v) j = if j = i then v else Table.entry t j := by
  unfold Table.put Table.entry
  split
  · next hv =>
    rw [Cells.find_drop]
    by_cases hj : j = i
    · rw [if_pos (by omega), if_pos hj, hv]; rfl
    · rw [if_neg (by omega), if_neg hj]
  · rw [Cells.find_put]
    split <;> rfl

/-- Cleared entries read 0, the others are unchanged (R94). -/
theorem Table.entry_clear (t : Table) (n j : Nat) :
    Table.entry (Table.clear t n) j = if j < n then 0 else Table.entry t j := by
  unfold Table.clear Table.entry
  rw [Cells.find_drop]
  by_cases hj : j < n
  · rw [if_pos (by omega), if_pos hj]; rfl
  · rw [if_neg (by omega), if_neg hj]

/-! ## Byte order -/

/-- `n` bytes form a number below `256 ^ n` (R31). -/
theorem leNat_lt (bytes : List Byte) : leNat bytes < 256 ^ bytes.length := by
  induction bytes with
  | nil => simp [leNat]
  | cons b bs ih =>
    have hb := b.isLt
    simp only [leNat, List.length_cons, pow_succ]
    omega

end Sys2Proof.Machine
end

