-- ==== Sys2Proof/Laws/State.lean ====
section
/-! SUPPORT. What each named update of State leaves in each field: one lemma per field per update, true by rfl, so that
no later proof unfolds a record update. -/

namespace Sys2Proof.Machine

variable (s : State)

/-! ## setPhase -/

@[simp] theorem State.setPhase_params (p : Phase) : (s.setPhase p).params = s.params := rfl
@[simp] theorem State.setPhase_cmd (p : Phase) : (s.setPhase p).cmd = s.cmd := rfl
@[simp] theorem State.setPhase_status (p : Phase) : (s.setPhase p).status = s.status := rfl
@[simp] theorem State.setPhase_err (p : Phase) : (s.setPhase p).err = s.err := rfl
@[simp] theorem State.setPhase_srcLen (p : Phase) : (s.setPhase p).srcLen = s.srcLen := rfl
@[simp] theorem State.setPhase_dstCap (p : Phase) : (s.setPhase p).dstCap = s.dstCap := rfl
@[simp] theorem State.setPhase_outLen (p : Phase) : (s.setPhase p).outLen = s.outLen := rfl
@[simp] theorem State.setPhase_src (p : Phase) : (s.setPhase p).src = s.src := rfl
@[simp] theorem State.setPhase_dst (p : Phase) : (s.setPhase p).dst = s.dst := rfl
@[simp] theorem State.setPhase_ht (p : Phase) : (s.setPhase p).ht = s.ht := rfl
@[simp] theorem State.setPhase_enc (p : Phase) : (s.setPhase p).enc = s.enc := rfl
@[simp] theorem State.setPhase_dec (p : Phase) : (s.setPhase p).dec = s.dec := rfl
@[simp] theorem State.setPhase_phase (p : Phase) : (s.setPhase p).phase = p := rfl
@[simp] theorem State.setPhase_resets (p : Phase) : (s.setPhase p).resets = s.resets := rfl
@[simp] theorem State.setPhase_dstUnspec (p : Phase) : (s.setPhase p).dstUnspec = s.dstUnspec := rfl

/-! ## setEnc -/

@[simp] theorem State.setEnc_params (e : EncRegs) : (s.setEnc e).params = s.params := rfl
@[simp] theorem State.setEnc_cmd (e : EncRegs) : (s.setEnc e).cmd = s.cmd := rfl
@[simp] theorem State.setEnc_status (e : EncRegs) : (s.setEnc e).status = s.status := rfl
@[simp] theorem State.setEnc_err (e : EncRegs) : (s.setEnc e).err = s.err := rfl
@[simp] theorem State.setEnc_srcLen (e : EncRegs) : (s.setEnc e).srcLen = s.srcLen := rfl
@[simp] theorem State.setEnc_dstCap (e : EncRegs) : (s.setEnc e).dstCap = s.dstCap := rfl
@[simp] theorem State.setEnc_outLen (e : EncRegs) : (s.setEnc e).outLen = s.outLen := rfl
@[simp] theorem State.setEnc_src (e : EncRegs) : (s.setEnc e).src = s.src := rfl
@[simp] theorem State.setEnc_dst (e : EncRegs) : (s.setEnc e).dst = s.dst := rfl
@[simp] theorem State.setEnc_ht (e : EncRegs) : (s.setEnc e).ht = s.ht := rfl
@[simp] theorem State.setEnc_enc (e : EncRegs) : (s.setEnc e).enc = e := rfl
@[simp] theorem State.setEnc_dec (e : EncRegs) : (s.setEnc e).dec = s.dec := rfl
@[simp] theorem State.setEnc_phase (e : EncRegs) : (s.setEnc e).phase = s.phase := rfl
@[simp] theorem State.setEnc_resets (e : EncRegs) : (s.setEnc e).resets = s.resets := rfl
@[simp] theorem State.setEnc_dstUnspec (e : EncRegs) : (s.setEnc e).dstUnspec = s.dstUnspec := rfl

/-! ## setDec -/

@[simp] theorem State.setDec_params (r : DecRegs) : (s.setDec r).params = s.params := rfl
@[simp] theorem State.setDec_cmd (r : DecRegs) : (s.setDec r).cmd = s.cmd := rfl
@[simp] theorem State.setDec_status (r : DecRegs) : (s.setDec r).status = s.status := rfl
@[simp] theorem State.setDec_err (r : DecRegs) : (s.setDec r).err = s.err := rfl
@[simp] theorem State.setDec_srcLen (r : DecRegs) : (s.setDec r).srcLen = s.srcLen := rfl
@[simp] theorem State.setDec_dstCap (r : DecRegs) : (s.setDec r).dstCap = s.dstCap := rfl
@[simp] theorem State.setDec_outLen (r : DecRegs) : (s.setDec r).outLen = s.outLen := rfl
@[simp] theorem State.setDec_src (r : DecRegs) : (s.setDec r).src = s.src := rfl
@[simp] theorem State.setDec_dst (r : DecRegs) : (s.setDec r).dst = s.dst := rfl
@[simp] theorem State.setDec_ht (r : DecRegs) : (s.setDec r).ht = s.ht := rfl
@[simp] theorem State.setDec_enc (r : DecRegs) : (s.setDec r).enc = s.enc := rfl
@[simp] theorem State.setDec_dec (r : DecRegs) : (s.setDec r).dec = r := rfl
@[simp] theorem State.setDec_phase (r : DecRegs) : (s.setDec r).phase = s.phase := rfl
@[simp] theorem State.setDec_resets (r : DecRegs) : (s.setDec r).resets = s.resets := rfl
@[simp] theorem State.setDec_dstUnspec (r : DecRegs) : (s.setDec r).dstUnspec = s.dstUnspec := rfl

/-! ## setDst -/

@[simp] theorem State.setDst_params (m : Memory) : (s.setDst m).params = s.params := rfl
@[simp] theorem State.setDst_cmd (m : Memory) : (s.setDst m).cmd = s.cmd := rfl
@[simp] theorem State.setDst_status (m : Memory) : (s.setDst m).status = s.status := rfl
@[simp] theorem State.setDst_err (m : Memory) : (s.setDst m).err = s.err := rfl
@[simp] theorem State.setDst_srcLen (m : Memory) : (s.setDst m).srcLen = s.srcLen := rfl
@[simp] theorem State.setDst_dstCap (m : Memory) : (s.setDst m).dstCap = s.dstCap := rfl
@[simp] theorem State.setDst_outLen (m : Memory) : (s.setDst m).outLen = s.outLen := rfl
@[simp] theorem State.setDst_src (m : Memory) : (s.setDst m).src = s.src := rfl
@[simp] theorem State.setDst_dst (m : Memory) : (s.setDst m).dst = m := rfl
@[simp] theorem State.setDst_ht (m : Memory) : (s.setDst m).ht = s.ht := rfl
@[simp] theorem State.setDst_enc (m : Memory) : (s.setDst m).enc = s.enc := rfl
@[simp] theorem State.setDst_dec (m : Memory) : (s.setDst m).dec = s.dec := rfl
@[simp] theorem State.setDst_phase (m : Memory) : (s.setDst m).phase = s.phase := rfl
@[simp] theorem State.setDst_resets (m : Memory) : (s.setDst m).resets = s.resets := rfl
@[simp] theorem State.setDst_dstUnspec (m : Memory) : (s.setDst m).dstUnspec = s.dstUnspec := rfl

/-! ## setHt -/

@[simp] theorem State.setHt_params (t : Table) : (s.setHt t).params = s.params := rfl
@[simp] theorem State.setHt_cmd (t : Table) : (s.setHt t).cmd = s.cmd := rfl
@[simp] theorem State.setHt_status (t : Table) : (s.setHt t).status = s.status := rfl
@[simp] theorem State.setHt_err (t : Table) : (s.setHt t).err = s.err := rfl
@[simp] theorem State.setHt_srcLen (t : Table) : (s.setHt t).srcLen = s.srcLen := rfl
@[simp] theorem State.setHt_dstCap (t : Table) : (s.setHt t).dstCap = s.dstCap := rfl
@[simp] theorem State.setHt_outLen (t : Table) : (s.setHt t).outLen = s.outLen := rfl
@[simp] theorem State.setHt_src (t : Table) : (s.setHt t).src = s.src := rfl
@[simp] theorem State.setHt_dst (t : Table) : (s.setHt t).dst = s.dst := rfl
@[simp] theorem State.setHt_ht (t : Table) : (s.setHt t).ht = t := rfl
@[simp] theorem State.setHt_enc (t : Table) : (s.setHt t).enc = s.enc := rfl
@[simp] theorem State.setHt_dec (t : Table) : (s.setHt t).dec = s.dec := rfl
@[simp] theorem State.setHt_phase (t : Table) : (s.setHt t).phase = s.phase := rfl
@[simp] theorem State.setHt_resets (t : Table) : (s.setHt t).resets = s.resets := rfl
@[simp] theorem State.setHt_dstUnspec (t : Table) : (s.setHt t).dstUnspec = s.dstUnspec := rfl

/-! ## raiseQuiet -/

@[simp] theorem State.raiseQuiet_params (k : ErrKind) : (s.raiseQuiet k).params = s.params := rfl
@[simp] theorem State.raiseQuiet_cmd (k : ErrKind) : (s.raiseQuiet k).cmd = s.cmd := rfl
@[simp] theorem State.raiseQuiet_status (k : ErrKind) : (s.raiseQuiet k).status = .error := rfl
@[simp] theorem State.raiseQuiet_err (k : ErrKind) : (s.raiseQuiet k).err = k := rfl
@[simp] theorem State.raiseQuiet_srcLen (k : ErrKind) : (s.raiseQuiet k).srcLen = s.srcLen := rfl
@[simp] theorem State.raiseQuiet_dstCap (k : ErrKind) : (s.raiseQuiet k).dstCap = s.dstCap := rfl
@[simp] theorem State.raiseQuiet_outLen (k : ErrKind) : (s.raiseQuiet k).outLen = 0 := rfl
@[simp] theorem State.raiseQuiet_src (k : ErrKind) : (s.raiseQuiet k).src = s.src := rfl
@[simp] theorem State.raiseQuiet_dst (k : ErrKind) : (s.raiseQuiet k).dst = s.dst := rfl
@[simp] theorem State.raiseQuiet_ht (k : ErrKind) : (s.raiseQuiet k).ht = s.ht := rfl
@[simp] theorem State.raiseQuiet_enc (k : ErrKind) : (s.raiseQuiet k).enc = s.enc := rfl
@[simp] theorem State.raiseQuiet_dec (k : ErrKind) : (s.raiseQuiet k).dec = s.dec := rfl
@[simp] theorem State.raiseQuiet_phase (k : ErrKind) : (s.raiseQuiet k).phase = s.phase := rfl
@[simp] theorem State.raiseQuiet_resets (k : ErrKind) : (s.raiseQuiet k).resets = s.resets := rfl
@[simp] theorem State.raiseQuiet_dstUnspec (k : ErrKind) : (s.raiseQuiet k).dstUnspec = s.dstUnspec := rfl

/-! ## finishQuiet -/

@[simp] theorem State.finishQuiet_params (n : Nat) : (s.finishQuiet n).params = s.params := rfl
@[simp] theorem State.finishQuiet_cmd (n : Nat) : (s.finishQuiet n).cmd = s.cmd := rfl
@[simp] theorem State.finishQuiet_status (n : Nat) : (s.finishQuiet n).status = .done := rfl
@[simp] theorem State.finishQuiet_err (n : Nat) : (s.finishQuiet n).err = s.err := rfl
@[simp] theorem State.finishQuiet_srcLen (n : Nat) : (s.finishQuiet n).srcLen = s.srcLen := rfl
@[simp] theorem State.finishQuiet_dstCap (n : Nat) : (s.finishQuiet n).dstCap = s.dstCap := rfl
@[simp] theorem State.finishQuiet_outLen (n : Nat) : (s.finishQuiet n).outLen = BitVec.ofNat 32 n := rfl
@[simp] theorem State.finishQuiet_src (n : Nat) : (s.finishQuiet n).src = s.src := rfl
@[simp] theorem State.finishQuiet_dst (n : Nat) : (s.finishQuiet n).dst = s.dst := rfl
@[simp] theorem State.finishQuiet_ht (n : Nat) : (s.finishQuiet n).ht = s.ht := rfl
@[simp] theorem State.finishQuiet_enc (n : Nat) : (s.finishQuiet n).enc = s.enc := rfl
@[simp] theorem State.finishQuiet_dec (n : Nat) : (s.finishQuiet n).dec = s.dec := rfl
@[simp] theorem State.finishQuiet_phase (n : Nat) : (s.finishQuiet n).phase = s.phase := rfl
@[simp] theorem State.finishQuiet_resets (n : Nat) : (s.finishQuiet n).resets = s.resets := rfl
@[simp] theorem State.finishQuiet_dstUnspec (n : Nat) : (s.finishQuiet n).dstUnspec = s.dstUnspec := rfl

/-! ## unspecify -/

@[simp] theorem State.unspecify_params (lo hi : Nat) : (s.unspecify lo hi).params = s.params := rfl
@[simp] theorem State.unspecify_cmd (lo hi : Nat) : (s.unspecify lo hi).cmd = s.cmd := rfl
@[simp] theorem State.unspecify_status (lo hi : Nat) : (s.unspecify lo hi).status = s.status := rfl
@[simp] theorem State.unspecify_err (lo hi : Nat) : (s.unspecify lo hi).err = s.err := rfl
@[simp] theorem State.unspecify_srcLen (lo hi : Nat) : (s.unspecify lo hi).srcLen = s.srcLen := rfl
@[simp] theorem State.unspecify_dstCap (lo hi : Nat) : (s.unspecify lo hi).dstCap = s.dstCap := rfl
@[simp] theorem State.unspecify_outLen (lo hi : Nat) : (s.unspecify lo hi).outLen = s.outLen := rfl
@[simp] theorem State.unspecify_src (lo hi : Nat) : (s.unspecify lo hi).src = s.src := rfl
@[simp] theorem State.unspecify_dst (lo hi : Nat) : (s.unspecify lo hi).dst = Cells.drop s.dst lo hi := rfl
@[simp] theorem State.unspecify_ht (lo hi : Nat) : (s.unspecify lo hi).ht = s.ht := rfl
@[simp] theorem State.unspecify_enc (lo hi : Nat) : (s.unspecify lo hi).enc = s.enc := rfl
@[simp] theorem State.unspecify_dec (lo hi : Nat) : (s.unspecify lo hi).dec = s.dec := rfl
@[simp] theorem State.unspecify_phase (lo hi : Nat) : (s.unspecify lo hi).phase = s.phase := rfl
@[simp] theorem State.unspecify_resets (lo hi : Nat) : (s.unspecify lo hi).resets = s.resets := rfl
@[simp] theorem State.unspecify_dstUnspec (lo hi : Nat) : (s.unspecify lo hi).dstUnspec = (lo, hi) :: s.dstUnspec := rfl

/-! ## raise -/

@[simp] theorem State.raise_params (k : ErrKind) : (s.raise k).params = s.params := rfl
@[simp] theorem State.raise_cmd (k : ErrKind) : (s.raise k).cmd = s.cmd := rfl
@[simp] theorem State.raise_status (k : ErrKind) : (s.raise k).status = .error := rfl
@[simp] theorem State.raise_err (k : ErrKind) : (s.raise k).err = k := rfl
@[simp] theorem State.raise_srcLen (k : ErrKind) : (s.raise k).srcLen = s.srcLen := rfl
@[simp] theorem State.raise_dstCap (k : ErrKind) : (s.raise k).dstCap = s.dstCap := rfl
@[simp] theorem State.raise_outLen (k : ErrKind) : (s.raise k).outLen = 0 := rfl
@[simp] theorem State.raise_src (k : ErrKind) : (s.raise k).src = s.src := rfl
@[simp] theorem State.raise_dst (k : ErrKind) : (s.raise k).dst = Cells.drop s.dst 0 s.dstCap.toNat := rfl
@[simp] theorem State.raise_ht (k : ErrKind) : (s.raise k).ht = s.ht := rfl
@[simp] theorem State.raise_enc (k : ErrKind) : (s.raise k).enc = s.enc := rfl
@[simp] theorem State.raise_dec (k : ErrKind) : (s.raise k).dec = s.dec := rfl
@[simp] theorem State.raise_phase (k : ErrKind) : (s.raise k).phase = s.phase := rfl
@[simp] theorem State.raise_resets (k : ErrKind) : (s.raise k).resets = s.resets := rfl
@[simp] theorem State.raise_dstUnspec (k : ErrKind) : (s.raise k).dstUnspec = (0, s.dstCap.toNat) :: s.dstUnspec := rfl

/-! ## finish -/

@[simp] theorem State.finish_params (n : Nat) : (s.finish n).params = s.params := rfl
@[simp] theorem State.finish_cmd (n : Nat) : (s.finish n).cmd = s.cmd := rfl
@[simp] theorem State.finish_status (n : Nat) : (s.finish n).status = .done := rfl
@[simp] theorem State.finish_err (n : Nat) : (s.finish n).err = s.err := rfl
@[simp] theorem State.finish_srcLen (n : Nat) : (s.finish n).srcLen = s.srcLen := rfl
@[simp] theorem State.finish_dstCap (n : Nat) : (s.finish n).dstCap = s.dstCap := rfl
@[simp] theorem State.finish_outLen (n : Nat) : (s.finish n).outLen = BitVec.ofNat 32 n := rfl
@[simp] theorem State.finish_src (n : Nat) : (s.finish n).src = s.src := rfl
@[simp] theorem State.finish_dst (n : Nat) : (s.finish n).dst = Cells.drop s.dst n s.dstCap.toNat := rfl
@[simp] theorem State.finish_ht (n : Nat) : (s.finish n).ht = s.ht := rfl
@[simp] theorem State.finish_enc (n : Nat) : (s.finish n).enc = s.enc := rfl
@[simp] theorem State.finish_dec (n : Nat) : (s.finish n).dec = s.dec := rfl
@[simp] theorem State.finish_phase (n : Nat) : (s.finish n).phase = s.phase := rfl
@[simp] theorem State.finish_resets (n : Nat) : (s.finish n).resets = s.resets := rfl
@[simp] theorem State.finish_dstUnspec (n : Nat) : (s.finish n).dstUnspec = (n, s.dstCap.toNat) :: s.dstUnspec := rfl

/-! ## startCommand -/

@[simp] theorem State.startCommand_params (v : Word) : (s.startCommand v).params = s.params := rfl
@[simp] theorem State.startCommand_cmd (v : Word) : (s.startCommand v).cmd = v := rfl
@[simp] theorem State.startCommand_status (v : Word) : (s.startCommand v).status = .busy := rfl
@[simp] theorem State.startCommand_err (v : Word) : (s.startCommand v).err = .noError := rfl
@[simp] theorem State.startCommand_srcLen (v : Word) : (s.startCommand v).srcLen = s.srcLen := rfl
@[simp] theorem State.startCommand_dstCap (v : Word) : (s.startCommand v).dstCap = s.dstCap := rfl
@[simp] theorem State.startCommand_outLen (v : Word) : (s.startCommand v).outLen = 0 := rfl
@[simp] theorem State.startCommand_src (v : Word) : (s.startCommand v).src = s.src := rfl
@[simp] theorem State.startCommand_dst (v : Word) : (s.startCommand v).dst = s.dst := rfl
@[simp] theorem State.startCommand_ht (v : Word) : (s.startCommand v).ht = s.ht := rfl
@[simp] theorem State.startCommand_enc (v : Word) : (s.startCommand v).enc = s.enc := rfl
@[simp] theorem State.startCommand_dec (v : Word) : (s.startCommand v).dec = s.dec := rfl
@[simp] theorem State.startCommand_phase (v : Word) : (s.startCommand v).phase = .cStart := rfl
@[simp] theorem State.startCommand_resets (v : Word) : (s.startCommand v).resets = s.resets := rfl
@[simp] theorem State.startCommand_dstUnspec (v : Word) : (s.startCommand v).dstUnspec = s.dstUnspec := rfl

/-! ## enterSearch -/

@[simp] theorem State.enterSearch_params : (s.enterSearch).params = s.params := rfl
@[simp] theorem State.enterSearch_cmd : (s.enterSearch).cmd = s.cmd := rfl
@[simp] theorem State.enterSearch_status : (s.enterSearch).status = s.status := rfl
@[simp] theorem State.enterSearch_err : (s.enterSearch).err = s.err := rfl
@[simp] theorem State.enterSearch_srcLen : (s.enterSearch).srcLen = s.srcLen := rfl
@[simp] theorem State.enterSearch_dstCap : (s.enterSearch).dstCap = s.dstCap := rfl
@[simp] theorem State.enterSearch_outLen : (s.enterSearch).outLen = s.outLen := rfl
@[simp] theorem State.enterSearch_src : (s.enterSearch).src = s.src := rfl
@[simp] theorem State.enterSearch_dst : (s.enterSearch).dst = s.dst := rfl
@[simp] theorem State.enterSearch_ht : (s.enterSearch).ht = s.ht := rfl
@[simp] theorem State.enterSearch_enc : (s.enterSearch).enc = { s.enc with skip := 32, nextS := s.enc.s } := rfl
@[simp] theorem State.enterSearch_dec : (s.enterSearch).dec = s.dec := rfl
@[simp] theorem State.enterSearch_phase : (s.enterSearch).phase = .bSearch := rfl
@[simp] theorem State.enterSearch_resets : (s.enterSearch).resets = s.resets := rfl
@[simp] theorem State.enterSearch_dstUnspec : (s.enterSearch).dstUnspec = s.dstUnspec := rfl

/-! ## nextChunk -/

@[simp] theorem State.nextChunk_params : (s.nextChunk).params = s.params := rfl
@[simp] theorem State.nextChunk_cmd : (s.nextChunk).cmd = s.cmd := rfl
@[simp] theorem State.nextChunk_status : (s.nextChunk).status = s.status := rfl
@[simp] theorem State.nextChunk_err : (s.nextChunk).err = s.err := rfl
@[simp] theorem State.nextChunk_srcLen : (s.nextChunk).srcLen = s.srcLen := rfl
@[simp] theorem State.nextChunk_dstCap : (s.nextChunk).dstCap = s.dstCap := rfl
@[simp] theorem State.nextChunk_outLen : (s.nextChunk).outLen = s.outLen := rfl
@[simp] theorem State.nextChunk_src : (s.nextChunk).src = s.src := rfl
@[simp] theorem State.nextChunk_dst : (s.nextChunk).dst = s.dst := rfl
@[simp] theorem State.nextChunk_ht : (s.nextChunk).ht = s.ht := rfl
@[simp] theorem State.nextChunk_enc : (s.nextChunk).enc = { s.enc with inPos := s.enc.inPos + s.enc.blkLen } := rfl
@[simp] theorem State.nextChunk_dec : (s.nextChunk).dec = s.dec := rfl
@[simp] theorem State.nextChunk_phase : (s.nextChunk).phase = .eChunk := rfl
@[simp] theorem State.nextChunk_resets : (s.nextChunk).resets = s.resets := rfl
@[simp] theorem State.nextChunk_dstUnspec : (s.nextChunk).dstUnspec = s.dstUnspec := rfl

end Sys2Proof.Machine
end

