-- ==== Sys2Proof/Laws/Ops.lean ====
section
/-! SUPPORT. One lemma per shared operation that says everything it can do; the meanings' lemmas cite these. -/

namespace Sys2Proof.Machine

/-! ## Outcomes -/

@[simp] theorem Run.outcome_ok (s : State) : Run.outcome (.ok s) = .next s := rfl

theorem Run.outcome_eq_next {r : Run} {t : State} : r.outcome = .next t ↔ r = .ok t := by
  unfold Run.outcome
  split <;> simp

/-! ## Reads of `SRC` -/

@[simp] theorem State.srcBytes_length (s : State) (a n : Nat) : (s.srcBytes a n).length = n := by
  induction n generalizing a with
  | zero => rfl
  | succ n ih => simp [State.srcBytes, ih]

@[simp] theorem State.getElem_srcBytes (s : State) (a n i : Nat) (h : i < (s.srcBytes a n).length) :
    (s.srcBytes a n)[i] = s.srcByte (a + i) := by
  induction n generalizing a i with
  | zero => simp at h
  | succ n ih =>
    cases i with
    | zero => simp [State.srcBytes]
    | succ i =>
      simp only [State.srcBytes, List.getElem_cons_succ]
      rw [ih (a + 1) i (by simpa using h), show a + 1 + i = a + (i + 1) by omega]

theorem State.readSrc_eq_ok {s : State} {a n : Nat} {bytes : List Byte} :
    s.readSrc a n = .ok bytes ↔ a + n ≤ s.srcLen.toNat ∧ bytes = s.srcBytes a n := by
  unfold State.readSrc
  split <;> simp [*, eq_comm]

theorem State.readChunk_eq_ok {s : State} {p : Nat} {b : Byte} :
    s.readChunk p = .ok b ↔ (p < s.enc.blkLen ∧ s.enc.inPos + p < s.srcLen.toNat) ∧ b = s.chunkByte p := by
  unfold State.readChunk
  split <;> simp [*, eq_comm]

theorem State.fingerprint_eq_ok {s : State} {p : Nat} {u : Word} :
    s.fingerprint p = .ok u ↔
      (p + 4 ≤ s.enc.blkLen ∧ s.enc.inPos + p + 4 ≤ s.srcLen.toNat) ∧ u = s.fp p := by
  unfold State.fingerprint
  split <;> simp [*, eq_comm]

theorem State.hashAt_eq_ok {s : State} {p h : Nat} :
    s.hashAt p = .ok h ↔
      (p + 4 ≤ s.enc.blkLen ∧ s.enc.inPos + p + 4 ≤ s.srcLen.toNat) ∧ h = hash s.enc.shift (s.fp p) := by
  unfold State.hashAt State.fingerprint
  split
  · next hb => simp [bind, Except.bind, hb, eq_comm]
  · next hb => simp [bind, Except.bind, hb]

/-! ## `DST` -/

theorem State.writeDst_eq_ok {s t : State} {a : Nat} {bytes : List Byte} :
    s.writeDst a bytes = .ok t ↔
      a + bytes.length ≤ s.dstCap.toNat ∧ t = s.setDst (Memory.putBytes s.dst a bytes) := by
  unfold State.writeDst
  split <;> simp [*, eq_comm]

/-- A written byte reads as written, every other byte as before. -/
theorem State.dstByte_putBytes (s : State) (a : Nat) (bytes : List Byte) (x : Nat) :
    (s.setDst (Memory.putBytes s.dst a bytes)).dstByte x =
      if h : a ≤ x ∧ x < a + bytes.length then bytes[x - a]'(by omega) else s.dstByte x := by
  unfold State.dstByte
  rw [State.setDst_dst, Memory.find_putBytes]
  split <;> rfl

theorem State.dstByte_put (s : State) (a : Nat) (b : Byte) (x : Nat) :
    (s.setDst (Cells.put s.dst a b)).dstByte x = if x = a then b else s.dstByte x := by
  unfold State.dstByte
  rw [State.setDst_dst, Cells.find_put]
  split <;> rfl

/-- The copy loop writes `DST` and nothing else. -/
theorem State.copyLoop_eq_setDst (s : State) (offset d n : Nat) :
    s.copyLoop offset d n = s.setDst (s.copyLoop offset d n).dst := by
  induction n generalizing s d with
  | zero => rfl
  | succ n ih =>
    simp only [State.copyLoop]
    rw [ih]
    rfl

/-- Below its first output byte and from its end on, the copy loop changes nothing (R130 to R132). -/
theorem State.copyLoop_outside (s : State) (offset d n x : Nat) (h : x < d ∨ d + n ≤ x) :
    (s.copyLoop offset d n).dstByte x = s.dstByte x := by
  induction n generalizing s d with
  | zero => rfl
  | succ n ih =>
    simp only [State.copyLoop]
    rw [ih _ _ (by omega), State.dstByte_put, if_neg (by omega)]

theorem State.expandCopy_eq_ok {s t : State} {offset d n : Nat} :
    s.expandCopy offset d n = .ok t ↔ d + n ≤ s.dstCap.toNat ∧ t = s.copyLoop offset d n := by
  unfold State.expandCopy
  split <;> simp [*, eq_comm]

/-- Outside the range left unspecified every byte reads as before (R13). -/
theorem State.dstByte_unspecify (s : State) (lo hi x : Nat) (h : x < lo ∨ hi ≤ x) :
    (s.unspecify lo hi).dstByte x = s.dstByte x := by
  have hr : ¬(lo ≤ x ∧ x < hi) := by omega
  unfold State.dstByte State.dstEpoch
  simp only [State.unspecify_dst, State.unspecify_resets, State.unspecify_dstUnspec, Cells.find_drop, if_neg hr]
  rw [List.filter_cons_of_neg (by simpa using hr)]

/-- After an error the bytes of `DST` at or beyond `DST_CAP` read as before (R13, R157). -/
theorem State.dstByte_raise (s : State) (k : ErrKind) (x : Nat) (h : s.dstCap.toNat ≤ x) :
    (s.raise k).dstByte x = s.dstByte x :=
  (s.raiseQuiet k).dstByte_unspecify 0 s.dstCap.toNat x (.inr h)

/-- After a completed command the result and the bytes at or beyond `DST_CAP` read as before (R13). -/
theorem State.dstByte_finish (s : State) (n x : Nat) (h : x < n ∨ s.dstCap.toNat ≤ x) :
    (s.finish n).dstByte x = s.dstByte x :=
  (s.finishQuiet n).dstByte_unspecify n s.dstCap.toNat x h

/-! ## `HT` -/

theorem State.readHt_eq_ok {s : State} {h p : Nat} :
    s.readHt h = .ok p ↔ h < Config.maxTableSize ∧ p = (Table.entry s.ht h).toNat := by
  unfold State.readHt
  split <;> simp [*, eq_comm]

theorem State.writeHt_eq_ok {s t : State} {h p : Nat} :
    s.writeHt h p = .ok t ↔
      h < Config.maxTableSize ∧ t = s.setHt (Table.put s.ht h (BitVec.ofNat 16 p)) := by
  unfold State.writeHt
  split <;> simp [*, eq_comm]

/-! ## The canonical form is kept -/

theorem State.writeDst_wf {s t : State} {a : Nat} {bytes : List Byte} (h : s.writeDst a bytes = .ok t)
    (hw : Memory.wf s.dst) : Memory.wf t.dst := by
  obtain ⟨hc, rfl⟩ := State.writeDst_eq_ok.1 h
  have := s.dstCap.isLt
  exact Memory.wf_putBytes hw a bytes (by omega)

theorem State.copyLoop_wf (s : State) (offset d n : Nat) (hd : d + n ≤ 2 ^ 32) (hw : Memory.wf s.dst) :
    Memory.wf (s.copyLoop offset d n).dst := by
  induction n generalizing s d with
  | zero => exact hw
  | succ n ih => exact ih _ (d + 1) (by omega) (Memory.wf_put hw (by omega) _)

theorem State.expandCopy_wf {s t : State} {offset d n : Nat} (h : s.expandCopy offset d n = .ok t)
    (hw : Memory.wf s.dst) : Memory.wf t.dst := by
  obtain ⟨hc, rfl⟩ := State.expandCopy_eq_ok.1 h
  have := s.dstCap.isLt
  exact s.copyLoop_wf offset d n (by omega) hw

theorem State.unspecify_wf (s : State) (lo hi : Nat) (hw : Memory.wf s.dst) : Memory.wf (s.unspecify lo hi).dst :=
  Memory.wf_drop hw lo hi

theorem State.writeHt_wf {s t : State} {h p : Nat} (e : s.writeHt h p = .ok t) (hw : Table.wf s.ht) :
    Table.wf t.ht := by
  obtain ⟨hh, rfl⟩ := State.writeHt_eq_ok.1 e
  exact Table.wf_put hw hh _

/-- Reset's memories are in canonical form. -/
theorem State.reset_wf : Memory.wf State.reset.src ∧ Memory.wf State.reset.dst ∧ Table.wf State.reset.ht :=
  ⟨Memory.wf_nil, Memory.wf_nil, Table.wf_nil⟩

end Sys2Proof.Machine
end

