-- ==== Sys2Proof/Laws/Meanings.lean ====
section
/-! SUPPORT. One inversion lemma per shared part of a meaning (if it answers a state, then one of these), and the
inversion of a step. -/

namespace Sys2Proof.Machine

/-! ## Sequencing -/

theorem Except.bind_eq_ok {ε α β : Type} {x : Except ε α} {f : α → Except ε β} {b : β} :
    (x >>= f) = .ok b ↔ ∃ a, x = .ok a ∧ f a = .ok b := by
  cases x <;> simp [bind, Except.bind]

/-! ## Literals and copies -/

/-- A literal that was fetched raises, or copies its payload and moves both cursors (R126). -/
theorem literalBody_cases {s t : State} (h : literalBody s = .ok t) :
    t = s.raise .unsupportedLiteralLength ∨
    (0 < s.dec.length ∧ s.dec.length ≤ s.dec.destLen - s.dec.d ∧ s.dec.length ≤ s.dec.bodyLen - s.dec.s ∧
      s.dec.hdrLen + s.dec.s + s.dec.length ≤ s.srcLen.toNat ∧ s.dec.d + s.dec.length ≤ s.dstCap.toNat ∧
      t = ((s.setDst (Memory.putBytes s.dst s.dec.d (s.srcBytes (s.dec.hdrLen + s.dec.s) s.dec.length))).setDec
        { s.dec with d := s.dec.d + s.dec.length, s := s.dec.s + s.dec.length }).setPhase .dFetch) := by
  unfold literalBody at h
  dsimp only at h
  split at h
  · exact .inl (Except.ok.inj h).symm
  split at h
  · exact .inl (Except.ok.inj h).symm
  split at h
  · exact .inl (Except.ok.inj h).symm
  obtain ⟨payload, hp, h⟩ := Except.bind_eq_ok.1 h
  obtain ⟨u, hu, h⟩ := Except.bind_eq_ok.1 h
  obtain ⟨hs, rfl⟩ := State.readSrc_eq_ok.1 hp
  obtain ⟨hd, rfl⟩ := State.writeDst_eq_ok.1 hu
  rw [State.srcBytes_length] at hd
  exact .inr ⟨by omega, by omega, by omega, hs, hd, (Except.ok.inj h).symm⟩

/-- A literal none of whose tests fails completes (R126). -/
theorem literalBody_ok {s : State} (h0 : 0 < s.dec.length) (h1 : s.dec.length ≤ s.dec.destLen - s.dec.d)
    (h2 : s.dec.length ≤ s.dec.bodyLen - s.dec.s)
    (h3 : s.dec.hdrLen + s.dec.s + s.dec.length ≤ s.srcLen.toNat)
    (h4 : s.dec.d + s.dec.length ≤ s.dstCap.toNat) :
    literalBody s = .ok
      (((s.setDst (Memory.putBytes s.dst s.dec.d (s.srcBytes (s.dec.hdrLen + s.dec.s) s.dec.length))).setDec
        { s.dec with d := s.dec.d + s.dec.length, s := s.dec.s + s.dec.length }).setPhase .dFetch) := by
  unfold literalBody
  dsimp only
  rw [if_neg (by omega), if_neg (by omega), if_neg (by omega), State.readSrc_eq_ok.2 ⟨h3, rfl⟩]
  simp only [bind, Except.bind]
  rw [State.writeDst_eq_ok.2 ⟨by rw [State.srcBytes_length]; exact h4, rfl⟩]

/-- A copy that was fetched raises, or expands and moves the output cursor (R130 to R133). -/
theorem copyBody_cases {s t : State} (h : copyBody s = .ok t) :
    t = s.raise .corrupt ∨
    (0 < s.dec.offset ∧ s.dec.offset ≤ s.dec.d ∧ s.dec.length ≤ s.dec.destLen - s.dec.d ∧
      s.dec.d + s.dec.length ≤ s.dstCap.toNat ∧
      t = ((s.copyLoop s.dec.offset s.dec.d s.dec.length).setDec
        { s.dec with d := s.dec.d + s.dec.length }).setPhase .dFetch) := by
  unfold copyBody at h
  dsimp only at h
  split at h
  · exact .inl (Except.ok.inj h).symm
  split at h
  · exact .inl (Except.ok.inj h).symm
  split at h
  · exact .inl (Except.ok.inj h).symm
  obtain ⟨u, hu, h⟩ := Except.bind_eq_ok.1 h
  obtain ⟨hd, rfl⟩ := State.expandCopy_eq_ok.1 hu
  exact .inr ⟨by omega, by omega, by omega, hd, (Except.ok.inj h).symm⟩

/-! ## Emitters -/

/-- Everything an emission does: the bytes at the cursor, the cursor past them. -/
theorem State.emit_eq_ok {s t : State} {bytes : List Byte} :
    s.emit bytes = .ok t ↔
      s.enc.d + bytes.length ≤ s.dstCap.toNat ∧
      t = (s.setDst (Memory.putBytes s.dst s.enc.d bytes)).setEnc
        { s.enc with d := s.enc.d + bytes.length } := by
  unfold State.emit
  rw [Except.bind_eq_ok]
  constructor
  · rintro ⟨u, hu, h⟩
    obtain ⟨hd, rfl⟩ := State.writeDst_eq_ok.1 hu
    exact ⟨hd, (Except.ok.inj h).symm⟩
  · rintro ⟨hd, rfl⟩
    exact ⟨_, State.writeDst_eq_ok.2 ⟨hd, rfl⟩, rfl⟩

/-- `EMIT.LIT` inside its domain is one emission of tag and payload (R80). -/
theorem emitLit_eq_ok {a n : Nat} {s t : State} :
    emitLit a n s = .ok t ↔
      (1 ≤ n ∧ n ≤ 65536) ∧ a + n ≤ s.srcLen.toNat ∧ s.emit (literalTag n ++ s.srcBytes a n) = .ok t := by
  unfold emitLit
  split
  · next h => simp only [reduceCtorEq, false_iff]; omega
  · next h =>
    rw [Except.bind_eq_ok]
    constructor
    · rintro ⟨p, hp, ht⟩
      obtain ⟨hs, rfl⟩ := State.readSrc_eq_ok.1 hp
      exact ⟨by omega, hs, ht⟩
    · rintro ⟨-, hs, ht⟩
      exact ⟨_, State.readSrc_eq_ok.2 ⟨hs, rfl⟩, ht⟩

/-- `EMIT.COPY` inside its domain is one emission of its tokens (R81). -/
theorem emitCopy_eq_ok {offset length : Nat} {s t : State} :
    emitCopy offset length s = .ok t ↔
      (4 ≤ length ∧ 1 ≤ offset ∧ offset ≤ 65535) ∧ s.emit (copyBytes offset length) = .ok t := by
  unfold emitCopy
  split
  · next h => simp only [reduceCtorEq, false_iff]; omega
  · next h =>
    refine ⟨fun ht => ⟨by omega, ht⟩, fun ht => ht.2⟩

/-! ## The block encoder -/

/-- One probe either ends the block before it touches the table, or reads the entry, overwrites it and verifies
(R96, R41). -/
theorem blockSearch_cases {s t : State} (h : blockSearch s = .ok t) :
    (s.enc.nextS + s.enc.skip >>> 5 > s.enc.sLimit ∧
      t = (s.setEnc
        { s.enc with
          s := s.enc.nextS, nextS := s.enc.nextS + s.enc.skip >>> 5,
          skip := s.enc.skip + s.enc.skip >>> 5 }).setPhase .bRemainder) ∨
    (s.enc.nextS + s.enc.skip >>> 5 ≤ s.enc.sLimit ∧ s.enc.nextHash < Config.maxTableSize ∧
      ∃ cand fs fc, cand = (Table.entry s.ht s.enc.nextHash).toNat ∧ fs = s.fp s.enc.nextS ∧ fc = s.fp cand ∧
        t = ((s.setHt (Table.put s.ht s.enc.nextHash (BitVec.ofNat 16 s.enc.nextS))).setEnc
          { s.enc with
            s := s.enc.nextS, nextS := s.enc.nextS + s.enc.skip >>> 5, skip := s.enc.skip + s.enc.skip >>> 5,
            candidate := cand,
            nextHash := hash s.enc.shift (s.fp (s.enc.nextS + s.enc.skip >>> 5)) }).setPhase
            (if fs = fc then .bMatch else .bSearch)) := by
  unfold blockSearch at h
  dsimp only at h
  split at h
  · next hl => exact .inl ⟨hl, (Except.ok.inj h).symm⟩
  · next hl =>
    obtain ⟨cand, hc, h⟩ := Except.bind_eq_ok.1 h
    obtain ⟨u, hu, h⟩ := Except.bind_eq_ok.1 h
    obtain ⟨nh, hnh, h⟩ := Except.bind_eq_ok.1 h
    obtain ⟨fs, hfs, h⟩ := Except.bind_eq_ok.1 h
    obtain ⟨fc, hfc, h⟩ := Except.bind_eq_ok.1 h
    obtain ⟨hi, rfl⟩ := State.readHt_eq_ok.1 hc
    obtain ⟨-, rfl⟩ := State.writeHt_eq_ok.1 hu
    obtain ⟨-, rfl⟩ := State.hashAt_eq_ok.1 hnh
    obtain ⟨-, rfl⟩ := State.fingerprint_eq_ok.1 hfs
    obtain ⟨-, rfl⟩ := State.fingerprint_eq_ok.1 hfc
    exact .inr ⟨by omega, hi, _, _, _, rfl, rfl, rfl, (Except.ok.inj h).symm⟩

/-! ## A step -/

/-- Everything a step can be: nothing while quiescent, the decoded instruction, a rejected code, or a phase's work. -/
theorem step_cases {s t : State} (h : step s = .next t) :
    (s.status ≠ .busy ∧ t = s) ∨
    (s.status = .busy ∧
      ((∃ c i, s.work = .instruction c ∧ decode c = .ok i ∧ exec i s = .next t) ∨
       (∃ c e, s.work = .instruction c ∧ decode c = .error e ∧ rejectCode e s = .ok t) ∨
       (∃ r, s.work = .phaseRun r ∧ r = .ok t))) := by
  unfold step at h
  split at h
  · next hb =>
    refine .inr ⟨hb, ?_⟩
    split at h
    · next c hw =>
      split at h
      · next i hd => exact .inl ⟨c, i, hw, hd, h⟩
      · next e hd => exact .inr (.inl ⟨c, e, hw, hd, Run.outcome_eq_next.1 h⟩)
    · next r hw => exact .inr (.inr ⟨r, hw, Run.outcome_eq_next.1 h⟩)
  · next hb => exact .inl ⟨hb, (Host.Outcome.next.inj h).symm⟩

/-- A quiescent CORE does nothing (R158). -/
theorem step_quiescent {s : State} (h : s.status ≠ .busy) : step s = .next s := if_neg h

/-! ## Host moves -/

/-- While BUSY a CSR write is ignored (R11). -/
theorem State.writeCsr_busy {s : State} (h : s.status = .busy) (c : Csr) (v : Word) : s.writeCsr c v = s := if_pos h

end Sys2Proof.Machine
end

