-- ==== Sys2Proof/Laws/PerInstr.lean ====
section
/-! SUPPORT. A family of lemmas, one per constructor: a well-formed instruction's encoding has the number of bytes R58
gives it before any payload. -/

namespace Sys2Proof.Laws.EncodedSize

/-- The bytes of the encoding are as many as `headBytes` says (R51, R53 to R58). -/
def Statement (i : Instr) : Prop := i.wellFormed = true → (encode i).bytes.length = i.headBytes

/-- A varint of a given length has that many bytes (R51). -/
theorem encodeVarint_length (n v : Nat) : (encodeVarint n v).length = n := by
  fun_induction encodeVarint n v with
  | case1 => rfl
  | case2 => rfl
  | case3 v n ih => simp [ih]

theorem litS (m : BitVec 6) : Statement (.litS m) := fun _ => rfl

theorem lit1 (m : BitVec 8) : Statement (.lit1 m) := fun _ => rfl

theorem lit2 (m : BitVec 16) : Statement (.lit2 m) := fun _ => rfl

theorem lit3 (m : BitVec 24) : Statement (.lit3 m) := fun _ => rfl

theorem lit4 (m : BitVec 32) : Statement (.lit4 m) := fun _ => rfl

theorem copy1 (l : BitVec 3) (offset : BitVec 11) : Statement (.copy1 l offset) := fun _ => rfl

theorem copy2 (l : BitVec 6) (offset : BitVec 16) : Statement (.copy2 l offset) := fun _ => rfl

theorem copy4 (l : BitVec 6) (offset : BitVec 32) : Statement (.copy4 l offset) := fun _ => rfl

theorem hdr (value len : Nat) : Statement (.hdr value len) := fun _ => encodeVarint_length len value

theorem compress : Statement .compress := fun _ => rfl

theorem decompress : Statement .decompress := fun _ => rfl

theorem maxlen : Statement .maxlen := fun _ => rfl

end Sys2Proof.Laws.EncodedSize
end

