-- ==== Sys2Proof/Tests/Slice0.lean ====
section
/-! SUPPORT. Tests: ill-formed terms the checks refuse, words written out from the spec's encodings, one step on small
states with the results of spec/95_test_vectors.md, and for each statement with hypotheses a witness that meets them. -/

namespace Sys2Proof.Tests

open Sys2Proof.Machine Sys2Proof.Safety Sys2Proof.Claims

/-! ## Helpers -/

/-- The next state, if there is one. -/
def nextOf : Host.Outcome State Fault Refusal → Option State
  | .next t => some t
  | .fault _ => none
  | .refused _ => none

theorem eq_next_of_nextOf {o : Host.Outcome State Fault Refusal} {t : State} (h : nextOf o = some t) :
    o = .next t := by
  cases o <;> simp_all [nextOf]

/-- A next state with a decidable property, from one evaluation. -/
theorem exists_next {o : Host.Outcome State Fault Refusal} {P : State → Prop} [DecidablePred P]
    (h : (nextOf o).any (fun t => decide (P t)) = true) : ∃ t, o = .next t ∧ P t := by
  cases ho : nextOf o with
  | none => simp [ho] at h
  | some t => exact ⟨t, eq_next_of_nextOf ho, by simpa [ho] using h⟩

def bytes (l : List Nat) : List Byte := l.map (BitVec.ofNat 8)

/-- A memory holding the bytes from index 0 on. -/
def mem (l : List Nat) : Memory := Memory.putBytes [] 0 (bytes l)

/-- A quiescent CORE with an input and a capacity. -/
def ready (src : List Nat) (cap : Nat) : State :=
  { State.reset with src := mem src, srcLen := BitVec.ofNat 32 src.length, dstCap := BitVec.ofNat 32 cap }

/-- The same, running in a phase. -/
def running (p : Phase) (src : List Nat) (cap : Nat) : State :=
  { ready src cap with status := .busy, phase := p }

/-- The decoder about to fetch: the stream, its header's length and value, the cursor, the output so far. -/
def decoding (src : List Nat) (hdrLen destLen s : Nat) (out : List Nat) (cap : Nat) : State :=
  { running .dFetch src cap with
    dst := mem out
    dec := ⟨hdrLen, destLen, src.length - hdrLen, s, out.length, 0, 0⟩ }

/-- The output of a state as numbers. -/
def output (s : State) (n : Nat) : List Nat := (List.range n).map fun a => (s.dstByte a).toNat

/-! ## Well-formedness refuses -/

theorem test_illFormed_litS_of_long_tag : (Instr.litS 60#6).wellFormed = false := by decide
theorem test_illFormed_hdr_no_byte : (Instr.hdr 0 0).wellFormed = false := by decide
theorem test_illFormed_hdr_eleven_bytes : (Instr.hdr 0 11).wellFormed = false := by decide
theorem test_illFormed_hdr_value_too_wide : (Instr.hdr 128 1).wellFormed = false := by decide

/-! ## Words written out from R51, R53 to R57, R63 -/

/-- R53: `m = 3` in bits 7:2, `00` in bits 1:0. -/
theorem test_decode_litS : decodeToken [0b00001100#8] = .ok (.litS 3#6) := by decide
/-- R54: tag 60 in bits 7:2. -/
theorem test_decode_lit1 : decodeToken [0b11110000#8, 0x3C#8] = .ok (.lit1 60#8) := by decide
/-- R54: tag 61; low byte first. -/
theorem test_decode_lit2 : decodeToken [0b11110100#8, 0xFE#8, 0xFF#8] = .ok (.lit2 65534#16) := by decide
/-- R54: tag 62. -/
theorem test_decode_lit3 : decodeToken [0b11111000#8, 1#8, 0#8, 2#8] = .ok (.lit3 131073#24) := by decide
/-- R54: tag 63. -/
theorem test_decode_lit4 : decodeToken [0b11111100#8, 1#8, 0#8, 0#8, 2#8] = .ok (.lit4 0x02000001#32) := by decide
/-- R55: offset[10:8] = 001 in bits 7:5, length - 4 = 011 in bits 4:2 (V-EC: `2d 00` is COPY1 256, 7). -/
theorem test_decode_copy1 : decodeToken [0b00101101#8, 0x00#8] = .ok (.copy1 3#3 256#11) := by decide
/-- R56: length - 1 = 63 in bits 7:2 (V-EC: `fe f0 ff` is COPY2 65520, 64). -/
theorem test_decode_copy2 : decodeToken [0b11111110#8, 0xF0#8, 0xFF#8] = .ok (.copy2 63#6 65520#16) := by decide
/-- R57 (V-BD: COPY4 of offset 0x80000001). -/
theorem test_decode_copy4 : decodeToken [0b00000011#8, 1#8, 0#8, 0#8, 0x80#8] = .ok (.copy4 0#6 0x80000001#32) := by
  decide
/-- V-HD: `ff ff ff ff 0f` is 4294967295 in 5 bytes. -/
theorem test_decode_hdr : decodeHeader (bytes [0xFF, 0xFF, 0xFF, 0xFF, 0x0F, 0x00]) = .ok (.hdr 4294967295 5) := by
  decide
/-- V-HD: ten bytes `80 ... 01` is 2^63. -/
theorem test_decode_hdr_ten_bytes :
    decodeHeader (bytes [0x80, 0x80, 0x80, 0x80, 0x80, 0x80, 0x80, 0x80, 0x80, 0x01]) = .ok (.hdr (2 ^ 63) 10) := by
  decide
/-- V-HD: ten bytes with bit 7 set, and the input ending. -/
theorem test_decode_hdr_malformed :
    decodeHeader (bytes [0x80, 0x80, 0x80, 0x80, 0x80, 0x80, 0x80, 0x80, 0x80, 0x80, 0x00]) = .error .headerTooLong ∧
    decodeHeader (bytes [0x80]) = .error .headerEnds := by decide
/-- R63: 1, 2, 3 are commands, `0x00000101` is none (V-ST). -/
theorem test_decode_commands :
    decodeCommand 1#32 = .ok .compress ∧ decodeCommand 2#32 = .ok .decompress ∧
    decodeCommand 3#32 = .ok .maxlen ∧ decodeCommand 0x101#32 = .error .badCommand := by decide
/-- V-BD `01 f4 00`: the second length byte is missing. -/
theorem test_decode_truncated : decodeToken (bytes [0xF4, 0x00]) = .error .truncatedToken := by decide
/-- The table's numbering: a tag byte alone, a command, ten header bytes. -/
theorem test_tableWord :
    decodeTableWord 8 0xF4 = some (.lit2 0#16) ∧ decodeTableWord 8 0xE1 = some (.copy1 0#3 1792#11) ∧
    decodeTableWord 32 2 = some .decompress ∧ decodeTableWord 32 4 = none ∧
    decodeTableWord 80 0x02AC = some (.hdr 300 2) := by decide

/-! ## One step per instruction -/

/-- P1: `LIT.S "A"`. -/
theorem test_litS : (nextOf (step (decoding [6, 0x00, 0x41, 5, 1] 1 6 0 [] 6))).any
    (fun t => output t 1 == [0x41] && t.dec.s == 2 && t.dec.d == 1) = true := by decide
/-- V-BD `06 00`: the payload is missing. -/
theorem test_litS_overrun : (nextOf (step (decoding [6, 0x00] 1 6 0 [] 6))).any
    (fun t => t.err == .unsupportedLiteralLength && t.status == .error) = true := by decide
/-- P3: `LIT.1 "012345"`. -/
theorem test_lit1 : (nextOf (step (decoding [0x0A, 0xF0, 5, 0x30, 0x31, 0x32, 0x33, 0x34, 0x35] 1 10 0 [] 10))).any
    (fun t => output t 6 == [0x30, 0x31, 0x32, 0x33, 0x34, 0x35] && t.dec.s == 8) = true := by decide
/-- V-BD `06 f0`: Corrupt, not UnsupportedLiteralLength (R153). -/
theorem test_lit1_truncated : (nextOf (step (decoding [6, 0xF0] 1 6 0 [] 6))).any
    (fun t => t.err == .corrupt) = true := by decide
/-- V-BD `01 f4 00 00 41`. -/
theorem test_lit2 : (nextOf (step (decoding [1, 0xF4, 0, 0, 0x41] 1 1 0 [] 1))).any
    (fun t => output t 1 == [0x41] && t.dec.s == 4) = true := by decide
/-- V-BD `04 f8 03 00 00 41 42 43 44`. -/
theorem test_lit3 : (nextOf (step (decoding [4, 0xF8, 3, 0, 0, 0x41, 0x42, 0x43, 0x44] 1 4 0 [] 4))).any
    (fun t => output t 4 == [0x41, 0x42, 0x43, 0x44] && t.dec.s == 8) = true := by decide
/-- V-BD `01 fc 00 00 00 00 41`. -/
theorem test_lit4 : (nextOf (step (decoding [1, 0xFC, 0, 0, 0, 0, 0x41] 1 1 0 [] 1))).any
    (fun t => output t 1 == [0x41] && t.dec.s == 6) = true := by decide
/-- V-BD `01 fc ff ff ff ff`: length 2^32. -/
theorem test_lit4_longest : (nextOf (step (decoding [1, 0xFC, 255, 255, 255, 255] 1 1 0 [] 1))).any
    (fun t => t.err == .unsupportedLiteralLength) = true := by decide
/-- P1: `COPY1 1, 5` repeats the preceding byte five times. -/
theorem test_copy1 : (nextOf (step (decoding [6, 0x00, 0x41, 5, 1] 1 6 2 [0x41] 6))).any
    (fun t => output t 6 == [0x41, 0x41, 0x41, 0x41, 0x41, 0x41] && t.dec.s == 4 && t.dec.d == 6) = true := by decide
/-- V-BD `05 00 41 09 02`: offset 2 > d = 1. -/
theorem test_copy1_offset_too_far : (nextOf (step (decoding [5, 0x00, 0x41, 9, 2] 1 5 2 [0x41] 5))).any
    (fun t => t.err == .corrupt) = true := by decide
/-- P2: `COPY2 4, 8` on `"abcd"`. -/
theorem test_copy2 : (nextOf (step (decoding [12, 0x1E, 4, 0] 1 12 0 [0x61, 0x62, 0x63, 0x64] 12))).any
    (fun t => output t 12 == [0x61, 0x62, 0x63, 0x64, 0x61, 0x62, 0x63, 0x64, 0x61, 0x62, 0x63, 0x64]) = true := by
  decide
/-- P3: `COPY4 6, 3` on `"012345"`. -/
theorem test_copy4 :
    (nextOf (step (decoding [10, 0x0B, 6, 0, 0, 0] 1 10 0 [0x30, 0x31, 0x32, 0x33, 0x34, 0x35] 10))).any
    (fun t => output t 9 == [0x30, 0x31, 0x32, 0x33, 0x34, 0x35, 0x30, 0x31, 0x32]) = true := by decide
/-- V-HD: `80 00` is accepted, two bytes. -/
theorem test_hdr : (nextOf (step (running .hDec [0x80, 0x00] 0))).any
    (fun t => t.dec.destLen == 0 && t.dec.hdrLen == 2 && t.phase == .dInit) = true := by decide
/-- V-HD: `80 80 80 80 08` with SIZE31. -/
theorem test_hdr_tooLarge :
    (nextOf (step { running .hDec [0x80, 0x80, 0x80, 0x80, 0x08] 0 with params := ⟨true⟩ })).any
    (fun t => t.err == .tooLarge) = true := by decide
/-- V-TE: MAXLEN of 81 is 126, of 3681400512 is InputTooLarge. -/
theorem test_maxlen :
    (nextOf (exec .maxlen { State.reset with status := .busy, srcLen := 81 })).any
      (fun t => t.outLen == 126 && t.status == .done) = true ∧
    (nextOf (exec .maxlen { State.reset with status := .busy, srcLen := 3681400512#32 })).any
      (fun t => t.outLen == 0 && t.err == .inputTooLarge) = true := by decide
/-- V-TE: COMPRESS of 20 bytes with capacity 55 writes the header `14`, with 54 it is DstTooSmall. -/
theorem test_compress :
    (nextOf (exec .compress { running .cStart [] 55 with srcLen := 20 })).any
      (fun t => output t 1 == [0x14] && t.enc.d == 1 && t.phase == .eChunk) = true ∧
    (nextOf (exec .compress { running .cStart [] 54 with srcLen := 20 })).any
      (fun t => t.err == .dstTooSmall && t.outLen == 0) = true := by decide
/-- R140: the header comes first. -/
theorem test_decompress : (nextOf (step ((ready [0x06, 0x00] 6).writeCsr .cmd 2))).any
    (fun t => t.phase == .hDec && t.status == .busy) = true := by decide
/-- V-ST: `CMD <- 4` ends in ERROR with code 6. -/
theorem test_badCommand : ((State.reset.writeCsr .cmd 4).readCsr .status = 3) ∧
    ((State.reset.writeCsr .cmd 4).readCsr .err = 6) := by decide

/-! ## The encoder's parts -/

/-- V-EC: 64 + 60 + 7, the largest COPY1, the smallest offset that needs COPY2. -/
theorem test_copyBytes :
    copyBytes 5 131 = bytes [0xFE, 5, 0, 0xEE, 5, 0, 0x0D, 5] ∧ copyBytes 2047 11 = bytes [0xFD, 0xFF] ∧
    copyBytes 2048 4 = bytes [0x0E, 0, 8] ∧ copyBytes 5 68 = bytes [0xFE, 5, 0, 1, 5] := by decide
/-- V-EL: the tiers' edges. -/
theorem test_literalTag :
    literalTag 60 = bytes [0xEC] ∧ literalTag 61 = bytes [0xF0, 0x3C] ∧ literalTag 256 = bytes [0xF0, 0xFF] ∧
    literalTag 257 = bytes [0xF4, 0, 1] ∧ literalTag 65536 = bytes [0xF4, 0xFF, 0xFF] := by decide
/-- V-HD. -/
theorem test_hdrEnc : hdrEnc 70000 = bytes [0xF0, 0xA2, 0x04] ∧
    hdrEnc 0xFFFFFFFF = bytes [0xFF, 0xFF, 0xFF, 0xFF, 0x0F] ∧ hdrEnc 0 = bytes [0] := by decide
/-- V-BE2: `"he q"` and the carry out of the product. -/
theorem test_hash : hash 24 0x71206568 = 213 ∧ hash 18 0xFFFFFFFF = 14450 ∧ hash 20 0x01000000 = 3024 := by decide

/-- `"abcd"` five times (P4). -/
def abcd5 : List Nat :=
  [0x61, 0x62, 0x63, 0x64, 0x61, 0x62, 0x63, 0x64, 0x61, 0x62, 0x63, 0x64, 0x61, 0x62, 0x63, 0x64, 0x61, 0x62, 0x63,
    0x64]

/-- P4 before the probe at `s = 4`. -/
def probing : State :=
  { running .bSearch abcd5 55 with
    cmd := 1, dst := mem [0x14], ht := [(110, 3), (115, 1), (140, 2)]
    enc := ⟨0, 1, 20, 256, 24, 5, 3, 4, 0, 0, 0, 35, 174⟩ }

/-- P4: the match at `candidate = 0` from a never-written slot. -/
theorem test_probe : (nextOf (step probing)).any
    (fun t => t.phase == .bMatch && t.enc.s == 4 && t.enc.candidate == 0 && t.enc.nextS == 5 && t.enc.skip == 36 &&
      Table.entry t.ht 174 == 4) = true := by decide

/-- P4 after that probe: the pending literal comes next. -/
def matched : State :=
  { probing with
    phase := .bMatch, ht := [(110, 3), (115, 1), (140, 2), (174, 4)]
    enc := ⟨0, 1, 20, 256, 24, 5, 4, 5, 0, 0, 0, 36, 115⟩ }

/-- P4: `EMIT.LIT(0, 4)`. -/
theorem test_match : (nextOf (step matched)).any
    (fun t => output t 6 == [0x14, 0x0C, 0x61, 0x62, 0x63, 0x64] && t.phase == .bCopy) = true := by decide

/-- P4 after the literal: the copy comes next. -/
def copying : State :=
  { matched with
    phase := .bCopy, dst := mem [0x14, 0x0C, 0x61, 0x62, 0x63, 0x64]
    enc := { matched.enc with d := 6 } }

/-- P4: `EMIT.COPY(4, 16)`, then the remainder. -/
theorem test_copyPhase : (nextOf (step copying)).any
    (fun t => output t 9 == [0x14, 0x0C, 0x61, 0x62, 0x63, 0x64, 0x3E, 0x04, 0x00] && t.phase == .bRemainder &&
      t.enc.nextEmit == 20) = true := by decide

/-- P4 at the remainder: nothing is pending. -/
def remaining : State :=
  { copying with
    phase := .bRemainder, dst := mem [0x14, 0x0C, 0x61, 0x62, 0x63, 0x64, 0x3E, 0x04, 0x00]
    enc := { copying.enc with d := 9, base := 4, s := 20, nextEmit := 20 } }

/-- P7's input. -/
def p7 : List Nat :=
  [0x61, 0x62, 0x63, 0x64, 0x5F, 0x61, 0x62, 0x63, 0x64, 0x61, 0x62, 0x63, 0x64, 0x5F, 0x61, 0x62, 0x63, 0x64, 0x30,
    0x31, 0x32, 0x33, 0x34, 0x35, 0x36, 0x37, 0x38, 0x39, 0x41, 0x42, 0x43, 0x44, 0x45, 0x46, 0x47]

/-- P7 after its first copy: `s = 9`, before the re-insertion. -/
def reinserting : State :=
  { running .bCopy p7 72 with
    cmd := 1, dst := mem [0x23, 0x10, 0x61, 0x62, 0x63, 0x64, 0x5F, 0x01, 0x05]
    ht := [(128, 2), (158, 3), (174, 5), (215, 4), (249, 1)]
    enc := ⟨0, 9, 35, 256, 24, 20, 9, 6, 9, 0, 5, 37, 0⟩ }

/-- P7 at its first copy: `base = 5`, `candidate = 0`, the literal written. -/
def firstCopy : State :=
  { reinserting with
    dst := mem [0x23, 0x10, 0x61, 0x62, 0x63, 0x64, 0x5F]
    enc := { reinserting.enc with d := 7, s := 5, nextEmit := 0, base := 0 } }

/-- P7: `EMIT.COPY(5, 4)` and, in the same step, the re-insertion: `HT[110] <- 8`, `HT[174] <- 9`, candidate 5. -/
theorem test_copyPhase_reinserts : (nextOf (step firstCopy)).any
    (fun t => output t 9 == [0x23, 0x10, 0x61, 0x62, 0x63, 0x64, 0x5F, 0x01, 0x05] && t.phase == .bCopy &&
      t.enc.candidate == 5 && t.enc.s == 9 && t.enc.nextEmit == 9 && Table.entry t.ht 110 == 8 &&
      Table.entry t.ht 174 == 9) = true := by decide

/-- P7: `HT[110] <- 8`, the candidate 5 read from slot 174, an immediate re-match. -/
theorem test_reinsert : (match blockReinsert reinserting with
    | .ok t => t.phase == .bCopy && t.enc.candidate == 5 && Table.entry t.ht 110 == 8 && Table.entry t.ht 174 == 9
    | .error _ => false) = true := by decide

/-- V-BE3: the chunk loop hands 17 bytes to the block encoder. -/
def looping : State :=
  { running .eChunk [0x30, 0x31, 0x32, 0x33, 0x34, 0x35, 0x36, 0x37, 0x38, 0x39, 0x41, 0x42, 0x43, 0x44, 0x45, 0x46,
      0x47] 51 with
    cmd := 1, dst := mem [0x11], enc := { EncRegs.zero with d := 1 } }

/-- V-BE3: the chunk about to start. -/
def starting : State := { looping with phase := .bInit, enc := { looping.enc with blkLen := 17 } }

/-- V-BE3: `sLimit = 2`, `nextHash = H(1) = 17`. -/
theorem test_blockInit : (nextOf (step starting)).any
    (fun t => t.enc.tableSize == 256 && t.enc.shift == 24 && t.enc.sLimit == 2 && t.enc.nextHash == 17 &&
      t.phase == .bSearch) = true := by decide

/-! ## Witnesses: encodings -/

/-- A tag byte of each copy form, at the end of its range. -/
theorem test_witness_SpecWordsDecode :
    (0xFD#8).toNat % 4 = 1 ∧ (0xFE#8).toNat % 4 = 2 ∧ (0xFF#8).toNat % 4 = 3 := by decide
theorem test_witness_DecodeOfEncode :
    (Instr.litS 59#6).wellFormed = true ∧ (Instr.hdr (128 ^ 10 - 1) 10).wellFormed = true := by decide
theorem test_witness_EncodeOfDecode :
    decode (.token (bytes [0xFC, 255, 255, 255, 255])) = .ok (.lit4 0xFFFFFFFF#32) ∧
    decode (.header (bytes [0x80, 0x00])) = .ok (.hdr 0 2) ∧ decode (.command 3#32) = .ok .maxlen := by decide
theorem test_witness_TagByteGivesTokenSize :
    tagHeadBytes 0xEC#8 ≤ ([] : List Byte).length + 1 ∧ tagHeadBytes 0xFC#8 ≤ (bytes [1, 2, 3, 4]).length + 1 ∧
    (bytes [1, 2, 3]).length + 1 < tagHeadBytes 0xFC#8 ∧ (bytes []).length + 1 < tagHeadBytes 0xF0#8 := by decide
theorem test_witness_HeaderCodecLaws :
    0x80000000 ≤ 0xFFFFFFFF ∧ (running .hDec [0x80, 0x80, 0x80, 0x80, 0x08] 0).phase = .hDec ∧
    (running .hDec [0x80, 0x80, 0x80, 0x80, 0x08] 0).status = .busy ∧
    (running .hDec [0x80, 0x80, 0x80, 0x80, 0x08] 0).srcBytes 0 (hdrEnc 0x80000000).length = hdrEnc 0x80000000 ∧
    (hdrEnc 0x80000000).length ≤ (running .hDec [0x80, 0x80, 0x80, 0x80, 0x08] 0).srcLen.toNat := by decide
theorem test_witness_HeaderIsShortestForm : (2 : Nat) ^ 28 ≤ 0xFFFFFFFF := by decide

/-! ## Witnesses: a step -/

theorem test_witness_StepRunsTheDecodedInstruction :
    (((ready [] 0).writeCsr .cmd 3).status = .busy ∧ ((ready [] 0).writeCsr .cmd 3).phase = .cStart ∧
      decodeCommand ((ready [] 0).writeCsr .cmd 3).cmd = .ok .maxlen) ∧
    ((running .hDec [0x7F] 0).status = .busy ∧ (running .hDec [0x7F] 0).phase = .hDec ∧
      decodeHeader ((running .hDec [0x7F] 0).srcBytes 0 (min (running .hDec [0x7F] 0).srcLen.toNat 10)) =
        .ok (.hdr 127 1)) ∧
    ((decoding [1, 0, 0x41] 1 1 0 [] 1).status = .busy ∧ (decoding [1, 0, 0x41] 1 1 0 [] 1).phase = .dFetch ∧
      (decoding [1, 0, 0x41] 1 1 0 [] 1).dec.hdrLen + (decoding [1, 0, 0x41] 1 1 0 [] 1).dec.bodyLen ≤
        (decoding [1, 0, 0x41] 1 1 0 [] 1).srcLen.toNat ∧
      (decoding [1, 0, 0x41] 1 1 0 [] 1).dec.s < (decoding [1, 0, 0x41] 1 1 0 [] 1).dec.bodyLen ∧
      decodeToken ((decoding [1, 0, 0x41] 1 1 0 [] 1).srcBytes 1 (min 5 2)) = .ok (.litS 0#6)) := by decide
theorem test_witness_UndecodableStreamIsCorrupt :
    ((running .hDec [0x80] 0).status = .busy ∧ (running .hDec [0x80] 0).phase = .hDec ∧
      decodeHeader ((running .hDec [0x80] 0).srcBytes 0 (min (running .hDec [0x80] 0).srcLen.toNat 10)) =
        .error .headerEnds) ∧
    ((decoding [1, 0xF0] 1 1 0 [] 1).status = .busy ∧ (decoding [1, 0xF0] 1 1 0 [] 1).phase = .dFetch ∧
      (decoding [1, 0xF0] 1 1 0 [] 1).dec.s < (decoding [1, 0xF0] 1 1 0 [] 1).dec.bodyLen ∧
      (decoding [1, 0xF0] 1 1 0 [] 1).dec.hdrLen + (decoding [1, 0xF0] 1 1 0 [] 1).dec.bodyLen ≤
        (decoding [1, 0xF0] 1 1 0 [] 1).srcLen.toNat ∧
      decodeToken ((decoding [1, 0xF0] 1 1 0 [] 1).srcBytes 1 (min 5 1)) = .error .truncatedToken) := by decide
theorem test_witness_QuiescentCoreDoesNothing : Quiescent (ready [1] 1) := by decide

/-! ## Witnesses: tokens -/

/-- A literal that fills body and output exactly, one per form. -/
theorem test_witness_LiteralsCopyTheirPayload :
    LiteralFits (decoding [1, 0, 0x41] 1 1 0 [] 1) 1 ((0#6).toNat + 1) ∧
    LiteralFits (decoding [1, 0xF0, 0, 0x41] 1 1 0 [] 1) 2 ((0#8).toNat + 1) ∧
    LiteralFits (decoding [1, 0xF4, 0, 0, 0x41] 1 1 0 [] 1) 3 ((0#16).toNat + 1) ∧
    LiteralFits (decoding [1, 0xF8, 0, 0, 0, 0x41] 1 1 0 [] 1) 4 ((0#24).toNat + 1) ∧
    LiteralFits (decoding [1, 0xFC, 0, 0, 0, 0, 0x41] 1 1 0 [] 1) 5 ((0#32).toNat + 1) := by decide
theorem test_witness_LongLiteralCutShortIsCorrupt :
    (decoding [1, 0xF0] 1 1 0 [] 1).dec.bodyLen < (decoding [1, 0xF0] 1 1 0 [] 1).dec.s + 2 ∧
    (decoding [1, 0xF4, 0] 1 1 0 [] 1).dec.bodyLen < (decoding [1, 0xF4, 0] 1 1 0 [] 1).dec.s + 3 ∧
    (decoding [1, 0xF8, 0, 0] 1 1 0 [] 1).dec.bodyLen < (decoding [1, 0xF8, 0, 0] 1 1 0 [] 1).dec.s + 4 ∧
    (decoding [1, 0xFC, 0, 0, 0] 1 1 0 [] 1).dec.bodyLen < (decoding [1, 0xFC, 0, 0, 0] 1 1 0 [] 1).dec.s + 5 := by
  decide
theorem test_witness_LiteralOverrunIsUnsupported :
    LiteralOverruns (decoding [1, 0] 1 1 0 [] 1) 1 ((0#6).toNat + 1) ∧
    (LiteralOverruns (decoding [0, 0xF0, 0, 0x41] 1 0 0 [] 1) 2 ((0#8).toNat + 1) ∧
      (decoding [0, 0xF0, 0, 0x41] 1 0 0 [] 1).dec.s + 2 ≤ (decoding [0, 0xF0, 0, 0x41] 1 0 0 [] 1).dec.bodyLen) ∧
    (LiteralOverruns (decoding [1, 0xF4, 0, 0] 1 1 0 [] 1) 3 ((0#16).toNat + 1) ∧
      (decoding [1, 0xF4, 0, 0] 1 1 0 [] 1).dec.s + 3 ≤ (decoding [1, 0xF4, 0, 0] 1 1 0 [] 1).dec.bodyLen) ∧
    (LiteralOverruns (decoding [1, 0xF8, 0, 0, 0] 1 1 0 [] 1) 4 ((0#24).toNat + 1) ∧
      (decoding [1, 0xF8, 0, 0, 0] 1 1 0 [] 1).dec.s + 4 ≤ (decoding [1, 0xF8, 0, 0, 0] 1 1 0 [] 1).dec.bodyLen) ∧
    (LiteralOverruns (decoding [1, 0xFC, 0, 0, 0, 0] 1 1 0 [] 1) 5 ((0#32).toNat + 1) ∧
      (decoding [1, 0xFC, 0, 0, 0, 0] 1 1 0 [] 1).dec.s + 5 ≤
        (decoding [1, 0xFC, 0, 0, 0, 0] 1 1 0 [] 1).dec.bodyLen) := by decide
/-- The offset reaches the first output byte, the length fills the output. -/
theorem test_witness_CopiesRepeatThePattern :
    CopyFits (decoding [6, 5, 1] 1 6 0 [0x41] 6) 2 (4 + (1#3).toNat) (1#11).toNat ∧
    CopyFits (decoding [2, 2, 1, 0] 1 2 0 [0x41] 2) 3 (1 + (0#6).toNat) (1#16).toNat ∧
    CopyFits (decoding [2, 3, 1, 0, 0, 0] 1 2 0 [0x41] 2) 5 (1 + (0#6).toNat) (1#32).toNat := by decide
/-- An offset of 0, an offset one too far, a length one too long, and a token cut short. -/
theorem test_witness_BadCopyIsCorrupt :
    CopyOperandsBad (decoding [6, 5, 0] 1 6 0 [0x41] 6) (4 + (1#3).toNat) (0#11).toNat ∧
    CopyOperandsBad (decoding [2, 2, 2, 0] 1 2 0 [0x41] 2) (1 + (0#6).toNat) (2#16).toNat ∧
    CopyOperandsBad (decoding [1, 3, 1, 0, 0, 0] 1 1 0 [0x41] 2) (1 + (0#6).toNat) (1#32).toNat ∧
    (decoding [6, 5] 1 6 0 [0x41] 6).dec.bodyLen < (decoding [6, 5] 1 6 0 [0x41] 6).dec.s + 2 := by decide
theorem test_witness_NonOverlappingCopyIsBulk : 3 ≤ 3 ∧ 3 ≤ 3 := by decide

/-! ## Witnesses: the header, DECOMPRESS, MAXLEN, COMPRESS -/

theorem test_witness_HeaderSetsLengths :
    (5 ≤ (running .hDec [0xFF, 0xFF, 0xFF, 0xFF, 0x0F] 0).srcLen.toNat ∧ 5 ≤ 10 ∧ 0xFFFFFFFF ≤ 0xFFFFFFFF ∧
      ((running .hDec [0xFF, 0xFF, 0xFF, 0xFF, 0x0F] 0).params.size31 = true → 0xFFFFFFFF ≤ 0x7FFFFFFF)) := by decide
theorem test_witness_TooLargeOnlyUnderSizeLimit :
    (5 ≤ (running .hDec [0x80, 0x80, 0x80, 0x80, 0x10] 0).srcLen.toNat ∧ 5 ≤ 10 ∧ 0xFFFFFFFF < 0x100000000) ∧
    (5 ≤ { running .hDec [0x80, 0x80, 0x80, 0x80, 0x08] 0 with params := ⟨true⟩ }.srcLen.toNat ∧
      { running .hDec [0x80, 0x80, 0x80, 0x80, 0x08] 0 with params := ⟨true⟩ }.params.size31 = true ∧
      0x7FFFFFFF < 0x80000000 ∧ 0x80000000 ≤ 0xFFFFFFFF) := by decide
theorem test_witness_noTooLarge_without_SIZE31 :
    ∃ t, step (running .hDec [0x80, 0x80, 0x80, 0x80, 0x08] 0) = .next t ∧
      (running .hDec [0x80, 0x80, 0x80, 0x80, 0x08] 0).params.size31 = false ∧
      (running .hDec [0x80, 0x80, 0x80, 0x80, 0x08] 0).err ≠ .tooLarge ∧ t.dec.destLen = 0x80000000 :=
  exists_next (P := fun t => _ ∧ _ ∧ t.dec.destLen = 0x80000000) (by decide)
/-- About to test the capacity, five bytes or six for an output of six. -/
def capacityTest (cap : Nat) : State := { decoding [6] 1 6 0 [] cap with phase := .dInit }

/-- One byte too few, and just enough. -/
theorem test_witness_CapacityIsTestedBeforeTokens :
    ((capacityTest 5).status = .busy ∧ (capacityTest 5).phase = .dInit ∧
      (capacityTest 5).dstCap.toNat < (capacityTest 5).dec.destLen) ∧
    ((capacityTest 6).status = .busy ∧ (capacityTest 6).phase = .dInit ∧
      (capacityTest 6).dec.destLen ≤ (capacityTest 6).dstCap.toNat) := by decide

/-- The body has ended, with one byte of output, all or not all of the declared length. -/
def bodyEnded (p : Phase) (destLen : Nat) : State := { decoding [1, 0, 0x41] 1 destLen 2 [0x41] destLen with phase := p }

theorem test_witness_BodyEndsWithTheDeclaredLength :
    (bodyEnded .dFetch 1).status = .busy ∧ (bodyEnded .dEnd 1).status = .busy ∧ (bodyEnded .dEnd 2).status = .busy ∧
    ((bodyEnded .dFetch 1).phase = .dFetch ∧ (bodyEnded .dFetch 1).dec.bodyLen ≤ (bodyEnded .dFetch 1).dec.s) ∧
    ((bodyEnded .dEnd 2).phase = .dEnd ∧ (bodyEnded .dEnd 2).dec.d ≠ (bodyEnded .dEnd 2).dec.destLen) ∧
    ((bodyEnded .dEnd 1).phase = .dEnd ∧ (bodyEnded .dEnd 1).dec.d = (bodyEnded .dEnd 1).dec.destLen) := by decide
theorem test_witness_MaxlenReturnsTheBound :
    (3681400511#32).toNat ≤ 3681400511 ∧ 3681400511 < (3681400512#32).toNat := by decide
theorem test_witness_CompressWritesTheHeader :
    32 + (ready abcd5 55).srcLen.toNat + (ready abcd5 55).srcLen.toNat / 6 ≤ (ready abcd5 55).dstCap.toNat := by decide
theorem test_witness_CompressTestsSizeThenCapacity :
    3681400511 < ({ State.reset with srcLen := 3681400512#32 }.srcLen).toNat ∧
    (ready abcd5 54).srcLen.toNat ≤ 3681400511 ∧
    (ready abcd5 54).dstCap.toNat < 32 + (ready abcd5 54).srcLen.toNat + (ready abcd5 54).srcLen.toNat / 6 := by decide

/-- A short chunk after its header. -/
def shortChunk : State :=
  { running .eChunk [0x51] 33 with dst := mem [1], enc := { EncRegs.zero with d := 1 } }

/-- The same input when all of it is written. -/
def allWritten : State :=
  { shortChunk with dst := mem [1, 0, 0x51], enc := { EncRegs.zero with d := 3, blkLen := 1, inPos := 1 } }

theorem test_witness_ChunkLoopTurn :
    (looping.status = .busy ∧ looping.phase = .eChunk ∧ ChunkLoopInv looping ∧ looping.enc.inPos < looping.srcLen.toNat ∧ 17 ≤ looping.srcLen.toNat - looping.enc.inPos) ∧
    (shortChunk.status = .busy ∧ shortChunk.phase = .eChunk ∧ ChunkLoopInv shortChunk ∧ 1 = shortChunk.srcLen.toNat - shortChunk.enc.inPos) ∧
    (allWritten.status = .busy ∧ allWritten.phase = .eChunk ∧ ChunkLoopInv allWritten ∧ allWritten.enc.inPos = allWritten.srcLen.toNat) := by decide

/-! ## Witnesses: emitters and the Block Encoder -/

theorem test_witness_EmittedLiteralDecodes : (1 ≤ 60 ∧ 60 ≤ 60) ∧ (60 < 61 ∧ 256 ≤ 256) ∧ (256 < 257 ∧ 65536 ≤ 65536) := by
  decide
theorem test_witness_EmittedCopiesAddUp : 1 ≤ 65535 ∧ 65535 ≤ 65535 ∧ 4 ≤ 4 := by decide
theorem test_witness_EmittedCopySize :
    4 ≤ 68 ∧ 1 = (if 68 < 68 then 0 else (68 - 4) / 64) ∧ 4 = 68 - 64 * 1 := by decide
theorem test_witness_TableIsSmallestPowerOfTwo : 17 ≤ 17 ∧ 17 ≤ 65536 := by decide
theorem test_witness_HashIndexesTheTable : tableGeometry 257 = (512, 23) ∧ tableGeometry 65536 = (16384, 18) := by decide
theorem test_witness_BlockStartsWithAClearTable :
    starting.status = .busy ∧ starting.phase = .bInit ∧ 17 ≤ starting.enc.blkLen ∧ starting.enc.blkLen ≤ 65536 ∧
    starting.enc.inPos + starting.enc.blkLen ≤ starting.srcLen.toNat := by decide

/-- A probe that ends the search: V-BE3 at `s = 2`. -/
def lastProbe : State :=
  { starting with phase := .bSearch, ht := [(17, 1)], enc := ⟨0, 1, 17, 256, 24, 2, 1, 2, 0, 0, 0, 33, hash 24 (starting.fp 2)⟩ }

theorem test_witness_ProbeReadsThenOverwrites :
    (probing.status = .busy ∧ probing.phase = .bSearch ∧ SearchInv probing ∧ probing.enc.nextS + probing.enc.skip / 32 ≤ probing.enc.sLimit) ∧
    (lastProbe.status = .busy ∧ lastProbe.phase = .bSearch ∧ SearchInv lastProbe ∧ lastProbe.enc.sLimit < lastProbe.enc.nextS + lastProbe.enc.skip / 32) := by decide
theorem test_witness_MatchEmitsThePendingLiteral :
    matched.status = .busy ∧ matched.phase = .bMatch ∧ MatchInv matched := by decide
theorem test_witness_RemainderIsTheLastLiteral :
    remaining.status = .busy ∧ remaining.phase = .bRemainder ∧ RemainderInv remaining := by decide
theorem test_witness_MatchIsExtendedMaximally :
    4 < 8 ∧ 8 ≤ copying.enc.blkLen ∧ copying.enc.inPos + copying.enc.blkLen ≤ copying.srcLen.toNat := by decide
/-- A match that ends at or beyond `sLimit` (`test_copyPhase`), and one that ends below it. -/
theorem test_witness_CopyPhaseEmitsTheMatch :
    (copying.status = .busy ∧ copying.phase = .bCopy ∧ CopyInv copying) ∧
    (firstCopy.status = .busy ∧ firstCopy.phase = .bCopy ∧ CopyInv firstCopy ∧ 9 < firstCopy.enc.sLimit ∧
      110 = hash firstCopy.enc.shift (firstCopy.fp (9 - 1)) ∧ 174 = hash firstCopy.enc.shift (firstCopy.fp 9) ∧
      5 = (if 110 = 174 then 9 - 1 else (Table.entry firstCopy.ht 174).toNat)) := by decide
theorem test_witness_ReinsertionReadsAfterItsWrite :
    BlockInv reinserting ∧ TableBelow reinserting reinserting.enc.s ∧ 1 ≤ reinserting.enc.s ∧
    reinserting.enc.s < reinserting.enc.sLimit ∧
    110 = hash reinserting.enc.shift (reinserting.fp (reinserting.enc.s - 1)) ∧
    174 = hash reinserting.enc.shift (reinserting.fp reinserting.enc.s) := by decide
theorem test_witness_PhasesFollowTheRules : ∃ t, step probing = .next t ∧ probing.status = .busy ∧ t.status = .busy :=
  exists_next (P := fun t => _ ∧ t.status = .busy) (by decide)

/-! ## Witnesses: errors, registers, host -/

theorem test_witness_ErrorsOnlyWhereListed :
    ∃ t, step (decoding [6, 5, 0] 1 6 0 [0x41] 6) = .next t ∧ (decoding [6, 5, 0] 1 6 0 [0x41] 6).status = .busy ∧
      t.status = .error :=
  exists_next (P := fun t => _ ∧ t.status = .error) (by decide)
theorem test_witness_CmdWriteStartsTheCommand :
    Quiescent (ready [] 0) ∧ (0#32 ≠ 1 ∧ 0#32 ≠ 2 ∧ 0#32 ≠ 3) ∧ (4#32 ≠ 1 ∧ 4#32 ≠ 2 ∧ 4#32 ≠ 3) := by decide
theorem test_witness_CsrFile :
    (running .dFetch [] 0).status = .busy ∧ Quiescent (ready [] 0) ∧ 6 ≤ 6 := by decide
theorem test_witness_ResetValues : (ready [1] 1).applyReset ≠ ready [1] 1 := by decide
theorem test_witness_HostAccessOnlyWhileQuiescent :
    (running .dFetch [] 0).status = .busy ∧ Quiescent (ready [] 0) := by decide
theorem test_witness_StatusChangesOnlyByRule :
    ∃ t, step (decoding [1, 0, 0x41] 1 1 0 [] 1) = .next t ∧ (decoding [1, 0, 0x41] 1 1 0 [] 1).status = .busy ∧
      (decoding [1, 0, 0x41] 1 1 0 [] 1).err = .noError ∧ (decoding [1, 0, 0x41] 1 1 0 [] 1).outLen = 0 ∧ t.dec.d = 1 :=
  exists_next (P := fun t => _ ∧ _ ∧ _ ∧ t.dec.d = 1) (by decide)

/-! ## Witnesses: the whole machine -/

/-- A step that writes. -/
theorem test_witness_StepsKeepTheInputs : ∃ t, step (decoding [1, 0, 0x41] 1 1 0 [] 1) = .next t ∧ t.dst ≠ [] :=
  exists_next (by decide)
theorem test_witness_StepsWriteBelowCapacity :
    ∃ t, step (decoding [1, 0, 0x41] 1 1 0 [] 1) = .next t ∧ (decoding [1, 0, 0x41] 1 1 0 [] 1).dstCap.toNat ≤ 1 ∧
      t.dst ≠ [] :=
  exists_next (P := fun t => _ ∧ t.dst ≠ []) (by decide)
theorem test_witness_DirectionsShareNoState :
    (∃ t, step (decoding [1, 0, 0x41] 1 1 0 [] 1) = .next t ∧ (decoding [1, 0, 0x41] 1 1 0 [] 1).status = .busy ∧
      isDecoding (decoding [1, 0, 0x41] 1 1 0 [] 1).phase = true) ∧
    (∃ t, step probing = .next t ∧ probing.status = .busy ∧ isDecoding probing.phase = false) :=
  ⟨exists_next (P := fun _ => _ ∧ _) (by decide), exists_next (P := fun _ => _ ∧ _) (by decide)⟩

/-- A quiescent state with an input meets the invariant. -/
theorem test_witness_inv_ready : Inv (ready abcd5 55) := ⟨by decide, by decide, fun h => absurd h (by decide)⟩

/-- The decoder about to run a literal meets the invariant. -/
theorem test_witness_inv_decoding : Inv (decoding [1, 0, 0x41] 1 1 0 [] 1) := by
  refine ⟨by decide, by decide, fun _ => ⟨?_, fun _ => by decide, ?_, ?_, ?_, ?_, ?_, ?_, ?_, ?_, ?_⟩⟩ <;>
    exact fun h => absurd h (by decide)

/-- The encoder about to probe meets the invariant: NoStepStops and EveryCommandEnds ask no more. -/
theorem test_witness_inv_probing : Inv probing := by
  refine ⟨by decide, by decide, fun _ => ⟨?_, ?_, ?_, ?_, ?_, ?_, ?_, fun _ => by decide, ?_, ?_, ?_⟩⟩ <;>
    exact fun h => absurd h (by decide)

theorem test_witness_OutputGrowsUpward :
    (Inv (decoding [1, 0, 0x41] 1 1 0 [] 1) ∧ (decoding [1, 0, 0x41] 1 1 0 [] 1).status = .busy ∧
      ∃ t, step (decoding [1, 0, 0x41] 1 1 0 [] 1) = .next t ∧ t.status = .busy ∧
        (decoding [1, 0, 0x41] 1 1 0 [] 1).phase = .dFetch) ∧
    (Inv probing ∧ probing.status = .busy ∧
      ∃ t, step probing = .next t ∧ t.status = .busy ∧ isDecoding probing.phase = false ∧ probing.phase ≠ .cStart) :=
  ⟨⟨test_witness_inv_decoding, by decide, exists_next (by decide)⟩,
    ⟨test_witness_inv_probing, by decide, exists_next (P := fun t => t.status = .busy ∧ _ ∧ _) (by decide)⟩⟩
theorem test_witness_StepKeepsInvariant : Inv probing ∧ ∃ t, step probing = .next t ∧ t.phase = .bMatch :=
  ⟨test_witness_inv_probing, exists_next (by decide)⟩
theorem test_witness_HostMovesKeepInvariant :
    Inv (ready abcd5 55) ∧ ∃ t, hostMove (.writeCsr .cmd 1) (ready abcd5 55) = .next t ∧ t.status = .busy :=
  ⟨test_witness_inv_ready, exists_next (by decide)⟩
theorem test_witness_RegistersKeepTheirWidth :
    Inv probing ∧ RegistersFit probing ∧ ∃ t, step probing = .next t ∧ t.phase = .bMatch :=
  ⟨test_witness_inv_probing, by decide, exists_next (by decide)⟩

/-! ## Witnesses: whole commands -/

theorem test_witness_CompressMeetsTheBound :
    Inv (ready abcd5 55) ∧ Quiescent (ready abcd5 55) ∧
    32 + (ready abcd5 55).srcLen.toNat + (ready abcd5 55).srcLen.toNat / 6 ≤ (ready abcd5 55).dstCap.toNat :=
  ⟨test_witness_inv_ready, by decide, by decide⟩
theorem test_witness_ShortInputsAreOneLiteral :
    (Quiescent (ready [] 32) ∧ 0 = (ready [] 32).srcLen.toNat ∧ 32 + 0 + 0 / 6 ≤ (ready [] 32).dstCap.toNat) ∧
    (Quiescent (ready [0x51] 33) ∧ 1 = (ready [0x51] 33).srcLen.toNat ∧
      32 + 1 + 1 / 6 ≤ (ready [0x51] 33).dstCap.toNat) := by decide

/-- V-TE: COMPRESS of the byte `51` ends with `01 00 51`, and a second CORE whose `SRC` holds those three bytes meets
the rest of DecompressOfCompress's premises. -/
theorem test_witness_DecompressOfCompress :
    Inv (ready [0x51] 33) ∧ Quiescent (ready [0x51] 33) ∧
    Inv (ready [1, 0, 0x51] 1) ∧ Quiescent (ready [1, 0, 0x51] 1) ∧ (ready [1, 0, 0x51] 1).params.size31 = false ∧
    (ready [0x51] 33).srcLen.toNat ≤ (ready [1, 0, 0x51] 1).dstCap.toNat ∧
    ∃ t, CommandEnds 1 (ready [0x51] 33) t ∧ t.status = .done ∧ (ready [1, 0, 0x51] 1).srcLen = t.outLen ∧
      ∀ a < t.outLen.toNat, (ready [1, 0, 0x51] 1).srcByte a = t.dstByte a := by
  refine ⟨⟨by decide, by decide, fun h => absurd h (by decide)⟩, by decide,
    ⟨by decide, by decide, fun h => absurd h (by decide)⟩, by decide, by decide, by decide, ?_⟩
  obtain ⟨t, ht, hq, hd, hl, hb⟩ := exists_next (o := Sys2Proof.core.run 3 ((ready [0x51] 33).writeCsr .cmd 1))
    (P := fun t => Quiescent t ∧ t.status = .done ∧ (ready [1, 0, 0x51] 1).srcLen = t.outLen ∧
      ∀ a < t.outLen.toNat, (ready [1, 0, 0x51] 1).srcByte a = t.dstByte a) (by decide)
  exact ⟨t, ⟨3, ht, hq⟩, hd, hl, hb⟩

/-- A CORE holding the header `00`, and one holding nothing, meet the invariant. -/
theorem test_witness_inv_tiny : Inv (ready [0x00] 0) ∧ Inv (ready [] 0) :=
  ⟨⟨by decide, by decide, fun h => absurd h (by decide)⟩, ⟨by decide, by decide, fun h => absurd h (by decide)⟩⟩

/-- DECOMPRESS of the stream `00` ends in DONE (V-BD). -/
theorem test_witness_CommandEnds : ∃ t, CommandEnds 2 (ready [0x00] 0) t ∧ t.status = .done := by
  obtain ⟨t, ht, hd, hq⟩ := exists_next (o := Sys2Proof.core.run 5 ((ready [0x00] 0).writeCsr .cmd 2))
    (P := fun t => t.status = .done ∧ Quiescent t) (by decide)
  exact ⟨t, ⟨5, ht, hq⟩, hd⟩

theorem test_witness_TruncatedStreamFails :
    Inv (ready [0x00] 0) ∧ Quiescent (ready [0x00] 0) ∧ Inv (ready [] 0) ∧ Quiescent (ready [] 0) ∧
    (∃ t, CommandEnds 2 (ready [0x00] 0) t ∧ t.status = .done) ∧ (ready [] 0).params = (ready [0x00] 0).params ∧
    (ready [] 0).dstCap = (ready [0x00] 0).dstCap ∧ (ready [] 0).srcLen.toNat < (ready [0x00] 0).srcLen.toNat :=
  ⟨test_witness_inv_tiny.1, by decide, test_witness_inv_tiny.2, by decide, test_witness_CommandEnds, by decide,
    by decide, by decide⟩

/-- A machine that differs from `ready [0x00] 0` in `HT`, a working register and `SRC` beyond `SRC_LEN`. -/
def otherTiny : State :=
  { ready [0x00] 0 with ht := [(3, 7)], enc := { EncRegs.zero with skip := 5 }, src := mem [0x00, 0x99] }

theorem test_witness_OutcomeDependsOnInputAlone :
    Inv (ready [0x00] 0) ∧ Inv otherTiny ∧ Quiescent (ready [0x00] 0) ∧ Quiescent otherTiny ∧
    SameArguments (ready [0x00] 0) otherTiny ∧ otherTiny ≠ ready [0x00] 0 ∧
    ∃ t, CommandEnds 2 (ready [0x00] 0) t ∧ t.status = .done :=
  ⟨test_witness_inv_tiny.1, ⟨by decide, by decide, fun h => absurd h (by decide)⟩, by decide, by decide, by decide,
    by decide, test_witness_CommandEnds⟩

end Sys2Proof.Tests
end

section
/-! PROOF of O48: the decoder is blind to `HT` and the encoder's registers, the encoder and a command's start to the
decoder's registers. -/

namespace Sys2Proof

/-! ## Commands and stream instructions -/

/-- The three commands of R63. -/
def Instr.isCommand : Instr → Bool
  | .compress | .decompress | .maxlen => true
  | _ => false

/-- The bits are a `CMD` value. -/
def Code.isCommand : Code → Bool
  | .command _ => true
  | _ => false

/-- Only a `CMD` value decodes to a command, and it decodes to nothing else (R63). -/
theorem decode_isCommand {c : Code} {i : Instr} (h : decode c = .ok i) : i.isCommand = c.isCommand := by
  cases c with
  | header bytes =>
    simp only [decode, decodeHeader] at h
    split at h <;> cases h
    rfl
  | token bytes =>
    simp only [decode] at h
    revert h
    fun_cases decodeToken bytes <;> intro h <;> cases h <;> rfl
  | command v =>
    simp only [decode] at h
    revert h
    fun_cases decodeCommand v <;> intro h <;> cases h <;> rfl

end Sys2Proof

namespace Sys2Proof.Machine

open Sys2Proof.Claims

/-! ## Parts of a meaning that are blind to a change of state

`f` stands for the replacement of the registers a direction does not own. A part of a meaning is blind to `f` when it
answers alike before and after it: the same stop, or states that `f` makes equal. One lemma per way the model puts parts
together (a test, a read, a part run after another) carries this from the parts to the whole. -/

/-- The part `op` of a meaning neither writes nor looks at what `f` replaces. -/
def Blind (f : State → State) (op : State → Run) : Prop := ∀ s, op (f s) = (op s).map f

/-- An outcome with `f` applied to its next state. -/
def mapNext (f : State → State) : Host.Outcome State Fault Refusal → Host.Outcome State Fault Refusal
  | .next t => .next (f t)
  | .fault e => .fault e
  | .refused e => .refused e

/-- What comes next, with `f` applied to what a phase leaves. -/
def Work.map (f : State → State) : Work → Work
  | .instruction c => .instruction c
  | .phaseRun x => .phaseRun (x.map f)

section Shapes

variable {f : State → State}

/-- A test that comes out alike, both of its branches blind. -/
theorem ite_eq_apply {α : Type} {F : α → α} {c : Prop} [Decidable c] {x x' y y' : α} (hx : x' = F x)
    (hy : y' = F y) : (if c then x' else y') = F (if c then x else y) := by
  rw [apply_ite F, hx, hy]

/-- One part after another, both blind. -/
theorem Run.bind_eq_map {x x' : Run} {g g' : State → Run} (hx : x' = x.map f)
    (hg : ∀ t, g' (f t) = (g t).map f) : x' >>= g' = Except.map f (x >>= g) := by
  subst hx
  cases x with
  | ok t => exact hg t
  | error e => rfl

/-- A read that answers alike, then a part that is blind whatever was read. -/
theorem Run.read_eq_map {α : Type} {x x' : Except Stop α} {g g' : α → Run} (hx : x' = x)
    (hg : ∀ a, g' a = (g a).map f) : x' >>= g' = Except.map f (x >>= g) := by
  subst hx
  cases x' with
  | ok a => exact hg a
  | error e => rfl

theorem Run.outcome_map (x : Run) : Run.outcome (x.map f) = mapNext f x.outcome := by
  rcases x with (_ | _) | _ <;> rfl

theorem Blind.outcome {op : State → Run} (h : Blind f op) (s : State) :
    (op (f s)).outcome = mapNext f (op s).outcome := by
  rw [h s, Run.outcome_map]

/-- A step is blind to `f` when the sequencer and the instruction it fetches are. -/
theorem step_eq_mapNext {s : State} (hb : s.status = .busy) (hb' : (f s).status = .busy)
    (hw : (f s).work = s.work.map f) (hr : ∀ e, Blind f (rejectCode e))
    (hx : ∀ c i, s.work = .instruction c → decode c = .ok i → exec i (f s) = mapNext f (exec i s)) :
    step (f s) = mapNext f (step s) := by
  unfold step
  rw [if_pos hb, if_pos hb', hw]
  cases hs : s.work with
  | phaseRun x => exact Run.outcome_map x
  | instruction c =>
    simp only [Work.map]
    cases hd : decode c with
    | ok i => exact hx c i hs hd
    | error e => exact (hr e).outcome s

end Shapes

/-! ## Reads of `SRC` depend on `SRC` alone -/

theorem State.srcBytes_congr (s t : State) (hsrc : t.src = s.src) (hresets : t.resets = s.resets) (a n : Nat) :
    t.srcBytes a n = s.srcBytes a n := by
  induction n generalizing a with
  | zero => rfl
  | succ n ih => simp only [State.srcBytes, State.srcByte, hsrc, hresets, ih]

theorem State.readSrc_congr (s t : State) (hsrc : t.src = s.src) (hresets : t.resets = s.resets)
    (hlen : t.srcLen = s.srcLen) (a n : Nat) : t.readSrc a n = s.readSrc a n := by
  simp only [State.readSrc, s.srcBytes_congr t hsrc hresets, hlen]

/-! ## Which directions run commands -/

/-- A command is fetched at its start, headers and tokens by DECOMPRESS (R18). -/
theorem State.work_isCommand {s : State} {c : Code} (h : s.work = .instruction c) :
    c.isCommand = !isDecoding s.phase := by
  unfold State.work fetchOrEnd at h
  cases hp : s.phase <;> rw [hp] at h <;> simp only [reduceCtorEq, Work.instruction.injEq] at h
  case cStart => subst h; rfl
  case hDec => subst h; rfl
  case dFetch =>
    split at h
    · cases h
    · split at h <;> cases h
      rfl

/-! ## The encoder does not see the decoder's registers -/

section DecoderUnseen

variable (r : DecRegs)

theorem State.fingerprint_setDec (s : State) (p : Nat) : (s.setDec r).fingerprint p = s.fingerprint p := by
  simp only [State.fingerprint, State.fp, State.setDec_srcLen, State.setDec_enc,
    s.srcBytes_congr (s.setDec r) rfl rfl]

theorem State.hashAt_setDec (s : State) (p : Nat) : (s.setDec r).hashAt p = s.hashAt p := by
  simp only [State.hashAt, State.fingerprint_setDec, State.setDec_enc]

theorem State.extendMatch_setDec (s : State) (fuel i p : Nat) :
    (s.setDec r).extendMatch fuel i p = s.extendMatch fuel i p := by
  have hread : ∀ q, (s.setDec r).readChunk q = s.readChunk q := fun _ => rfl
  induction fuel generalizing i p with
  | zero => rfl
  | succ fuel ih => simp only [State.extendMatch, hread, State.setDec_enc, ih]

/-! One lemma per part of the encode direction, its proof in the shape of the part's definition. -/

theorem State.writeDst_setDec (a : Nat) (bytes : List Byte) : Blind (·.setDec r) (·.writeDst a bytes) :=
  fun _ => ite_eq_apply rfl rfl

theorem State.writeHt_setDec (h p : Nat) : Blind (·.setDec r) (·.writeHt h p) :=
  fun _ => ite_eq_apply rfl rfl

theorem State.emit_setDec (bytes : List Byte) : Blind (·.setDec r) (·.emit bytes) := fun s =>
  Run.bind_eq_map (State.writeDst_setDec r _ bytes s) fun _ => rfl

theorem emitLit_setDec (a n : Nat) : Blind (·.setDec r) (emitLit a n) := fun s =>
  ite_eq_apply rfl <|
    Run.read_eq_map (s.readSrc_congr (s.setDec r) rfl rfl rfl a n) fun _ => State.emit_setDec r _ s

theorem emitCopy_setDec (offset length : Nat) : Blind (·.setDec r) (emitCopy offset length) := fun s =>
  ite_eq_apply rfl (State.emit_setDec r _ s)

theorem blockInit_setDec : Blind (·.setDec r) blockInit := fun s =>
  ite_eq_apply rfl <| Run.read_eq_map (((s.setHt _).setEnc _).hashAt_setDec r 1) fun _ => rfl

theorem blockSearch_setDec : Blind (·.setDec r) blockSearch := fun s =>
  ite_eq_apply rfl <|
    Run.read_eq_map rfl fun cand =>
    Run.bind_eq_map (State.writeHt_setDec r _ _ s) fun t =>
    Run.read_eq_map (t.hashAt_setDec r _) fun _ =>
    Run.read_eq_map (t.fingerprint_setDec r _) fun _ =>
    Run.read_eq_map (t.fingerprint_setDec r cand) fun _ => rfl

theorem blockMatch_setDec : Blind (·.setDec r) blockMatch := fun s =>
  Run.bind_eq_map (emitLit_setDec r _ _ s) fun _ => rfl

theorem blockReinsert_setDec : Blind (·.setDec r) blockReinsert := fun s =>
  Run.read_eq_map (s.hashAt_setDec r _) fun _ =>
  Run.bind_eq_map (State.writeHt_setDec r _ _ s) fun t =>
  Run.read_eq_map (t.hashAt_setDec r _) fun _ =>
  Run.read_eq_map rfl fun cand =>
  Run.bind_eq_map (State.writeHt_setDec r _ _ t) fun u =>
  Run.read_eq_map (u.fingerprint_setDec r _) fun _ =>
  Run.read_eq_map (u.fingerprint_setDec r cand) fun _ =>
  ite_eq_apply rfl <| Run.read_eq_map (u.hashAt_setDec r _) fun _ => rfl

theorem blockCopy_setDec : Blind (·.setDec r) blockCopy := fun s =>
  Run.read_eq_map (s.extendMatch_setDec r _ _ _) fun _ =>
  Run.bind_eq_map (emitCopy_setDec r _ _ (s.setEnc _)) fun t =>
  ite_eq_apply rfl (blockReinsert_setDec r (t.setEnc _))

theorem blockRemainder_setDec : Blind (·.setDec r) blockRemainder := fun s =>
  ite_eq_apply (Run.bind_eq_map (emitLit_setDec r _ _ s) fun _ => rfl) rfl

theorem chunkLoop_setDec : Blind (·.setDec r) chunkLoop := fun s =>
  ite_eq_apply
    (ite_eq_apply (Run.bind_eq_map (emitLit_setDec r _ _ (s.setEnc _)) fun _ => rfl) rfl)
    rfl

theorem rejectCode_setDec (e : DecodeError) : Blind (·.setDec r) (rejectCode e) := fun _ => by
  cases e <;> rfl

theorem execMaxlen_setDec (s : State) : execMaxlen (s.setDec r) = mapNext (·.setDec r) (execMaxlen s) := by
  simp only [execMaxlen, State.setDec_srcLen]
  split <;> rfl

theorem execCompress_setDec (s : State) : execCompress (s.setDec r) = mapNext (·.setDec r) (execCompress s) := by
  unfold execCompress
  rw [State.setDec_srcLen]
  cases maxEncodedLength s.srcLen.toNat with
  | none => rfl
  | some m =>
    refine ite_eq_apply rfl (Eq.trans (congrArg Run.outcome ?_) (Run.outcome_map _))
    exact Run.bind_eq_map (State.emit_setDec r _ (s.setEnc _)) fun _ => rfl

theorem exec_setDec {i : Instr} (hi : i.isCommand = true) (s : State) :
    exec i (s.setDec r) = mapNext (·.setDec r) (exec i s) := by
  cases i <;> cases hi
  case compress => exact execCompress_setDec r s
  case decompress => rfl
  case maxlen => exact execMaxlen_setDec r s

theorem State.work_setDec {s : State} (hp : isDecoding s.phase = false) :
    (s.setDec r).work = s.work.map (·.setDec r) := by
  unfold State.work
  simp only [State.setDec_phase]
  cases h : s.phase <;> rw [h] at hp <;> cases hp
  case cStart => rfl
  case eChunk => exact congrArg Work.phaseRun (chunkLoop_setDec r s)
  case bInit => exact congrArg Work.phaseRun (blockInit_setDec r s)
  case bSearch => exact congrArg Work.phaseRun (blockSearch_setDec r s)
  case bMatch => exact congrArg Work.phaseRun (blockMatch_setDec r s)
  case bCopy => exact congrArg Work.phaseRun (blockCopy_setDec r s)
  case bRemainder => exact congrArg Work.phaseRun (blockRemainder_setDec r s)

theorem step_setDec {s : State} (hb : s.status = .busy) (hp : isDecoding s.phase = false) :
    step (s.setDec r) = mapNext (·.setDec r) (step s) :=
  step_eq_mapNext (f := (·.setDec r)) hb hb (State.work_setDec r hp) (rejectCode_setDec r) fun _ _ hw hd =>
    exec_setDec r (by rw [decode_isCommand hd, State.work_isCommand hw, hp]; rfl) s

end DecoderUnseen

/-! ## The decoder sees neither `HT` nor the encoder's registers -/

/-- `HT` and the encoder's registers replaced. -/
def State.setEncoder (ht : Table) (e : EncRegs) (s : State) : State := (s.setHt ht).setEnc e

section EncoderUnseen

variable (ht : Table) (e : EncRegs)

theorem State.copyLoop_setEncoder (s : State) (offset d n : Nat) :
    (s.setEncoder ht e).copyLoop offset d n = (s.copyLoop offset d n).setEncoder ht e := by
  induction n generalizing s d with
  | zero => rfl
  | succ n ih => exact ih (s.setDst _) (d + 1)

theorem literalBody_setEncoder : Blind (State.setEncoder ht e) literalBody := fun s =>
  ite_eq_apply rfl <| ite_eq_apply rfl <| ite_eq_apply rfl <|
    Run.read_eq_map (s.readSrc_congr (s.setEncoder ht e) rfl rfl rfl _ _) fun _ =>
    Run.bind_eq_map (ite_eq_apply rfl rfl) fun _ => rfl

theorem literal_setEncoder (head length : Nat) : Blind (State.setEncoder ht e) (literal head length) := fun s =>
  literalBody_setEncoder ht e ((s.setDec _).setPhase .dLit)

theorem longLiteral_setEncoder (head length : Nat) : Blind (State.setEncoder ht e) (longLiteral head length) :=
  fun s => ite_eq_apply rfl (literal_setEncoder ht e head length s)

theorem copyBody_setEncoder : Blind (State.setEncoder ht e) copyBody := fun s =>
  ite_eq_apply rfl <| ite_eq_apply rfl <| ite_eq_apply rfl <|
    Run.bind_eq_map (ite_eq_apply (congrArg Except.ok (s.copyLoop_setEncoder ht e _ _ _)) rfl) fun _ => rfl

theorem copy_setEncoder (head length offset : Nat) : Blind (State.setEncoder ht e) (copy head length offset) :=
  fun s => ite_eq_apply rfl (copyBody_setEncoder ht e ((s.setDec _).setPhase .dCopy))

theorem decodeInit_setEncoder : Blind (State.setEncoder ht e) decodeInit := fun _ => ite_eq_apply rfl rfl

theorem decodeEnd_setEncoder : Blind (State.setEncoder ht e) decodeEnd := fun _ => ite_eq_apply rfl rfl

theorem rejectCode_setEncoder (k : DecodeError) : Blind (State.setEncoder ht e) (rejectCode k) := fun _ => by
  cases k <;> rfl

theorem execHdr_setEncoder (value len : Nat) (s : State) :
    execHdr value len (s.setEncoder ht e) = mapNext (State.setEncoder ht e) (execHdr value len s) := by
  refine Eq.trans (congrArg Run.outcome ?_) (Run.outcome_map _)
  exact ite_eq_apply rfl <| ite_eq_apply rfl <| ite_eq_apply rfl <| ite_eq_apply rfl rfl

theorem exec_setEncoder {i : Instr} (hi : i.isCommand = false) (s : State) :
    exec i (s.setEncoder ht e) = mapNext (State.setEncoder ht e) (exec i s) := by
  cases i <;> cases hi
  case litS => exact (literal_setEncoder ht e _ _).outcome s
  case lit1 | lit2 | lit3 | lit4 => exact (longLiteral_setEncoder ht e _ _).outcome s
  case copy1 | copy2 | copy4 => exact (copy_setEncoder ht e _ _ _).outcome s
  case hdr value len => exact execHdr_setEncoder ht e value len s

theorem fetchOrEnd_setEncoder (s : State) :
    fetchOrEnd (s.setEncoder ht e) = (fetchOrEnd s).map (State.setEncoder ht e) := by
  have hdec : (s.setEncoder ht e).dec = s.dec := rfl
  have hfetch : (s.setEncoder ht e).fetchToken = s.fetchToken :=
    s.readSrc_congr (s.setEncoder ht e) rfl rfl rfl _ _
  simp only [fetchOrEnd, hdec, hfetch]
  split
  · rfl
  · split <;> rfl

theorem State.work_setEncoder {s : State} (hp : isDecoding s.phase = true) :
    (s.setEncoder ht e).work = s.work.map (State.setEncoder ht e) := by
  have hphase : (s.setEncoder ht e).phase = s.phase := rfl
  unfold State.work
  rw [hphase]
  cases h : s.phase <;> rw [h] at hp <;> cases hp
  case hDec => exact congrArg (fun b => Work.instruction (.header b)) (s.srcBytes_congr (s.setEncoder ht e) rfl rfl _ _)
  case dInit => exact congrArg Work.phaseRun (decodeInit_setEncoder ht e s)
  case dFetch => exact fetchOrEnd_setEncoder ht e s
  case dLit => exact congrArg Work.phaseRun (literalBody_setEncoder ht e s)
  case dCopy => exact congrArg Work.phaseRun (copyBody_setEncoder ht e s)
  case dEnd => exact congrArg Work.phaseRun (decodeEnd_setEncoder ht e s)

theorem step_setEncoder {s : State} (hb : s.status = .busy) (hp : isDecoding s.phase = true) :
    step (s.setEncoder ht e) = mapNext (State.setEncoder ht e) (step s) :=
  step_eq_mapNext hb hb (State.work_setEncoder ht e hp) (rejectCode_setEncoder ht e) fun _ _ hw hd =>
    exec_setEncoder ht e (by rw [decode_isCommand hd, State.work_isCommand hw, hp]; rfl) s

end EncoderUnseen

/-! ## The two directions share no state -/

theorem withEncoder_eq_mapNext (ht : Table) (e : EncRegs) (o : Host.Outcome State Fault Refusal) :
    withEncoder ht e o = mapNext (State.setEncoder ht e) o := by
  cases o <;> rfl

theorem withDecoder_eq_mapNext (r : DecRegs) (o : Host.Outcome State Fault Refusal) :
    withDecoder r o = mapNext (·.setDec r) o := by
  cases o <;> rfl

/-- A step blind to a replacement that changes nothing in `s` leaves what it replaces. -/
theorem step_next_fixed {f : State → State} {s t : State} (hs : f s = s) (hb : step (f s) = mapNext f (step s))
    (h : step s = .next t) : t = f t := by
  rw [hs, h] at hb
  exact Host.Outcome.next.inj hb

/-- A step of DECOMPRESS leaves `HT` and the encoder's registers (R14, R16). -/
theorem step_keeps_encoder {s t : State} (hb : s.status = .busy) (hp : isDecoding s.phase = true)
    (h : step s = .next t) : t.ht = s.ht ∧ t.enc = s.enc := by
  have hfix := step_next_fixed rfl (step_setEncoder s.ht s.enc hb hp) h
  exact ⟨(congrArg State.ht hfix :), (congrArg State.enc hfix :)⟩

/-- A step of the encode direction or of a command's start leaves the decoder's registers (R17). -/
theorem step_keeps_dec {s t : State} (hb : s.status = .busy) (hp : isDecoding s.phase = false)
    (h : step s = .next t) : t.dec = s.dec :=
  (congrArg State.dec (step_next_fixed (f := (·.setDec s.dec)) rfl (step_setDec s.dec hb hp) h) :)

/-- Settles O48: every part of a direction is blind to the other's registers, and the frame is the case of a replacement
by the values held already. -/
theorem directionsShareNoState : Obligations.DirectionsShareNoState := by
  unfold Obligations.DirectionsShareNoState
  refine ⟨fun s t hb h => ⟨fun hp => step_keeps_encoder hb hp h, fun hp => step_keeps_dec hb hp h⟩,
    fun s ht e hb hp => ?_, fun s r hb hp => ?_⟩
  · rw [withEncoder_eq_mapNext]
    exact step_setEncoder ht e hb hp
  · rw [withDecoder_eq_mapNext]
    exact step_setDec r hb hp

end Sys2Proof.Machine
end

section
/-! SUPPORT. What one step of a running command can do, said once: `Transition` has one constructor per arrow of R106
and R120 and per way a command ends, and `step_transition` inverts a step into it. -/

namespace Sys2Proof.Machine

/-! ## Emissions -/

/-- The state after an emission at the encoder's cursor (R35, R80, R81). -/
def State.emitted (s : State) (bytes : List Byte) : State :=
  (s.setDst (Memory.putBytes s.dst s.enc.d bytes)).setEnc { s.enc with d := s.enc.d + bytes.length }

/-- An emission that is performed ends inside the capacity (R34 (b)). -/
theorem State.emit_eq_emitted {s t : State} {bytes : List Byte} (h : s.emit bytes = .ok t) :
    (s.emitted bytes).enc.d ≤ s.dstCap.toNat ∧ t = s.emitted bytes := State.emit_eq_ok.1 h

/-- `EMIT.LIT` answers the emission of the literal's bytes (R80). -/
theorem emitLit_emitted {a n : Nat} {s t : State} (h : emitLit a n s = .ok t) :
    (1 ≤ n ∧ a + n ≤ s.srcLen.toNat) ∧ (s.emitted (literalTag n ++ s.srcBytes a n)).enc.d ≤ s.dstCap.toNat ∧
      t = s.emitted (literalTag n ++ s.srcBytes a n) := by
  obtain ⟨⟨h1, -⟩, hs, he⟩ := emitLit_eq_ok.1 h
  exact ⟨⟨h1, hs⟩, State.emit_eq_emitted he⟩

/-! ## Commands and headers -/

theorem maxEncodedLength_eq_some {n r : Nat} (h : maxEncodedLength n = some r) : r = Config.bound n := by
  unfold maxEncodedLength at h
  split at h
  · cases h
  · split at h
    · cases h
    · exact (Option.some.inj h).symm

/-- A varint has at least one byte (R51). -/
theorem decodeVarint_pos {fuel : Nat} {bytes : List Byte} {x n : Nat}
    (h : decodeVarint fuel bytes = .ok (x, n)) : 1 ≤ n := by
  revert h
  fun_cases decodeVarint fuel bytes <;> intro h <;> cases h <;> omega

theorem decodeHeader_eq_ok {bytes : List Byte} {i : Instr} (h : decodeHeader bytes = .ok i) :
    ∃ value len, i = .hdr value len ∧ 1 ≤ len := by
  unfold decodeHeader at h
  split at h
  · next hv => exact ⟨_, _, (Except.ok.inj h).symm, decodeVarint_pos hv⟩
  · cases h

/-- The only instructions a token's bytes decode to are the eight tokens (R52). -/
theorem decodeToken_ne_hdr {bytes : List Byte} {value len : Nat} : decodeToken bytes ≠ .ok (.hdr value len) := by
  fun_cases decodeToken bytes <;> simp

/-! ## Tokens -/

/-- The states in which a token's body runs: the token about to be run, or one just fetched, its operands in `length`
and `offset` and the cursor past its tag and trailing bytes (R121 to R129). -/
inductive Fetched (s : State) : State → Prop
  | here (hp : s.phase = .dLit ∨ s.phase = .dCopy) : Fetched s s
  | token {head length offset : Nat} (p : Phase) (hp : s.phase = .dFetch) (hs : s.dec.s + head ≤ s.dec.bodyLen)
      (hl : length ≤ 2 ^ 32) (ho : offset < 2 ^ 32 ∨ offset = s.dec.offset) :
      Fetched s
        ((s.setDec { s.dec with length := length, offset := offset, s := s.dec.s + head }).setPhase p)

/-- COMPRESS after its header, `in_pos` at the start of the input (R112). -/
def State.headerEmitted (s : State) : State :=
  let t := (s.setEnc { s.enc with d := 0 }).emitted (hdrEnc s.srcLen.toNat)
  t.setEnc { t.enc with inPos := 0 }

/-! ## The chunk loop and the phases of `ENC.BLOCK` -/

/-- A chunk of `n` bytes is next (R113). -/
def State.withChunk (s : State) (n : Nat) : State := s.setEnc { s.enc with blkLen := n }

/-- The next chunk's `n` bytes as one literal (R114). -/
def State.shortEmitted (s : State) (n : Nat) : State :=
  (s.withChunk n).emitted (literalTag n ++ (s.withChunk n).srcBytes s.enc.inPos n)

/-- The block encoder at its first probe (R91, R94, R95). -/
def State.blockStarted (s : State) : State :=
  ((s.setHt (Table.clear s.ht (tableGeometry s.enc.blkLen).1)).setEnc
    { s.enc with
      tableSize := (tableGeometry s.enc.blkLen).1, shift := (tableGeometry s.enc.blkLen).2,
      sLimit := s.enc.blkLen - Config.inputMargin, nextEmit := 0, s := 1,
      nextHash := hash (tableGeometry s.enc.blkLen).2 (s.fp 1) }).enterSearch

/-- The registers after the cursor of the search has moved on (R96). -/
def EncRegs.advanced (e : EncRegs) : EncRegs :=
  { e with s := e.nextS, nextS := e.nextS + e.skip >>> 5, skip := e.skip + e.skip >>> 5 }

/-- The candidate a probe reads (R96). -/
def State.probeCandidate (s : State) : Nat := (Table.entry s.ht s.enc.nextHash).toNat

/-- After a probe: its entry overwritten, its candidate and the next hash in their registers (R96). -/
def State.probed (s : State) : State :=
  (s.setHt (Table.put s.ht s.enc.nextHash (BitVec.ofNat 16 s.enc.nextS))).setEnc
    { s.enc.advanced with
      candidate := s.probeCandidate, nextHash := hash s.enc.shift (s.fp (s.enc.nextS + s.enc.skip >>> 5)) }

/-- The pending bytes of the chunk up to `q`, as one literal (R98, R103). -/
def State.pendingEmitted (s : State) (q : Nat) : State :=
  s.emitted (literalTag (q - s.enc.nextEmit) ++ s.srcBytes (s.enc.inPos + s.enc.nextEmit) (q - s.enc.nextEmit))

/-- After the copy token of a match that ends at `p` (R99, R100). -/
def State.copied (s : State) (p : Nat) : State :=
  let t := (s.setEnc { s.enc with base := s.enc.s, s := p }).emitted
    (copyBytes (s.enc.s - s.enc.candidate) (p - s.enc.s))
  t.setEnc { t.enc with nextEmit := p }

/-- After the first insertion of R102, the one at `s - 1`. -/
def State.firstInserted (s : State) : State :=
  s.setHt (Table.put s.ht (hash s.enc.shift (s.fp (s.enc.s - 1))) (BitVec.ofNat 16 (s.enc.s - 1)))

/-- The candidate of an immediate re-match, read after the first insertion (R102, R41). -/
def State.rematchCandidate (s : State) : Nat :=
  (Table.entry s.firstInserted.ht (hash s.enc.shift (s.fp s.enc.s))).toNat

/-- After both insertions of R102, the candidate in its register. -/
def State.reinserted (s : State) : State :=
  (s.setHt
    (Table.put s.firstInserted.ht (hash s.enc.shift (s.fp s.enc.s)) (BitVec.ofNat 16 s.enc.s))).setEnc
    { s.enc with candidate := s.rematchCandidate }

/-- The search resumes after re-insertion found no match (R102). -/
def State.resumed (s : State) : State :=
  (s.reinserted.setEnc
    { s.reinserted.enc with nextHash := hash s.enc.shift (s.fp (s.enc.s + 1)), s := s.enc.s + 1 }).enterSearch

theorem blockInit_cases {s t : State} (h : blockInit s = .ok t) :
    (Config.minNonLiteralBlock ≤ s.enc.blkLen ∧ s.enc.blkLen ≤ Config.maxBlockSize) ∧ t = s.blockStarted := by
  unfold blockInit at h
  split at h
  · cases h
  · next hd =>
    obtain ⟨nh, hn, h⟩ := Except.bind_eq_ok.1 h
    obtain ⟨-, rfl⟩ := State.hashAt_eq_ok.1 hn
    exact ⟨by omega, (Except.ok.inj h).symm⟩

theorem blockMatch_cases {s t : State} (h : blockMatch s = .ok t) :
    (s.pendingEmitted s.enc.s).enc.d ≤ s.dstCap.toNat ∧
      t = (s.pendingEmitted s.enc.s).setPhase .bCopy := by
  obtain ⟨u, hu, h⟩ := Except.bind_eq_ok.1 h
  obtain ⟨-, hd, rfl⟩ := emitLit_emitted hu
  exact ⟨hd, (Except.ok.inj h).symm⟩

theorem blockRemainder_cases {s t : State} (h : blockRemainder s = .ok t) :
    (s.enc.nextEmit < s.enc.blkLen ∧ (s.pendingEmitted s.enc.blkLen).enc.d ≤ s.dstCap.toNat ∧
      t = (s.pendingEmitted s.enc.blkLen).nextChunk) ∨
    (s.enc.blkLen ≤ s.enc.nextEmit ∧ t = s.nextChunk) := by
  unfold blockRemainder at h
  split at h
  · next hn =>
    obtain ⟨u, hu, h⟩ := Except.bind_eq_ok.1 h
    obtain ⟨-, hd, rfl⟩ := emitLit_emitted hu
    exact .inl ⟨hn, hd, (Except.ok.inj h).symm⟩
  · next hn => exact .inr ⟨by omega, (Except.ok.inj h).symm⟩

/-- An extended match ends no earlier than it was reached and inside the chunk (R99). -/
theorem State.extendMatch_bounds {s : State} {fuel i p q : Nat} (h : s.extendMatch fuel i p = .ok q) :
    p ≤ q ∧ (q = p ∨ q ≤ s.enc.blkLen) := by
  induction fuel generalizing i p with
  | zero => cases h; exact ⟨le_rfl, .inl rfl⟩
  | succ fuel ih =>
    unfold State.extendMatch at h
    split at h
    · next hp =>
      obtain ⟨x, -, h⟩ := Except.bind_eq_ok.1 h
      obtain ⟨y, -, h⟩ := Except.bind_eq_ok.1 h
      split at h
      · have := ih h
        omega
      · cases h; exact ⟨le_rfl, .inl rfl⟩
    · cases h; exact ⟨le_rfl, .inl rfl⟩

theorem blockReinsert_cases {s t : State} (h : blockReinsert s = .ok t) :
    (s.fp s.enc.s = s.fp s.rematchCandidate ∧ t = s.reinserted.setPhase .bCopy) ∨ t = s.resumed := by
  obtain ⟨prev, hp, h⟩ := Except.bind_eq_ok.1 h
  obtain ⟨t1, h1, h⟩ := Except.bind_eq_ok.1 h
  obtain ⟨curr, hc, h⟩ := Except.bind_eq_ok.1 h
  obtain ⟨cand, hcand, h⟩ := Except.bind_eq_ok.1 h
  obtain ⟨t2, h2, h⟩ := Except.bind_eq_ok.1 h
  obtain ⟨fs, hfs, h⟩ := Except.bind_eq_ok.1 h
  obtain ⟨fc, hfc, h⟩ := Except.bind_eq_ok.1 h
  obtain ⟨-, rfl⟩ := State.hashAt_eq_ok.1 hp
  obtain ⟨-, rfl⟩ := State.writeHt_eq_ok.1 h1
  obtain ⟨-, rfl⟩ := State.hashAt_eq_ok.1 hc
  obtain ⟨-, rfl⟩ := State.readHt_eq_ok.1 hcand
  obtain ⟨-, rfl⟩ := State.writeHt_eq_ok.1 h2
  obtain ⟨-, rfl⟩ := State.fingerprint_eq_ok.1 hfs
  obtain ⟨-, rfl⟩ := State.fingerprint_eq_ok.1 hfc
  split at h
  · next he => exact .inl ⟨he, (Except.ok.inj h).symm⟩
  · obtain ⟨nh, hn, h⟩ := Except.bind_eq_ok.1 h
    obtain ⟨-, rfl⟩ := State.hashAt_eq_ok.1 hn
    exact .inr (Except.ok.inj h).symm

theorem blockCopy_cases {s t : State} (h : blockCopy s = .ok t) :
    ∃ p, (s.enc.s + 4 ≤ p ∧ (p = s.enc.s + 4 ∨ p ≤ s.enc.blkLen)) ∧
      (s.copied p).enc.d ≤ s.dstCap.toNat ∧
      ((s.enc.sLimit ≤ p ∧ t = (s.copied p).setPhase .bRemainder) ∨
       (p < s.enc.sLimit ∧ blockReinsert (s.copied p) = .ok t)) := by
  obtain ⟨p, hp, h⟩ := Except.bind_eq_ok.1 h
  obtain ⟨u, hu, h⟩ := Except.bind_eq_ok.1 h
  obtain ⟨-, he⟩ := emitCopy_eq_ok.1 hu
  obtain ⟨hd, rfl⟩ := State.emit_eq_emitted he
  refine ⟨p, State.extendMatch_bounds hp, hd, ?_⟩
  split at h
  · next hl => exact .inl ⟨hl, (Except.ok.inj h).symm⟩
  · next hl => exact .inr ⟨by omega, h⟩

/-! ## The transitions -/

/-- What one step of a running command may leave: one constructor per way a command ends and per arrow of R106 and
R120, with the tests that lead there. -/
inductive Transition (s : State) : State → Prop
  /-- MAXLEN's error and a bad command (R111, R63). -/
  | raiseQuiet {k : ErrKind} (hk : k ≠ .noError) : Transition s (s.raiseQuiet k)
  /-- MAXLEN completes (R111). -/
  | finishQuiet (n : Nat) : Transition s (s.finishQuiet n)
  /-- An error before any register is written (R151). -/
  | raise {k : ErrKind} (hk : k ≠ .noError) : Transition s (s.raise k)
  /-- An error of a token whose operands are set (R126, R130). -/
  | tokenRaises {u : State} {k : ErrKind} (hf : Fetched s u) (hk : k ≠ .noError) : Transition s (u.raise k)
  /-- DECOMPRESS completes (R134, R142). -/
  | decoded (hp : s.phase = .dEnd) (hd : s.dec.d = s.dec.destLen) : Transition s (s.finish s.dec.destLen)
  /-- COMPRESS completes (R115). -/
  | encoded (hp : s.phase = .eChunk) : Transition s (s.finish s.enc.d)
  /-- DECOMPRESS turns to its header (R140). -/
  | decompressStarts (hp : s.phase = .cStart) : Transition s (s.setPhase .hDec)
  /-- The header was read (R71). -/
  | headerRead {value len : Nat} (hp : s.phase = .hDec) (h1 : 1 ≤ len) (hlen : len ≤ s.srcLen.toNat)
      (hmax : len ≤ Config.varintMaxBytes) (hv : value ≤ Config.lenMax) :
      Transition s ((s.setDec { s.dec with destLen := value, hdrLen := len }).setPhase .dInit)
  /-- The capacity suffices (R140, R141). -/
  | bodyStarts (hp : s.phase = .dInit) (hcap : s.dec.destLen ≤ s.dstCap.toNat) :
      Transition s
        ((s.setDec { s.dec with bodyLen := s.srcLen.toNat - s.dec.hdrLen, s := 0, d := 0 }).setPhase .dFetch)
  /-- The body has ended (R120). -/
  | bodyEnds (hp : s.phase = .dFetch) (hs : s.dec.bodyLen ≤ s.dec.s) : Transition s (s.setPhase .dEnd)
  /-- A literal completes (R126). -/
  | literalRuns {u : State} (hf : Fetched s u) (hd : u.dec.length ≤ u.dec.destLen - u.dec.d) (h0 : 0 < u.dec.length)
      (hs : u.dec.length ≤ u.dec.bodyLen - u.dec.s) (hcap : u.dec.d + u.dec.length ≤ u.dstCap.toNat) :
      Transition s
        (((u.setDst (Memory.putBytes u.dst u.dec.d (u.srcBytes (u.dec.hdrLen + u.dec.s) u.dec.length))).setDec
          { u.dec with d := u.dec.d + u.dec.length, s := u.dec.s + u.dec.length }).setPhase .dFetch)
  /-- A copy completes (R130 to R133). -/
  | copyRuns {u : State} (hf : Fetched s u) (hd : u.dec.length ≤ u.dec.destLen - u.dec.d)
      (hcap : u.dec.d + u.dec.length ≤ u.dstCap.toNat) :
      Transition s
        (((u.copyLoop u.dec.offset u.dec.d u.dec.length).setDec
          { u.dec with d := u.dec.d + u.dec.length }).setPhase .dFetch)
  /-- COMPRESS wrote the header (R112). -/
  | compressStarts (hp : s.phase = .cStart) (hcap : Config.bound s.srcLen.toNat ≤ s.dstCap.toNat)
      (hd : s.headerEmitted.enc.d ≤ s.dstCap.toNat) : Transition s (s.headerEmitted.setPhase .eChunk)
  /-- A short chunk is one literal (R114). -/
  | shortChunk {n : Nat} (hp : s.phase = .eChunk) (hn : n = s.srcLen.toNat - s.enc.inPos) (h1 : 1 ≤ n) (h17 : n < 17)
      (hd : (s.shortEmitted n).enc.d ≤ s.dstCap.toNat) : Transition s (s.shortEmitted n).nextChunk
  /-- A chunk goes to the block encoder (R113). -/
  | longChunk {n : Nat} (hp : s.phase = .eChunk) (hn : n = min (s.srcLen.toNat - s.enc.inPos) Config.maxBlockSize)
      (h17 : Config.minNonLiteralBlock ≤ n) : Transition s ((s.withChunk n).setPhase .bInit)
  /-- The block encoder starts (R91 to R95). -/
  | blockStarts (hp : s.phase = .bInit) : Transition s s.blockStarted
  /-- The search has reached the margin (R96). -/
  | searchEnds (hp : s.phase = .bSearch) : Transition s ((s.setEnc s.enc.advanced).setPhase .bRemainder)
  /-- A probe without a match (R96). -/
  | miss (hp : s.phase = .bSearch) (hl : s.enc.advanced.nextS ≤ s.enc.sLimit) :
      Transition s (s.probed.setPhase .bSearch)
  /-- A probe with a verified match (R97). -/
  | hit (hp : s.phase = .bSearch) (hl : s.enc.advanced.nextS ≤ s.enc.sLimit)
      (he : s.fp s.enc.nextS = s.fp s.probeCandidate) : Transition s (s.probed.setPhase .bMatch)
  /-- The pending literal of a match (R98). -/
  | pending (hp : s.phase = .bMatch)
      (hd : (s.pendingEmitted s.enc.s).enc.d ≤ s.dstCap.toNat) :
      Transition s ((s.pendingEmitted s.enc.s).setPhase .bCopy)
  /-- A copy that ends the block (R101). -/
  | copyEnds {p : Nat} (hp : s.phase = .bCopy) (hq : s.enc.s + 4 ≤ p ∧ (p = s.enc.s + 4 ∨ p ≤ s.enc.blkLen))
      (hd : (s.copied p).enc.d ≤ s.dstCap.toNat) :
      Transition s ((s.copied p).setPhase .bRemainder)
  /-- A copy with an immediate re-match (R102). -/
  | rematch {p : Nat} (hp : s.phase = .bCopy) (hq : s.enc.s + 4 ≤ p) (hl : p < s.enc.sLimit)
      (hd : (s.copied p).enc.d ≤ s.dstCap.toNat)
      (he : (s.copied p).fp (s.copied p).enc.s = (s.copied p).fp (s.copied p).rematchCandidate) :
      Transition s ((s.copied p).reinserted.setPhase .bCopy)
  /-- A copy after which the search resumes (R102). -/
  | resume {p : Nat} (hp : s.phase = .bCopy) (hq : s.enc.s + 4 ≤ p) (hl : p < s.enc.sLimit)
      (hd : (s.copied p).enc.d ≤ s.dstCap.toNat) :
      Transition s (s.copied p).resumed
  /-- The chunk's last literal (R103). -/
  | remainder (hp : s.phase = .bRemainder) (hn : s.enc.nextEmit < s.enc.blkLen)
      (hd : (s.pendingEmitted s.enc.blkLen).enc.d ≤ s.dstCap.toNat) :
      Transition s (s.pendingEmitted s.enc.blkLen).nextChunk
  /-- A chunk with nothing pending (R103). -/
  | noRemainder (hp : s.phase = .bRemainder) (hn : s.enc.blkLen ≤ s.enc.nextEmit) : Transition s s.nextChunk

/-! ## Every step is one of them -/

section Steps

variable {s t : State}

theorem Transition.of_literalBody {u : State} (hf : Fetched s u) (h : literalBody u = .ok t) : Transition s t := by
  obtain rfl | ⟨h0, hd, hs, -, hcap, rfl⟩ := literalBody_cases h
  · exact .tokenRaises hf (by decide)
  · exact .literalRuns hf hd h0 hs hcap

theorem Transition.of_copyBody {u : State} (hf : Fetched s u) (h : copyBody u = .ok t) : Transition s t := by
  obtain rfl | ⟨-, -, hd, hcap, rfl⟩ := copyBody_cases h
  · exact .tokenRaises hf (by decide)
  · exact .copyRuns hf hd hcap

theorem Transition.of_literal {head length : Nat} (hp : s.phase = .dFetch) (hs : s.dec.s + head ≤ s.dec.bodyLen)
    (hl : length ≤ 2 ^ 32) (h : literal head length s = .ok t) : Transition s t :=
  .of_literalBody (.token .dLit hp hs hl (.inr rfl)) h

theorem Transition.of_longLiteral {w head : Nat} {m : BitVec w} (hw : w ≤ 32) (hp : s.phase = .dFetch)
    (h : longLiteral head (literalLength m) s = .ok t) : Transition s t := by
  unfold longLiteral at h
  split at h
  · cases h; exact .raise (by decide)
  · next hs =>
    have hm : m.toNat < 2 ^ 32 := m.isLt.trans_le (Nat.pow_le_pow_right (by decide) hw)
    exact .of_literal hp (by omega) hm h

theorem Transition.of_copy {w head length : Nat} {offset : BitVec w} (hw : w ≤ 32) (hl : length ≤ 68)
    (hp : s.phase = .dFetch) (h : copy head length (copyOffset offset) s = .ok t) : Transition s t := by
  unfold copy at h
  split at h
  · cases h; exact .raise (by decide)
  · next hs =>
    have ho : offset.toNat < 2 ^ 32 := offset.isLt.trans_le (Nat.pow_le_pow_right (by decide) hw)
    exact .of_copyBody (.token .dCopy hp (by omega) (by omega) (.inl ho)) h

/-- A token that was fetched inside the body (R120 to R133). -/
theorem Transition.of_token {bytes : List Byte} {i : Instr} (hp : s.phase = .dFetch) (hs : s.dec.s < s.dec.bodyLen)
    (hd : decodeToken bytes = .ok i) (h : exec i s = .next t) : Transition s t := by
  have hi := decode_isCommand (c := .token bytes) hd
  cases i with
  | litS m =>
    have := m.isLt
    exact .of_literal (head := 1) hp (by omega) (by unfold literalLength; omega) (Run.outcome_eq_next.1 h)
  | lit1 m | lit2 m | lit3 m | lit4 m => exact .of_longLiteral (by decide) hp (Run.outcome_eq_next.1 h)
  | copy1 l offset =>
    exact .of_copy (by decide) (by unfold copy1Length; omega) hp (Run.outcome_eq_next.1 h)
  | copy2 l offset | copy4 l offset =>
    exact .of_copy (by decide) (by unfold copyLength; omega) hp (Run.outcome_eq_next.1 h)
  | hdr value len => exact absurd hd decodeToken_ne_hdr
  | compress | decompress | maxlen => cases hi

/-- A header that was decoded (R71, R72). -/
theorem Transition.of_execHdr {value len : Nat} (hp : s.phase = .hDec) (h1 : 1 ≤ len)
    (h : execHdr value len s = .next t) : Transition s t := by
  have h := Run.outcome_eq_next.1 h
  split at h
  · cases h; exact .raise (by decide)
  split at h
  · cases h; exact .raise (by decide)
  split at h
  · cases h; exact .raise (by decide)
  split at h
  · cases h; exact .raise (by decide)
  cases h
  exact .headerRead hp h1 (by omega) (by omega) (by omega)

theorem Transition.of_execMaxlen (h : execMaxlen s = .next t) :
    Transition s t := by
  unfold execMaxlen at h
  split at h <;> cases h
  · exact .raiseQuiet (by decide)
  · exact .finishQuiet _

theorem Transition.of_execCompress (hp : s.phase = .cStart) (h : execCompress s = .next t) : Transition s t := by
  unfold execCompress at h
  split at h
  · cases h; exact .raise (by decide)
  · next r hr =>
    split at h
    · cases h; exact .raise (by decide)
    · obtain ⟨u, hu, h⟩ := Except.bind_eq_ok.1 (Run.outcome_eq_next.1 h)
      obtain ⟨hd, rfl⟩ := State.emit_eq_emitted hu
      cases h
      have hcap := maxEncodedLength_eq_some hr
      exact .compressStarts hp (by omega) hd

/-- A command that was decoded (R63). -/
theorem Transition.of_command {i : Instr} (hp : s.phase = .cStart) (hd : decodeCommand s.cmd = .ok i)
    (h : exec i s = .next t) : Transition s t := by
  have hi := decode_isCommand (c := .command s.cmd) hd
  cases i <;> cases hi
  case compress => exact .of_execCompress hp h
  case decompress => cases h; exact .decompressStarts hp
  case maxlen => exact .of_execMaxlen h

theorem Transition.of_decodeInit (hp : s.phase = .dInit) (h : decodeInit s = .ok t) : Transition s t := by
  unfold decodeInit at h
  split at h <;> cases h
  · exact .raise (by decide)
  · exact .bodyStarts hp (by omega)

theorem Transition.of_decodeEnd (hp : s.phase = .dEnd) (h : decodeEnd s = .ok t) : Transition s t := by
  unfold decodeEnd at h
  split at h <;> cases h
  · exact .raise (by decide)
  · next hd => exact .decoded hp (not_not.1 hd)

theorem Transition.of_chunkLoop (hp : s.phase = .eChunk) (h : chunkLoop s = .ok t) : Transition s t := by
  unfold chunkLoop at h
  split at h
  · generalize hn : min (s.srcLen.toNat - s.enc.inPos) Config.maxBlockSize = n at h
    change (if n < Config.minNonLiteralBlock then
      (emitLit s.enc.inPos n (s.withChunk n) >>= fun u => .ok u.nextChunk)
      else .ok ((s.withChunk n).setPhase .bInit)) = .ok t at h
    split at h
    · next h17 =>
      obtain ⟨v, hv, h⟩ := Except.bind_eq_ok.1 h
      obtain ⟨⟨h1, -⟩, hd, rfl⟩ := emitLit_emitted hv
      cases h
      have hmax : Config.minNonLiteralBlock < Config.maxBlockSize := by decide
      exact .shortChunk hp (by omega) h1 h17 hd
    · cases h; exact .longChunk hp hn.symm (by omega)
  · cases h; exact .encoded hp

theorem Transition.of_blockSearch (hp : s.phase = .bSearch) (h : blockSearch s = .ok t) : Transition s t := by
  obtain ⟨-, rfl⟩ | ⟨hl, -, cand, fs, fc, rfl, rfl, rfl, rfl⟩ := blockSearch_cases h
  · exact .searchEnds hp
  · split
    · next he => exact .hit hp hl he
    · exact .miss hp hl

theorem Transition.of_blockCopy (hp : s.phase = .bCopy) (h : blockCopy s = .ok t) : Transition s t := by
  obtain ⟨p, hq, hd, ⟨-, rfl⟩ | ⟨hl, hr⟩⟩ := blockCopy_cases h
  · exact .copyEnds hp hq hd
  · obtain ⟨he, rfl⟩ | rfl := blockReinsert_cases hr
    · exact .rematch hp hq.1 hl hd he
    · exact .resume hp hq.1 hl hd

theorem Transition.of_blockRemainder (hp : s.phase = .bRemainder) (h : blockRemainder s = .ok t) :
    Transition s t := by
  obtain ⟨hn, hd, rfl⟩ | ⟨hn, rfl⟩ := blockRemainder_cases h
  · exact .remainder hp hn hd
  · exact .noRemainder hp hn

/-- Bits that are no instruction raise (R63, R71, R60). -/
theorem Transition.of_rejectCode {e : DecodeError} (h : rejectCode e s = .ok t) : Transition s t := by
  cases e <;> cases h
  case badCommand => exact .raiseQuiet (by decide)
  case noTag | truncatedToken | headerEnds | headerTooLong => exact .raise (by decide)

/-- The instruction the fetched bits decode to. -/
theorem Transition.of_instruction {c : Code} {i : Instr} (hw : s.work = .instruction c) (hd : decode c = .ok i)
    (h : exec i s = .next t) : Transition s t := by
  unfold State.work fetchOrEnd at hw
  cases hp : s.phase <;> rw [hp] at hw <;> simp only [reduceCtorEq, Work.instruction.injEq] at hw
  case cStart => subst hw; exact .of_command hp hd h
  case hDec =>
    subst hw
    obtain ⟨value, len, rfl, h1⟩ := decodeHeader_eq_ok hd
    exact .of_execHdr hp h1 h
  case dFetch =>
    split at hw
    · cases hw
    · next hs =>
      split at hw <;> cases hw
      exact .of_token hp (by omega) hd h

/-- A phase's own work. -/
theorem Transition.of_phaseRun {r : Run} (hw : s.work = .phaseRun r) (h : r = .ok t) : Transition s t := by
  subst h
  unfold State.work fetchOrEnd at hw
  cases hp : s.phase <;> rw [hp] at hw <;> simp only [reduceCtorEq, Work.phaseRun.injEq] at hw
  case dInit => exact .of_decodeInit hp hw
  case dFetch =>
    split at hw
    · next hs => cases hw; exact .bodyEnds hp hs
    · split at hw <;> cases hw
  case dLit => exact .of_literalBody (.here (.inl hp)) hw
  case dCopy => exact .of_copyBody (.here (.inr hp)) hw
  case dEnd => exact .of_decodeEnd hp hw
  case eChunk => exact .of_chunkLoop hp hw
  case bInit => obtain ⟨-, rfl⟩ := blockInit_cases hw; exact .blockStarts hp
  case bSearch => exact .of_blockSearch hp hw
  case bMatch => obtain ⟨hd, rfl⟩ := blockMatch_cases hw; exact .pending hp hd
  case bCopy => exact .of_blockCopy hp hw
  case bRemainder => exact .of_blockRemainder hp hw

end Steps

/-- Everything a step of a running command can do. -/
theorem step_transition {s t : State} (hb : s.status = .busy) (h : step s = .next t) : Transition s t := by
  obtain ⟨hq, -⟩ | ⟨-, ⟨c, i, hw, hd, hx⟩ | ⟨c, e, -, -, hr⟩ | ⟨r, hw, hr⟩⟩ := step_cases h
  · exact absurd hb hq
  · exact .of_instruction hw hd hx
  · exact .of_rejectCode hr
  · exact .of_phaseRun hw hr

end Sys2Proof.Machine
end

section
/-! PROOF of O7, O42 to O47, O49: what steps and host moves leave of the CSRs, the inputs and `DST`. -/

namespace Sys2Proof.Machine

open Sys2Proof.Safety Sys2Proof.Claims

/-! ## The frame of a step that goes on -/

/-- `t` keeps everything of `s` but `DST`, `HT`, the working registers and the phase. -/
structure WorkFrame (s t : State) : Prop where
  inputs : SameInputs s t
  status : t.status = s.status
  err : t.err = s.err
  outLen : t.outLen = s.outLen
  dstUnspec : t.dstUnspec = s.dstUnspec

section Frames

variable {s t u : State}

theorem WorkFrame.refl (s : State) : WorkFrame s s := ⟨⟨rfl, rfl, rfl, rfl, rfl, rfl⟩, rfl, rfl, rfl, rfl⟩

theorem WorkFrame.setPhase (h : WorkFrame s t) (p : Phase) : WorkFrame s (t.setPhase p) := { h with }
theorem WorkFrame.setEnc (h : WorkFrame s t) (e : EncRegs) : WorkFrame s (t.setEnc e) := { h with }
theorem WorkFrame.setDec (h : WorkFrame s t) (r : DecRegs) : WorkFrame s (t.setDec r) := { h with }
theorem WorkFrame.setDst (h : WorkFrame s t) (m : Memory) : WorkFrame s (t.setDst m) := { h with }
theorem WorkFrame.setHt (h : WorkFrame s t) (m : Table) : WorkFrame s (t.setHt m) := { h with }

theorem WorkFrame.copyLoop (h : WorkFrame s t) (offset d n : Nat) : WorkFrame s (t.copyLoop offset d n) := by
  rw [State.copyLoop_eq_setDst]
  exact h.setDst _

theorem WorkFrame.emitted (h : WorkFrame s t) (bytes : List Byte) : WorkFrame s (t.emitted bytes) :=
  (h.setDst _).setEnc _

theorem WorkFrame.nextChunk (h : WorkFrame s t) : WorkFrame s t.nextChunk := (h.setEnc _).setPhase _

theorem WorkFrame.enterSearch (h : WorkFrame s t) : WorkFrame s t.enterSearch := (h.setEnc _).setPhase _

theorem WorkFrame.reinserted (h : WorkFrame s t) : WorkFrame s t.reinserted := (h.setHt _).setEnc _

theorem WorkFrame.resumed (h : WorkFrame s t) : WorkFrame s t.resumed := (h.reinserted.setEnc _).enterSearch

theorem workFrame_copied (s : State) (p : Nat) : WorkFrame s (s.copied p) :=
  (((WorkFrame.refl s).setEnc _).emitted _).setEnc _

theorem workFrame_probed (s : State) : WorkFrame s s.probed := ((WorkFrame.refl s).setHt _).setEnc _

theorem workFrame_blockStarted (s : State) : WorkFrame s s.blockStarted :=
  (((WorkFrame.refl s).setHt _).setEnc _).enterSearch

theorem workFrame_headerEmitted (s : State) : WorkFrame s s.headerEmitted :=
  (((WorkFrame.refl s).setEnc _).emitted _).setEnc _

theorem workFrame_shortEmitted (s : State) (n : Nat) : WorkFrame s (s.shortEmitted n) :=
  ((WorkFrame.refl s).setEnc _).emitted _

theorem workFrame_pendingEmitted (s : State) (q : Nat) : WorkFrame s (s.pendingEmitted q) :=
  (WorkFrame.refl s).emitted _

theorem Fetched.workFrame (h : Fetched s u) : WorkFrame s u := by
  cases h with
  | here => exact .refl s
  | token => exact ((WorkFrame.refl s).setDec _).setPhase _

theorem Fetched.dst (h : Fetched s u) : u.dst = s.dst := by cases h <;> rfl

theorem Fetched.ht (h : Fetched s u) : u.ht = s.ht := by cases h <;> rfl

theorem Fetched.dstCap (h : Fetched s u) : u.dstCap = s.dstCap := by cases h <;> rfl

theorem Fetched.dec_d (h : Fetched s u) : u.dec.d = s.dec.d := by cases h <;> rfl

/-- How a command ends (R15, R151): with an error, or with a result. -/
inductive Ends (u : State) : State → Prop
  | raise {k : ErrKind} (hk : k ≠ .noError) : Ends u (u.raise k)
  | raiseQuiet {k : ErrKind} (hk : k ≠ .noError) : Ends u (u.raiseQuiet k)
  | finish (n : Nat) : Ends u (u.finish n)
  | finishQuiet (n : Nat) : Ends u (u.finishQuiet n)

/-- Every transition goes on, or ends the command when only registers have changed. -/
theorem Transition.frame (h : Transition s t) :
    WorkFrame s t ∨ ∃ u, WorkFrame s u ∧ u.dst = s.dst ∧ Ends u t := by
  have hs := WorkFrame.refl s
  cases h with
  | raiseQuiet hk => exact .inr ⟨s, hs, rfl, .raiseQuiet hk⟩
  | finishQuiet n => exact .inr ⟨s, hs, rfl, .finishQuiet n⟩
  | raise hk => exact .inr ⟨s, hs, rfl, .raise hk⟩
  | tokenRaises hf hk => exact .inr ⟨_, hf.workFrame, hf.dst, .raise hk⟩
  | decoded | encoded => exact .inr ⟨s, hs, rfl, .finish _⟩
  | decompressStarts | bodyEnds => exact .inl (hs.setPhase _)
  | headerRead | bodyStarts => exact .inl ((hs.setDec _).setPhase _)
  | literalRuns hf => exact .inl (((hf.workFrame.setDst _).setDec _).setPhase _)
  | copyRuns hf => exact .inl (((hf.workFrame.copyLoop _ _ _).setDec _).setPhase _)
  | compressStarts => exact .inl ((workFrame_headerEmitted s).setPhase _)
  | shortChunk => exact .inl (workFrame_shortEmitted s _).nextChunk
  | longChunk | searchEnds => exact .inl ((hs.setEnc _).setPhase _)
  | blockStarts => exact .inl (workFrame_blockStarted s)
  | miss | hit => exact .inl ((workFrame_probed s).setPhase _)
  | pending => exact .inl ((workFrame_pendingEmitted s _).setPhase _)
  | copyEnds => exact .inl ((workFrame_copied s _).setPhase _)
  | rematch => exact .inl ((workFrame_copied s _).reinserted.setPhase _)
  | resume => exact .inl (workFrame_copied s _).resumed
  | remainder => exact .inl (workFrame_pendingEmitted s _).nextChunk
  | noRemainder => exact .inl hs.nextChunk

theorem Transition.workFrame (h : Transition s t) (hb : t.status = .busy) : WorkFrame s t := by
  obtain hw | ⟨u, -, -, he⟩ := h.frame
  · exact hw
  · cases he <;> cases hb

/-- No transition writes what a command reads (R11, R12). -/
theorem Transition.sameInputs (h : Transition s t) : SameInputs s t := by
  obtain hw | ⟨u, hw, -, he⟩ := h.frame
  · exact hw.inputs
  · cases he <;> exact hw.inputs

/-- A transition goes on with the CSRs as they are, or completes, or ends in an error (R15, R151). -/
theorem Transition.csrs (h : Transition s t) :
    (t.status = s.status ∧ t.err = s.err ∧ t.outLen = s.outLen) ∨ (t.status = .done ∧ t.err = s.err) ∨
      (t.status = .error ∧ t.err ≠ .noError ∧ t.outLen = 0) := by
  obtain hw | ⟨u, hw, -, he⟩ := h.frame
  · exact .inl ⟨hw.status, hw.err, hw.outLen⟩
  · cases he with
    | raise hk | raiseQuiet hk => exact .inr (.inr ⟨rfl, hk, rfl⟩)
    | finish | finishQuiet => exact .inr (.inl ⟨rfl, hw.err⟩)

/-! ## Where `DST` changes -/

theorem WorkFrame.dstByte_eq (h : WorkFrame s t) {x : Nat} (hd : Cells.find t.dst x = Cells.find s.dst x) :
    t.dstByte x = s.dstByte x := by
  obtain ⟨-, -, -, -, -, hr⟩ := h.inputs
  simp only [State.dstByte, State.dstEpoch, hd, hr, h.dstUnspec]

/-- From `s` to `t` the bytes of `DST` from `lo` up to `hi` were written and no other (R13, R35). -/
structure Fills (s t : State) (lo hi : Nat) : Prop where
  le : lo ≤ hi
  outside : ∀ x, x < lo ∨ hi ≤ x → Cells.find t.dst x = Cells.find s.dst x
  inside : ∀ x, lo ≤ x → x < hi → (Cells.find t.dst x).isSome

theorem Fills.written {lo hi : Nat} (h : Fills s t lo hi) (hw : Written s lo) : Written t hi := fun x hx => by
  by_cases hlo : x < lo
  · rw [h.outside x (.inl hlo)]
    exact hw x hlo
  · exact h.inside x (by omega) hx

theorem Fills.dstByte {lo hi : Nat} (h : Fills s t lo hi) (hw : WorkFrame s t) {x : Nat} (hx : x < lo ∨ hi ≤ x) :
    t.dstByte x = s.dstByte x := hw.dstByte_eq (h.outside x hx)

/-- A group write fills its range (R35). -/
theorem Fills.of_putBytes {lo : Nat} {bytes : List Byte} (hd : t.dst = Memory.putBytes s.dst lo bytes) :
    Fills s t lo (lo + bytes.length) where
  le := Nat.le_add_right _ _
  outside x hx := by rw [hd, Memory.find_putBytes, dif_neg (by omega)]
  inside x hlo hhi := by rw [hd, Memory.find_putBytes, dif_pos ⟨hlo, hhi⟩]; rfl

/-- The copy loop fills its range (R132). -/
theorem fills_copyLoop (s : State) (offset d n : Nat) : Fills s (s.copyLoop offset d n) d (d + n) := by
  induction n generalizing s d with
  | zero => exact ⟨le_rfl, fun _ _ => rfl, fun x hlo hhi => absurd hhi (not_lt.2 hlo)⟩
  | succ n ih =>
    have hrest := ih (s.setDst (Cells.put s.dst d (s.dstByte (d - offset)))) (d + 1)
    refine ⟨Nat.le_add_right _ _, fun x hx => ?_, fun x hlo hhi => ?_⟩
    · exact (hrest.outside x (by omega)).trans (Cells.find_put_other _ _ (by omega))
    · by_cases hx : x = d
      · subst hx
        refine (congrArg Option.isSome (hrest.outside x (.inl (Nat.lt_succ_self x)))).trans ?_
        rw [State.setDst_dst, Cells.find_put_same]
        rfl
      · exact hrest.inside x (by omega) (by omega)

/-- What a transition that goes on writes of `DST`: nothing, or the bytes from a cursor to that cursor's next value,
inside the capacity (R13, R34 (b), R135). -/
inductive Writes (s t : State) : Prop
  | nothing (hd : t.dst = s.dst) (hdec : s.phase ≠ .dInit → t.dec.d = s.dec.d) (henc : t.enc.d = s.enc.d)
  | decoder (hp : isDecoding s.phase = true) (hf : Fills s t s.dec.d t.dec.d) (hcap : t.dec.d ≤ s.dstCap.toNat)
  | encoder (hp : isDecoding s.phase = false) (hf : Fills s t s.enc.d t.enc.d) (hcap : t.enc.d ≤ s.dstCap.toNat)
  | header (hp : s.phase = .cStart) (hf : Fills s t 0 t.enc.d) (hcap : t.enc.d ≤ s.dstCap.toNat)

theorem Fetched.isDecoding (h : Fetched s u) : isDecoding s.phase = true := by
  cases h with
  | here hp => rcases hp with hp | hp <;> rw [hp] <;> rfl
  | token _ hp => rw [hp]; rfl

/-- A literal that runs fills what the decoder's cursor passes (R126). -/
theorem fills_literal (hf : Fetched s u) :
    Fills s (u.setDst (Memory.putBytes u.dst u.dec.d (u.srcBytes (u.dec.hdrLen + u.dec.s) u.dec.length)))
      s.dec.d (u.dec.d + u.dec.length) := by
  rw [← hf.dec_d]
  have hlen := u.srcBytes_length (u.dec.hdrLen + u.dec.s) u.dec.length
  exact (congrArg (Fills s _ u.dec.d) (congrArg (u.dec.d + ·) hlen)).mp
    (.of_putBytes (by rw [State.setDst_dst, hf.dst]))

theorem fills_copy (hf : Fetched s u) :
    Fills s (u.copyLoop u.dec.offset u.dec.d u.dec.length) s.dec.d (u.dec.d + u.dec.length) := by
  have h := fills_copyLoop u u.dec.offset u.dec.d u.dec.length
  exact ⟨hf.dec_d ▸ h.le, hf.dst ▸ hf.dec_d ▸ h.outside, hf.dec_d ▸ h.inside⟩

theorem isDecoding_of_eq {p q : Phase} {b : Bool} (hp : p = q) (hq : isDecoding q = b) : isDecoding p = b := hp ▸ hq

theorem Transition.writes (h : Transition s t) (hb : t.status = .busy) : Writes s t := by
  cases h with
  | raiseQuiet | finishQuiet | raise | tokenRaises | decoded | encoded => cases hb
  | bodyStarts hp => exact .nothing rfl (fun hp' => absurd hp hp') rfl
  | literalRuns hf _ _ _ hcap =>
    have h := fills_literal hf
    exact .decoder hf.isDecoding ⟨h.le, h.outside, h.inside⟩ (hf.dstCap ▸ hcap)
  | copyRuns hf _ hcap =>
    have h := fills_copy hf
    exact .decoder hf.isDecoding ⟨h.le, h.outside, h.inside⟩ (hf.dstCap ▸ hcap)
  | compressStarts hp _ hd => exact .header hp (.of_putBytes rfl) hd
  | shortChunk hp _ _ _ hd | pending hp hd | copyEnds hp _ hd | rematch hp _ _ hd | resume hp _ _ hd
  | remainder hp _ hd => exact .encoder (isDecoding_of_eq hp rfl) (.of_putBytes rfl) hd
  | decompressStarts | headerRead | bodyEnds | longChunk | blockStarts | searchEnds | miss | hit
  | noRemainder => exact .nothing rfl (fun _ => rfl) rfl

/-- No transition changes `DST` at or beyond `DST_CAP` (R34 (b), R178). -/
theorem Transition.dstByte_beyond (h : Transition s t) (hb : s.status = .busy) {x : Nat}
    (hx : s.dstCap.toNat ≤ x) : t.dstByte x = s.dstByte x := by
  obtain hw | ⟨u, hw, hd, he⟩ := h.frame
  · cases h.writes (hw.status.trans hb) with
    | nothing hd => exact hw.dstByte_eq (by rw [hd])
    | decoder _ hf hcap | encoder _ hf hcap | header _ hf hcap => exact hf.dstByte hw (.inr (hcap.trans hx))
  · have hu : u.dstByte x = s.dstByte x := hw.dstByte_eq (by rw [hd])
    have hcap : u.dstCap.toNat ≤ x := by
      obtain ⟨-, -, -, hcap, -, -⟩ := hw.inputs
      rwa [hcap]
    rw [← hu]
    cases he with
    | raise => exact u.dstByte_raise _ x hcap
    | finish n => exact u.dstByte_finish n x (.inr hcap)
    | raiseQuiet | finishQuiet => rfl

end Frames

section Steps

variable {s t : State}

/-- A step, too, leaves the inputs: a quiescent CORE does nothing. -/
theorem step_sameInputs (h : step s = .next t) : SameInputs s t := by
  by_cases hb : s.status = .busy
  · exact (step_transition hb h).sameInputs
  · cases (step_quiescent hb).symm.trans h
    exact ⟨rfl, rfl, rfl, rfl, rfl, rfl⟩

theorem leads_succ {k : Nat} : Leads (k + 1) s t ↔ ∃ s', step s = .next s' ∧ Leads k s' t := by
  have hstep : Sys2Proof.core.step s = step s := rfl
  simp only [Leads, Host.Core.run, hstep]
  cases step s with
  | next s' => exact ⟨fun h => ⟨s', rfl, h⟩, fun ⟨_, hs, h⟩ => by cases hs; exact h⟩
  | fault | refused => exact ⟨nofun, fun ⟨_, hs, _⟩ => nomatch hs⟩

/-- Any number of steps of a quiescent CORE change nothing (R158). -/
theorem leads_quiescent (h : Quiescent s) (k : Nat) : Leads k s s := by
  induction k with
  | zero => rfl
  | succ k ih => exact leads_succ.2 ⟨s, step_quiescent h, ih⟩

end Steps

/-! ## The obligations -/

/-- Settles O46: by cases on the transition. -/
theorem stepsKeepTheInputs : Obligations.StepsKeepTheInputs := fun _ _ h => step_sameInputs h

/-- Settles O45: by cases on the transition. -/
theorem statusChangesOnlyByRule : Obligations.StatusChangesOnlyByRule := by
  unfold Obligations.StatusChangesOnlyByRule
  intro s t hb he ho h
  have hcsrs := (step_transition hb h).csrs
  rwa [hb, he, ho] at hcsrs

/-- Settles O47: by cases on the transition. -/
theorem stepsWriteBelowCapacity : Obligations.StepsWriteBelowCapacity := by
  unfold Obligations.StepsWriteBelowCapacity
  intro s t a h ha
  by_cases hb : s.status = .busy
  · exact (step_transition hb h).dstByte_beyond hb ha
  · cases (step_quiescent hb).symm.trans h
    rfl

/-- Settles O49: what a transition writes lies between the old and the new cursor of its direction. -/
theorem outputGrowsUpward : Obligations.OutputGrowsUpward := by
  unfold Obligations.OutputGrowsUpward
  intro s t _ hb h ht
  have htr := step_transition hb h
  have hframe := htr.workFrame ht
  have hall : ∀ d, t.dst = s.dst → ∀ a, a < d ∨ d ≤ a → t.dstByte a = s.dstByte a := fun _ hd a _ =>
    hframe.dstByte_eq (by rw [hd])
  refine ⟨fun hp => ?_, fun hp hc => ?_⟩
  · have hdec : isDecoding s.phase = true := by rcases hp with hp | hp | hp <;> exact isDecoding_of_eq hp rfl
    cases htr.writes ht with
    | nothing hd hcur =>
      rw [hcur (by rintro he; simp [he] at hp)]
      exact ⟨le_rfl, hall _ hd⟩
    | decoder _ hf => exact ⟨hf.le, fun a ha => hf.dstByte hframe ha⟩
    | encoder he => exact absurd (hdec.symm.trans he) nofun
    | header he => exact absurd (hdec.symm.trans (isDecoding_of_eq he rfl)) nofun
  · cases htr.writes ht with
    | nothing hd _ hcur =>
      rw [hcur]
      exact ⟨le_rfl, hall _ hd⟩
    | decoder he => exact absurd (hp.symm.trans he) nofun
    | encoder _ hf => exact ⟨hf.le, fun a ha => hf.dstByte hframe ha⟩
    | header he => exact absurd he hc

/-- Settles O7: `step` at the three phases that fetch. -/
theorem stepRunsTheDecodedInstruction : Obligations.StepRunsTheDecodedInstruction := by
  unfold Obligations.StepRunsTheDecodedInstruction
  intro s i hb
  have hrun : ∀ c, s.work = .instruction c → decode c = .ok i → step s = exec i s := fun c hw hd => by
    simp only [step, if_pos hb, hw, hd]
  refine ⟨fun hp hd => hrun (.command s.cmd) ?_ hd, fun hp hd => hrun (.header s.fetchHeader) ?_ hd,
    fun hp hs hlen hd => hrun (.token _) ?_ hd⟩
  · simp only [State.work, hp]
  · simp only [State.work, hp]
  · have hfetch : s.fetchToken = .ok (s.srcBytes (s.dec.hdrLen + s.dec.s) (min 5 (s.dec.bodyLen - s.dec.s))) :=
      State.readSrc_eq_ok.2 ⟨by omega, rfl⟩
    simp only [State.work, hp, fetchOrEnd, hfetch]
    exact if_neg (by omega)

/-- A `CMD` value other than 1, 2 and 3 is no command (R63). -/
theorem decodeCommand_bad {v : Word} (h1 : v ≠ 1) (h2 : v ≠ 2) (h3 : v ≠ 3) :
    decodeCommand v = .error .badCommand := by
  unfold decodeCommand
  exact (if_neg h1).trans ((if_neg h2).trans (if_neg h3))

section CsrWrites

variable {s : State} (h : Quiescent s) (v : Word)
include h

theorem State.writeCsr_cmd : s.writeCsr .cmd v = s.writeCmd v := if_neg h

theorem State.writeCsr_srcLen : s.writeCsr .srcLen v = { s with srcLen := v } := if_neg h

theorem State.writeCsr_dstCap : s.writeCsr .dstCap v = { s with dstCap := v } := if_neg h

end CsrWrites

/-- `STATUS`, `ERR` and `OUT_LEN` ignore a write (R11). -/
theorem State.writeCsr_readOnly (s : State) (v : Word) :
    s.writeCsr .status v = s ∧ s.writeCsr .err v = s ∧ s.writeCsr .outLen v = s :=
  ⟨ite_self _, ite_self _, ite_self _⟩

theorem State.writeCmd_bad {s : State} {v : Word} (h : decodeCommand v = .error .badCommand) :
    s.writeCmd v = (s.startCommand v).raiseQuiet .badCommand := by
  unfold State.writeCmd
  rw [h]

/-- Settles O42: register by register. -/
theorem csrFile : Obligations.CsrFile := by
  unfold Obligations.CsrFile
  refine ⟨fun s => ⟨rfl, ?_, ?_, rfl, rfl, rfl⟩, fun s v => ?_, ?_,
    fun s t h => ?_, ⟨rfl, rfl, rfl⟩, rfl, rfl, rfl, rfl, rfl, rfl, fun n hn => ?_⟩
  · show (statusWord s.status).toNat = _
    cases s.status <;> rfl
  · show (errWord s.err).toNat = _
    cases s.err <;> rfl
  · obtain ⟨hstatus, herr, hout⟩ := s.writeCsr_readOnly v
    refine ⟨hstatus, herr, hout, fun hb c => State.writeCsr_busy hb c v, fun hq =>
      ⟨State.writeCsr_srcLen hq v, State.writeCsr_dstCap hq v, fun h1 h2 h3 => ?_⟩⟩
    rw [State.writeCsr_cmd hq, State.writeCmd_bad (decodeCommand_bad h1 h2 h3), State.raiseQuiet_err]
  · intro c
    cases c <;> rfl
  · obtain ⟨-, -, hsrc, hdst, -, -⟩ := step_sameInputs h
    exact ⟨hsrc, hdst⟩
  · obtain ⟨m, rfl⟩ := Nat.exists_eq_add_of_le' hn
    rfl

/-- Settles O43: reset is quiescent, whatever state it is applied to. -/
theorem resetValues : Obligations.ResetValues := by
  unfold Obligations.ResetValues
  rintro s t (rfl | rfl)
  · exact ⟨rfl, rfl, rfl, rfl, rfl, rfl, leads_quiescent (by decide)⟩
  · exact ⟨rfl, rfl, rfl, rfl, rfl, rfl, leads_quiescent (s := s.applyReset) nofun⟩

/-- Settles O44: the two host accesses, and a read after a write of `SRC`. -/
theorem hostAccessOnlyWhileQuiescent : Obligations.HostAccessOnlyWhileQuiescent := by
  unfold Obligations.HostAccessOnlyWhileQuiescent
  intro s a b
  refine ⟨fun hb => ⟨if_pos hb, if_pos hb⟩, fun hq => ⟨if_neg hq, _, if_neg hq, ?_, fun x hx => ?_, rfl⟩⟩
  · simp only [State.srcByte, Cells.find_put_same, Option.getD_some]
  · simp only [State.srcByte, Cells.find_put_other _ _ hx]

end Sys2Proof.Machine
end

section
/-! PROOF of O50 and O52, with what O51 needs first: lengths of what is emitted, the hash and the table, and the
invariant by phase. -/

namespace Sys2Proof.Machine

open Sys2Proof.Safety Sys2Proof.Claims

/-! ## How many bytes are emitted (R70, R80, R81) -/

theorem headerBytes_length_le (fuel v : Nat) : (headerBytes fuel v).length ≤ fuel + 1 := by
  induction fuel generalizing v with
  | zero => exact le_rfl
  | succ fuel ih =>
    unfold headerBytes
    split
    · exact Nat.succ_le_succ (ih _)
    · exact Nat.succ_le_succ (Nat.zero_le _)

/-- A literal's tag and length bytes cost at most one byte, and one more for every 60 of payload (R80). -/
theorem literalTag_length_le (n : Nat) : 60 * (literalTag n).length ≤ n + 60 := by
  unfold literalTag
  dsimp only
  split
  · simp only [List.length_cons, List.length_nil]; omega
  · split <;> simp only [List.length_cons, List.length_nil] <;> omega

/-- What `COPY2 offset, 64` tokens write never exceeds what they cover, and at least four bytes are left (R81). -/
theorem wideCopies_length_le (offset fuel length : Nat) (h : 4 ≤ length) :
    (wideCopies offset fuel length).1.length + (wideCopies offset fuel length).2 ≤ length ∧
      4 ≤ (wideCopies offset fuel length).2 := by
  induction fuel generalizing length with
  | zero => exact ⟨(Nat.zero_add _).le, h⟩
  | succ fuel ih =>
    unfold wideCopies
    split
    · have hrest := ih (length - 64) (by omega)
      simp only [wideCopy, List.length_append, List.length_cons, List.length_nil]
      omega
    · exact ⟨(Nat.zero_add _).le, h⟩

theorem splitCopy_length_le (offset length : Nat) (h : 4 ≤ length) :
    (splitCopy offset length).1.length + (splitCopy offset length).2 ≤ length ∧
      4 ≤ (splitCopy offset length).2 := by
  unfold splitCopy
  split
  · simp only [wideCopy, List.length_cons, List.length_nil]; omega
  · exact ⟨(Nat.zero_add _).le, h⟩

theorem lastCopy_length_le (offset length : Nat) : (lastCopy offset length).length ≤ 3 := by
  unfold lastCopy
  split
  · exact le_rfl
  · exact (by decide : 2 ≤ 3)

/-- A copy is emitted in fewer bytes than it covers (R81, R82). -/
theorem copyBytes_length_lt (offset length : Nat) (h : 4 ≤ length) : (copyBytes offset length).length < length := by
  obtain ⟨hw, hw4⟩ := wideCopies_length_le offset (length / 64) length h
  obtain ⟨hc, hc4⟩ := splitCopy_length_le offset _ hw4
  have hl := lastCopy_length_le offset (splitCopy offset (wideCopies offset (length / 64) length).2).2
  simp only [copyBytes, List.length_append]
  omega

/-! ## The table's geometry (R91, R92) -/

theorem growTable_eq_pow (fuel n k : Nat) (hk : k ≤ 14) :
    ∃ j, growTable fuel n (2 ^ k, 32 - k) = (2 ^ j, 32 - j) ∧ k ≤ j ∧ j ≤ 14 := by
  induction fuel generalizing k with
  | zero => exact ⟨k, rfl, le_rfl, hk⟩
  | succ fuel ih =>
    unfold growTable
    split
    · next hlt =>
      have hk14 : k < 14 := (Nat.pow_lt_pow_iff_right (by decide : 1 < 2)).1 hlt.1
      obtain ⟨j, hj, hkj, hj14⟩ := ih (k + 1) hk14
      exact ⟨j, by rw [← pow_succ, Nat.sub_sub]; exact hj, by omega, hj14⟩
    · exact ⟨k, rfl, le_rfl, hk⟩

/-- The table has a power of two of entries, the shift takes 32 bits to its indices (R91). -/
theorem tableGeometry_eq_pow (n : Nat) : ∃ j, tableGeometry n = (2 ^ j, 32 - j) ∧ 8 ≤ j ∧ j ≤ 14 :=
  growTable_eq_pow 6 n 8 (by decide)

/-- A hash indexes its table, which is no larger than `HT` (R92, R14). -/
theorem hash_lt_tableSize {n size shift : Nat} (h : (size, shift) = tableGeometry n) (u : Word) :
    hash shift u < size ∧ size ≤ Config.maxTableSize := by
  obtain ⟨j, hj, -, hj14⟩ := tableGeometry_eq_pow n
  obtain ⟨rfl, rfl⟩ := Prod.mk.inj (h.trans hj)
  refine ⟨?_, Nat.pow_le_pow_right (by decide) hj14⟩
  unfold hash
  rw [BitVec.toNat_ushiftRight, Nat.shiftRight_eq_div_pow, Nat.div_lt_iff_lt_mul (Nat.two_pow_pos _), ← pow_add,
    show j + (32 - j) = 32 by omega]
  exact BitVec.isLt _

/-! ## The invariant by phase -/

/-- What the invariant asks in one phase. -/
def PhaseClause : Phase → State → Prop
  | .cStart, _ | .hDec, _ => True
  | .dInit, s => 1 ≤ s.dec.hdrLen ∧ s.dec.hdrLen ≤ Config.varintMaxBytes ∧ s.dec.hdrLen ≤ s.srcLen.toNat ∧
      s.dec.destLen ≤ Config.lenMax
  | .dFetch, s | .dLit, s | .dCopy, s => DecoderInv s
  | .dEnd, s => DecoderInv s ∧ s.dec.s = s.dec.bodyLen
  | .eChunk, s => ChunkLoopInv s
  | .bInit, s => ChunkInv s ∧ Budget s 0 0
  | .bSearch, s => SearchInv s
  | .bMatch, s => MatchInv s
  | .bCopy, s => CopyInv s
  | .bRemainder, s => RemainderInv s

/-- The invariant's clause for the phase of the state is the one that counts. -/
theorem phaseInv_iff (s : State) : PhaseInv s ↔ PhaseClause s.phase s := by
  unfold PhaseInv
  cases s.phase <;> simp only [reduceCtorEq, false_implies, true_implies, and_true, true_and] <;> rfl

theorem inv_clause {s : State} {p : Phase} (h : Inv s) (hb : s.status = .busy) (hp : s.phase = p) :
    PhaseClause p s := hp ▸ (phaseInv_iff s).1 (h.2.2 hb)

theorem inv_of_quiescent {s : State} (hm : MemoriesWf s) (ha : StatusAgrees s) (hq : Quiescent s) : Inv s :=
  ⟨hm, ha, fun hb => absurd hb hq⟩

theorem statusAgrees_error {s : State} (hs : s.status = .error) (he : s.err ≠ .noError) (ho : s.outLen = 0) :
    StatusAgrees s := ⟨iff_of_true he hs, fun h => absurd ho h⟩

theorem statusAgrees_noError {s : State} (hs : s.status ≠ .error) (he : s.err = .noError)
    (ho : s.outLen ≠ 0 → s.status = .done) : StatusAgrees s := ⟨iff_of_false (not_not.2 he) hs, ho⟩

theorem err_outLen_of_busy {s : State} (h : StatusAgrees s) (hb : s.status = .busy) :
    s.err = .noError ∧ s.outLen = 0 := by
  obtain ⟨he, ho⟩ := h
  rw [hb] at he ho
  exact ⟨not_not.1 fun h => absurd (he.1 h) nofun, not_not.1 fun h => absurd (ho h) nofun⟩

/-! ## Reset and host moves -/

theorem inv_reset : Inv State.reset := inv_of_quiescent State.reset_wf (by decide) (by decide)

/-- Settles O50: reset is quiescent, its memories empty. -/
theorem invariantAtReset : Obligations.InvariantAtReset := inv_reset

/-- A command that has just been started meets the invariant: `cStart` asks nothing of the registers. -/
theorem inv_startCommand {s : State} (hm : MemoriesWf s) (v : Word) : Inv (s.startCommand v) :=
  ⟨hm, statusAgrees_noError nofun rfl (absurd rfl), fun _ => (phaseInv_iff _).2 trivial⟩

theorem inv_writeCmd {s : State} (hm : MemoriesWf s) (v : Word) : Inv (s.writeCmd v) := by
  unfold State.writeCmd
  split
  · exact inv_startCommand hm v
  · exact inv_of_quiescent hm (statusAgrees_error rfl nofun rfl) nofun

theorem inv_writeCsr {s : State} (hi : Inv s) (c : Csr) (v : Word) : Inv (s.writeCsr c v) := by
  by_cases hb : s.status = .busy
  · rwa [State.writeCsr_busy hb]
  · obtain ⟨hm, ha, -⟩ := id hi
    obtain ⟨hstatus, herr, hout⟩ := s.writeCsr_readOnly v
    cases c with
    | cmd => rw [State.writeCsr_cmd hb]; exact inv_writeCmd hm v
    | srcLen => rw [State.writeCsr_srcLen hb]; exact inv_of_quiescent hm ha hb
    | dstCap => rw [State.writeCsr_dstCap hb]; exact inv_of_quiescent hm ha hb
    | status => rwa [hstatus]
    | err => rwa [herr]
    | outLen => rwa [hout]

/-- Settles O52: a host move leaves the CORE quiescent, starts a command, or is ignored. -/
theorem hostMovesKeepInvariant : Obligations.HostMovesKeepInvariant := by
  unfold Obligations.HostMovesKeepInvariant
  intro s t m hi h
  cases m with
  | writeCsr c v => cases h; exact inv_writeCsr hi c v
  | writeSrc a b =>
    obtain ⟨⟨hsrc, hdst, hht⟩, ha, -⟩ := hi
    have h := Run.outcome_eq_next.1 h
    unfold State.hostWriteSrc at h
    split at h
    · cases h
    · next hq => cases h; exact inv_of_quiescent ⟨Memory.wf_put hsrc a.isLt b, hdst, hht⟩ ha hq
  | applyReset => cases h; exact inv_of_quiescent State.reset_wf (statusAgrees_noError nofun rfl (absurd rfl)) nofun

end Sys2Proof.Machine
end

section
/-! PROOF of O51: each transition leads from its phase's clause of the invariant to the next phase's clause. -/

namespace Sys2Proof.Machine

open Sys2Proof.Safety Sys2Proof.Claims

/-! ## Entries of the table below a position (R105 (d)) -/

/-- Every entry at an index below `size` is below `p`. -/
def Table.Below (t : Table) (size p : Nat) : Prop := ∀ c ∈ t, c.1 < size → c.2.toNat < p

section Tables

variable {t : Table} {size p q : Nat}

theorem Table.Below.mono (h : t.Below size p) (hpq : p ≤ q) : t.Below size q := fun c hc hi =>
  (h c hc hi).trans_le hpq

theorem Table.Below.put (h : t.Below size p) (i : Nat) {v : Nat} (hpq : p ≤ q) (hv : v < q) :
    (Table.put t i (BitVec.ofNat 16 v)).Below size q := by
  intro c hc hi
  unfold Table.put at hc
  split at hc
  · exact (h c (Cells.mem_drop hc) hi).trans_le hpq
  · rcases Cells.mem_put hc with rfl | hc
    · exact (Nat.mod_le v (2 ^ 16)).trans_lt hv
    · exact (h c hc hi).trans_le hpq

theorem Table.below_clear (t : Table) (size p : Nat) : (Table.clear t size).Below size p := by
  intro c hc hi
  have hout := (List.mem_filter.1 hc).2
  simp [hi] at hout

theorem Table.Below.entry_lt (h : t.Below size p) {i : Nat} (hi : i < size) (hp : 0 < p) :
    (Table.entry t i).toNat < p := by
  unfold Table.entry
  cases hf : Cells.find t i with
  | none => exact hp
  | some v => exact h (i, v) (Cells.mem_of_find hf) hi

end Tables

/-! ## What a transition of the encoder keeps -/

section Encoder

variable {s t : State}

/-- `t` is in the same chunk and block of the same input. -/
structure SameBlock (s t : State) : Prop where
  frame : WorkFrame s t
  inPos : t.enc.inPos = s.enc.inPos
  blkLen : t.enc.blkLen = s.enc.blkLen
  tableSize : t.enc.tableSize = s.enc.tableSize
  shift : t.enc.shift = s.enc.shift
  sLimit : t.enc.sLimit = s.enc.sLimit

theorem WorkFrame.fp (h : WorkFrame s t) (hin : t.enc.inPos = s.enc.inPos) (p : Nat) : t.fp p = s.fp p := by
  obtain ⟨-, -, -, -, hsrc, hresets⟩ := h.inputs
  simp only [State.fp, s.srcBytes_congr t hsrc hresets, hin]

theorem SameBlock.fp (h : SameBlock s t) (p : Nat) : t.fp p = s.fp p := h.frame.fp h.inPos p

theorem SameBlock.chunkInv (h : SameBlock s t) (hc : CompressInv t) (hi : ChunkInv s) : ChunkInv t := by
  obtain ⟨-, hmod, h17, hlen⟩ := hi
  obtain ⟨-, -, hsrcLen, -, -, -⟩ := h.frame.inputs
  exact ⟨hc, by rwa [h.inPos], by rwa [h.blkLen], by rwa [h.blkLen, h.inPos, hsrcLen]⟩

theorem SameBlock.blockInv (h : SameBlock s t) (hc : CompressInv t) (hi : BlockInv s) : BlockInv t := by
  obtain ⟨hch, hgeo, hlim⟩ := hi
  exact ⟨h.chunkInv hc hch, by rwa [h.tableSize, h.shift, h.blkLen], by rwa [h.sLimit, h.blkLen]⟩

/-- In every phase of COMPRESS after its start the output so far is written and within the bound. -/
theorem compressInv_of_clause {p : Phase} (h : PhaseClause p s) (hp : isDecoding p = false) (hc : p ≠ .cStart) :
    CompressInv s := by
  cases p with
  | cStart => exact absurd rfl hc
  | hDec | dInit | dFetch | dLit | dCopy | dEnd => cases hp
  | eChunk => obtain ⟨h, -⟩ : ChunkLoopInv s := h; exact h
  | bInit => obtain ⟨⟨h, -⟩, -⟩ : ChunkInv s ∧ _ := h; exact h
  | bSearch => obtain ⟨⟨⟨h, -⟩, -⟩, -⟩ : SearchInv s := h; exact h
  | bMatch => obtain ⟨⟨⟨h, -⟩, -⟩, -⟩ : MatchInv s := h; exact h
  | bCopy => obtain ⟨⟨⟨h, -⟩, -⟩, -⟩ : CopyInv s := h; exact h
  | bRemainder => obtain ⟨⟨h, -⟩, -⟩ : RemainderInv s := h; exact h

/-- A transition of the encoder keeps that (R107, R178). -/
theorem Transition.compressInv {p : Phase} (h : Transition s t) (hi : Inv s) (hb : s.status = .busy)
    (hbt : t.status = .busy) (hp : s.phase = p) (hdec : isDecoding p = false) (hc : p ≠ .cStart) :
    CompressInv t := by
  obtain ⟨hbound, hw⟩ := compressInv_of_clause (inv_clause hi hb hp) hdec hc
  obtain ⟨-, -, hsrcLen, hdstCap, -, -⟩ := h.sameInputs
  refine ⟨by rwa [hsrcLen, hdstCap], ?_⟩
  cases h.writes hbt with
  | nothing hd _ hcur => rwa [hcur, Written, hd]
  | decoder he => exact absurd ((isDecoding_of_eq hp hdec).symm.trans he) nofun
  | encoder _ hf => exact hf.written hw
  | header he => exact absurd (hp.symm.trans he) hc

/-! ## The chunk loop -/

theorem chunkLoopInv_headerEmitted (hcap : Config.bound s.srcLen.toNat ≤ s.dstCap.toNat) :
    ChunkLoopInv (s.headerEmitted.setPhase .eChunk) := by
  have hlen : (hdrEnc s.srcLen.toNat).length ≤ 5 := headerBytes_length_le 4 _
  have hd : (s.headerEmitted.setPhase .eChunk).enc.d = (hdrEnc s.srcLen.toNat).length := Nat.zero_add _
  have hin : (s.headerEmitted.setPhase .eChunk).enc.inPos = 0 := rfl
  have hfill : Fills s (s.headerEmitted.setPhase .eChunk) 0 (s.headerEmitted.setPhase .eChunk).enc.d :=
    .of_putBytes rfl
  obtain ⟨-, -, hsrcLen, hdstCap, -, -⟩ := ((workFrame_headerEmitted s).setPhase .eChunk).inputs
  generalize s.headerEmitted.setPhase .eChunk = t at *
  rw [← hsrcLen, ← hdstCap] at hcap
  exact ⟨⟨hcap, hfill.written fun _ h => absurd h (Nat.not_lt_zero _)⟩, by omega,
    fun _ => ⟨by rw [hin]; exact Nat.zero_mod _, by omega⟩, by omega⟩

/-- A literal of a whole short chunk costs one byte beyond it, which the last chunk's bound allows (R114). -/
theorem chunkLoopInv_shortEmitted {n : Nat} (hi : ChunkLoopInv s) (hn : n = s.srcLen.toNat - s.enc.inPos) (h1 : 1 ≤ n)
    (h17 : n < 17) (hc : CompressInv (s.shortEmitted n).nextChunk) : ChunkLoopInv (s.shortEmitted n).nextChunk := by
  obtain ⟨-, hin, hmid, -⟩ := hi
  have htag := literalTag_length_le n
  have hd : (s.shortEmitted n).nextChunk.enc.d =
      s.enc.d + (literalTag n ++ (s.withChunk n).srcBytes s.enc.inPos n).length := rfl
  have hpos : (s.shortEmitted n).nextChunk.enc.inPos = s.enc.inPos + n := rfl
  obtain ⟨-, -, hsrcLen, -, -, -⟩ := (workFrame_shortEmitted s n).nextChunk.inputs
  generalize (s.shortEmitted n).nextChunk = t at *
  rw [List.length_append, State.srcBytes_length] at hd
  exact ⟨hc, by rw [hsrcLen]; omega, by rw [hsrcLen]; omega, by omega⟩

theorem chunkInv_withChunk {n : Nat} (hi : ChunkLoopInv s)
    (hn : n = min (s.srcLen.toNat - s.enc.inPos) Config.maxBlockSize) (h17 : Config.minNonLiteralBlock ≤ n)
    (hc : CompressInv ((s.withChunk n).setPhase .bInit)) :
    ChunkInv ((s.withChunk n).setPhase .bInit) ∧ Budget ((s.withChunk n).setPhase .bInit) 0 0 := by
  obtain ⟨-, hin, hmid, -⟩ := hi
  have hpos : 0 < Config.minNonLiteralBlock := by decide
  obtain ⟨hmod, hd⟩ := hmid (by omega)
  refine ⟨⟨hc, hmod, h17, hn⟩, ?_⟩
  show 60 * s.enc.d ≤ 60 * (5 + s.enc.inPos + s.enc.inPos / 6) + 61 * 0 + 60 * 0
  omega

/-- Back in the chunk loop: a chunk of 65536 bytes gains more from R107's sixth than literals cost, and the last chunk
may end one byte beyond it. -/
theorem chunkLoopInv_of_chunk (hi : ChunkInv s) (hw : WorkFrame s t) (hc : CompressInv t)
    (hpos : t.enc.inPos = s.enc.inPos + s.enc.blkLen)
    (hd : 60 * t.enc.d ≤ 60 * (5 + s.enc.inPos + s.enc.inPos / 6) + 61 * s.enc.blkLen + 60) : ChunkLoopInv t := by
  obtain ⟨-, hmod, h17, hlen⟩ := hi
  obtain ⟨-, -, hsrcLen, -, -, -⟩ := hw.inputs
  unfold ChunkLoopInv
  rw [hsrcLen]
  simp only [Config.maxBlockSize, Config.minNonLiteralBlock] at *
  exact ⟨hc, by omega, by omega, by omega⟩

/-- A pending literal costs one byte in 60 beyond its payload and one byte more (R80, R107). -/
theorem pendingEmitted_d_le (s : State) {q : Nat} (hq : s.enc.nextEmit ≤ q) (hb : Budget s s.enc.nextEmit 0) :
    60 * (s.pendingEmitted q).enc.d ≤ 60 * (5 + s.enc.inPos + s.enc.inPos / 6) + 61 * q + 60 := by
  have htag := literalTag_length_le (q - s.enc.nextEmit)
  have hd : (s.pendingEmitted q).enc.d = s.enc.d + (literalTag (q - s.enc.nextEmit) ++
    s.srcBytes (s.enc.inPos + s.enc.nextEmit) (q - s.enc.nextEmit)).length := rfl
  rw [List.length_append, State.srcBytes_length] at hd
  rw [hd]
  unfold Budget at hb
  omega

theorem chunkLoopInv_remainder (hi : RemainderInv s) (hn : s.enc.nextEmit < s.enc.blkLen)
    (hc : CompressInv (s.pendingEmitted s.enc.blkLen).nextChunk) :
    ChunkLoopInv (s.pendingEmitted s.enc.blkLen).nextChunk := by
  obtain ⟨hch, -, hb⟩ := hi
  exact chunkLoopInv_of_chunk hch (workFrame_pendingEmitted s _).nextChunk hc rfl (pendingEmitted_d_le s hn.le hb)

theorem chunkLoopInv_noRemainder (hi : RemainderInv s) (hn : s.enc.blkLen ≤ s.enc.nextEmit)
    (hc : CompressInv s.nextChunk) : ChunkLoopInv s.nextChunk := by
  obtain ⟨hch, hle, hb⟩ := hi
  refine chunkLoopInv_of_chunk hch (WorkFrame.refl s).nextChunk hc rfl ?_
  show 60 * s.enc.d ≤ _
  rw [le_antisymm hn hle]
  exact hb.trans (Nat.add_le_add_left (Nat.zero_le _) _)

/-! ## The search -/

theorem searchInv_blockStarted (hi : ChunkInv s ∧ Budget s 0 0) (hc : CompressInv s.blockStarted) :
    SearchInv s.blockStarted := by
  obtain ⟨⟨-, hmod, h17, hlen⟩, hb⟩ := hi
  have hfp := (workFrame_blockStarted s).fp (rfl : s.blockStarted.enc.inPos = s.enc.inPos) 1
  obtain ⟨-, -, hsrcLen, -, -, -⟩ := (workFrame_blockStarted s).inputs
  have hlim : 1 ≤ s.enc.blkLen - Config.inputMargin := by
    simp only [Config.minNonLiteralBlock, Config.inputMargin] at *; omega
  refine ⟨⟨⟨hc, hmod, h17, ?_⟩, rfl, rfl⟩, Nat.zero_lt_one, hlim, ?_, ?_, le_rfl, le_rfl, hb⟩
  · rw [hsrcLen]; exact hlen
  · exact congrArg (hash _) hfp.symm
  · exact Table.below_clear _ _ _

/-- The position a probe looks at is past what was emitted; it moves on by at least one (R96). -/
theorem searchInv_stride (hi : SearchInv s) : 1 ≤ s.enc.skip >>> 5 := by
  obtain ⟨-, -, -, -, -, h32, -, -⟩ := hi
  rw [Nat.shiftRight_eq_div_pow]
  omega

theorem remainderInv_searchEnds (hi : SearchInv s) (hc : CompressInv ((s.setEnc s.enc.advanced).setPhase .bRemainder)) :
    RemainderInv ((s.setEnc s.enc.advanced).setPhase .bRemainder) := by
  obtain ⟨⟨hch, -, hlim⟩, hlt, hle, -, -, -, -, hb⟩ := hi
  have hsame : SameBlock s ((s.setEnc s.enc.advanced).setPhase .bRemainder) :=
    ⟨((WorkFrame.refl s).setEnc _).setPhase _, rfl, rfl, rfl, rfl, rfl⟩
  refine ⟨hsame.chunkInv hc hch, ?_, hb⟩
  show s.enc.nextEmit ≤ s.enc.blkLen
  omega

theorem sameBlock_probed (s : State) (p : Phase) : SameBlock s (s.probed.setPhase p) :=
  ⟨(workFrame_probed s).setPhase p, rfl, rfl, rfl, rfl, rfl⟩

theorem tableBelow_probed {q : Nat} (hi : SearchInv s) (p : Phase) (hq : s.enc.nextS < q) :
    TableBelow (s.probed.setPhase p) q := by
  obtain ⟨-, -, -, -, ht, -, -, -⟩ := hi
  exact Table.Below.put ht s.enc.nextHash hq.le hq

theorem searchInv_probed (hi : SearchInv s) (hl : s.enc.advanced.nextS ≤ s.enc.sLimit)
    (hc : CompressInv (s.probed.setPhase .bSearch)) : SearchInv (s.probed.setPhase .bSearch) := by
  have hstride := searchInv_stride hi
  have hbelow := tableBelow_probed hi .bSearch (Nat.lt_add_of_pos_right hstride)
  obtain ⟨hblk, hlt, -, -, -, h32, hskip, hb⟩ := hi
  have hsame := sameBlock_probed s .bSearch
  refine ⟨hsame.blockInv hc hblk, ?_, hl, ?_, hbelow, ?_, ?_, hb⟩
  · show s.enc.nextEmit < s.enc.nextS + s.enc.skip >>> 5
    omega
  · exact congrArg (hash _) (hsame.fp _).symm
  · exact h32.trans (Nat.le_add_right _ _)
  · show s.enc.skip + s.enc.skip >>> 5 ≤ 31 + (s.enc.nextS + s.enc.skip >>> 5)
    omega

theorem probeCandidate_lt (hi : SearchInv s) : s.probeCandidate < s.enc.nextS := by
  obtain ⟨⟨-, hgeo, -⟩, hlt, -, hhash, ht, -, -, -⟩ := hi
  exact Table.Below.entry_lt ht (hhash ▸ (hash_lt_tableSize hgeo _).1) (by omega)

theorem matchInv_probed (hi : SearchInv s) (hl : s.enc.advanced.nextS ≤ s.enc.sLimit)
    (he : s.fp s.enc.nextS = s.fp s.probeCandidate) (hc : CompressInv (s.probed.setPhase .bMatch)) :
    MatchInv (s.probed.setPhase .bMatch) := by
  have hlim : s.enc.nextS < s.enc.sLimit := (Nat.lt_add_of_pos_right (searchInv_stride hi)).trans_le hl
  have hbelow := tableBelow_probed hi .bMatch (Nat.lt_succ_self _)
  have hcand := probeCandidate_lt hi
  have hsame := sameBlock_probed s .bMatch
  obtain ⟨hblk, hlt, -, -, -, -, -, hb⟩ := hi
  refine ⟨hsame.blockInv hc hblk, ⟨hcand, hlim, ?_, hbelow⟩, hlt, hb⟩
  exact (hsame.fp _).trans (he.trans (hsame.fp _).symm)

/-! ## Matches -/

theorem copyInv_pending (hi : MatchInv s) (hc : CompressInv ((s.pendingEmitted s.enc.s).setPhase .bCopy)) :
    CopyInv ((s.pendingEmitted s.enc.s).setPhase .bCopy) := by
  obtain ⟨hblk, ⟨hcand, hlim, hfp, ht⟩, hlt, hb⟩ := hi
  have hsame : SameBlock s ((s.pendingEmitted s.enc.s).setPhase .bCopy) :=
    ⟨(workFrame_pendingEmitted s _).setPhase _, rfl, rfl, rfl, rfl, rfl⟩
  refine ⟨hsame.blockInv hc hblk, ⟨hcand, hlim, ?_, ht⟩, hlt.le, pendingEmitted_d_le s hlt.le hb⟩
  exact (hsame.fp _).trans (hfp.trans (hsame.fp _).symm)

/-- What holds once a copy is emitted: its tokens are shorter than the match, so the budget has a byte to spare
(R81, R107). -/
theorem copied_d_le {p : Nat} (hi : CopyInv s) (hq : s.enc.s + 4 ≤ p) :
    60 * (s.copied p).enc.d ≤ 60 * (5 + s.enc.inPos + s.enc.inPos / 6) + 61 * p := by
  obtain ⟨-, -, -, hb⟩ := hi
  have hlt := copyBytes_length_lt (s.enc.s - s.enc.candidate) (p - s.enc.s) (by omega)
  show 60 * (s.enc.d + (copyBytes (s.enc.s - s.enc.candidate) (p - s.enc.s)).length) ≤ _
  unfold Budget at hb
  omega

theorem remainderInv_copyEnds {p : Nat} (hi : CopyInv s)
    (hq : s.enc.s + 4 ≤ p ∧ (p = s.enc.s + 4 ∨ p ≤ s.enc.blkLen))
    (hc : CompressInv ((s.copied p).setPhase .bRemainder)) : RemainderInv ((s.copied p).setPhase .bRemainder) := by
  have hd := copied_d_le hi hq.1
  obtain ⟨⟨hch, -, hlim⟩, ⟨-, hs, -⟩, -, -⟩ := hi
  have hsame : SameBlock s ((s.copied p).setPhase .bRemainder) :=
    ⟨(workFrame_copied s p).setPhase _, rfl, rfl, rfl, rfl, rfl⟩
  refine ⟨hsame.chunkInv hc hch, ?_, hd⟩
  show p ≤ s.enc.blkLen
  simp only [Config.inputMargin] at *
  omega

/-- Re-insertion keeps the table below the position after the one it inserts last (R102, R105 (d)). -/
theorem tableBelow_reinserted (ht : TableBelow s s.enc.s) (h1 : 1 ≤ s.enc.s) :
    Table.Below s.firstInserted.ht s.enc.tableSize s.enc.s ∧
      Table.Below s.reinserted.ht s.enc.tableSize (s.enc.s + 1) := by
  have hfirst : Table.Below s.firstInserted.ht s.enc.tableSize s.enc.s :=
    Table.Below.put ht _ le_rfl (Nat.sub_lt h1 Nat.one_pos)
  exact ⟨hfirst, Table.Below.put hfirst _ (Nat.le_succ _) (Nat.lt_succ_self _)⟩

/-- What holds once a copy below the limit is emitted and both its last positions are inserted (R102). -/
theorem reinserted_copied {p : Nat} (hi : CopyInv s) (hq : s.enc.s + 4 ≤ p) :
    SameBlock s (s.copied p).reinserted ∧ (s.copied p).rematchCandidate < p ∧
      Table.Below (s.copied p).reinserted.ht s.enc.tableSize (p + 1) ∧
      60 * (s.copied p).reinserted.enc.d ≤ 60 * (5 + s.enc.inPos + s.enc.inPos / 6) + 61 * p := by
  have hd := copied_d_le hi hq
  obtain ⟨⟨-, hgeo, -⟩, ⟨-, -, -, ht⟩, -, -⟩ := hi
  have hbelow : TableBelow (s.copied p) (s.copied p).enc.s := Table.Below.mono ht (by show s.enc.s + 1 ≤ p; omega)
  obtain ⟨hfirst, hboth⟩ := tableBelow_reinserted hbelow (by show 1 ≤ p; omega)
  refine ⟨⟨(workFrame_copied s p).reinserted, rfl, rfl, rfl, rfl, rfl⟩, ?_, hboth, hd⟩
  exact hfirst.entry_lt (hash_lt_tableSize hgeo _).1 (by show 0 < p; omega)

theorem copyInv_rematch {p : Nat} (hi : CopyInv s) (hq : s.enc.s + 4 ≤ p) (hl : p < s.enc.sLimit)
    (he : (s.copied p).fp (s.copied p).enc.s = (s.copied p).fp (s.copied p).rematchCandidate)
    (hc : CompressInv ((s.copied p).reinserted.setPhase .bCopy)) :
    CopyInv ((s.copied p).reinserted.setPhase .bCopy) := by
  obtain ⟨⟨hw, h1, h2, h3, h4, h5⟩, hcand, ht, hd⟩ := reinserted_copied hi hq
  have hsame : SameBlock s ((s.copied p).reinserted.setPhase .bCopy) := ⟨hw.setPhase _, h1, h2, h3, h4, h5⟩
  have hfp : ∀ x, ((s.copied p).reinserted.setPhase .bCopy).fp x = (s.copied p).fp x := fun x =>
    (hsame.fp x).trans ((workFrame_copied s p).fp rfl x).symm
  obtain ⟨hblk, -, -, -⟩ := hi
  refine ⟨hsame.blockInv hc hblk, ⟨hcand, hl, ?_, ht⟩, le_rfl, hd.trans (Nat.le_add_right _ _)⟩
  exact (hfp _).trans (he.trans (hfp _).symm)

theorem searchInv_resume {p : Nat} (hi : CopyInv s) (hq : s.enc.s + 4 ≤ p) (hl : p < s.enc.sLimit)
    (hc : CompressInv (s.copied p).resumed) : SearchInv (s.copied p).resumed := by
  obtain ⟨⟨-, h1, h2, h3, h4, h5⟩, -, ht, hd⟩ := reinserted_copied hi hq
  have hsame : SameBlock s (s.copied p).resumed := ⟨(workFrame_copied s p).resumed, h1, h2, h3, h4, h5⟩
  have hfp : (s.copied p).fp (p + 1) = (s.copied p).resumed.fp (p + 1) :=
    ((workFrame_copied s p).fp rfl _).trans (hsame.fp _).symm
  obtain ⟨hblk, -, -, -⟩ := hi
  refine ⟨hsame.blockInv hc hblk, Nat.lt_succ_self p, hl, congrArg (hash _) hfp, ht, le_rfl, ?_, hd⟩
  show 32 ≤ 31 + (p + 1)
  omega

end Encoder

/-! ## The decoder -/

section Decoder

variable {s t u : State}

theorem decoderInv_bodyStarts
    (hi : 1 ≤ s.dec.hdrLen ∧ s.dec.hdrLen ≤ Config.varintMaxBytes ∧ s.dec.hdrLen ≤ s.srcLen.toNat ∧
      s.dec.destLen ≤ Config.lenMax) (hcap : s.dec.destLen ≤ s.dstCap.toNat) :
    DecoderInv
      ((s.setDec { s.dec with bodyLen := s.srcLen.toNat - s.dec.hdrLen, s := 0, d := 0 }).setPhase .dFetch) := by
  obtain ⟨h1, h10, hlen, -⟩ := hi
  exact ⟨h1, h10, Nat.add_sub_cancel' hlen, Nat.zero_le _, Nat.zero_le _, hcap,
    fun _ h => absurd h (Nat.not_lt_zero _)⟩

/-- A token whose tag and trailing bytes lie in the body leaves the cursor in the body (R121 to R129). -/
theorem Fetched.decoderInv (hf : Fetched s u) (hi : DecoderInv s) : DecoderInv u := by
  cases hf with
  | here => exact hi
  | token p hp hs =>
    obtain ⟨h1, h10, hlen, -, hd, hcap, hw⟩ := hi
    exact ⟨h1, h10, hlen, hs, hd, hcap, hw⟩

/-- A body that has written what its cursor passed keeps the decoder's invariant (R120). -/
theorem decoderInv_of_fills (hi : DecoderInv u) (hfill : Fills u t u.dec.d t.dec.d)
    (hsrcLen : t.srcLen = u.srcLen) (hdstCap : t.dstCap = u.dstCap)
    (hregs : t.dec = { u.dec with d := t.dec.d, s := t.dec.s }) (hs : t.dec.s ≤ u.dec.bodyLen)
    (hd : t.dec.d ≤ u.dec.destLen) : DecoderInv t := by
  obtain ⟨h1, h10, hlen, -, -, hcap, hw⟩ := hi
  have hwritten := hfill.written hw
  unfold DecoderInv
  generalize t.dec.d = d at *
  generalize t.dec.s = c at *
  rw [hregs, hsrcLen, hdstCap]
  exact ⟨h1, h10, hlen, hs, hd, hcap, hwritten⟩

theorem decoderInv_literal (hf : Fetched s u) (hi : DecoderInv s) (hd : u.dec.length ≤ u.dec.destLen - u.dec.d)
    (h0 : 0 < u.dec.length) (hs : u.dec.length ≤ u.dec.bodyLen - u.dec.s) :
    DecoderInv
      (((u.setDst (Memory.putBytes u.dst u.dec.d (u.srcBytes (u.dec.hdrLen + u.dec.s) u.dec.length))).setDec
        { u.dec with d := u.dec.d + u.dec.length, s := u.dec.s + u.dec.length }).setPhase .dFetch) := by
  have hfill := Fills.of_putBytes (s := u) (lo := u.dec.d)
    (bytes := u.srcBytes (u.dec.hdrLen + u.dec.s) u.dec.length) (t := u.setDst _) rfl
  rw [State.srcBytes_length] at hfill
  refine decoderInv_of_fills (hf.decoderInv hi) ⟨hfill.le, hfill.outside, hfill.inside⟩ rfl rfl rfl ?_ ?_
  · show u.dec.s + u.dec.length ≤ u.dec.bodyLen
    omega
  · show u.dec.d + u.dec.length ≤ u.dec.destLen
    omega

theorem decoderInv_copy (hf : Fetched s u) (hi : DecoderInv s) (hd : u.dec.length ≤ u.dec.destLen - u.dec.d) :
    DecoderInv
      (((u.copyLoop u.dec.offset u.dec.d u.dec.length).setDec
        { u.dec with d := u.dec.d + u.dec.length }).setPhase .dFetch) := by
  have hu := hf.decoderInv hi
  have hfill := fills_copyLoop u u.dec.offset u.dec.d u.dec.length
  obtain ⟨-, -, hsrcLen, hdstCap, -, -⟩ := ((WorkFrame.refl u).copyLoop u.dec.offset u.dec.d u.dec.length).inputs
  refine decoderInv_of_fills hu ⟨hfill.le, hfill.outside, hfill.inside⟩ hsrcLen hdstCap rfl ?_ ?_
  · obtain ⟨-, -, -, hs, -⟩ := hu
    exact hs
  · obtain ⟨-, -, -, -, hdu, -⟩ := hu
    show u.dec.d + u.dec.length ≤ u.dec.destLen
    omega

/-- A token is fetched and runs where the decoder's invariant holds. -/
theorem Fetched.source_decoderInv (hf : Fetched s u) (hi : Inv s) (hb : s.status = .busy) : DecoderInv s := by
  cases hf with
  | here hp => rcases hp with hp | hp <;> exact inv_clause hi hb hp
  | token _ hp => exact inv_clause hi hb hp

end Decoder

/-! ## The invariant is kept -/

section Kept

variable {s t : State}

/-- In each phase: the clause of the phase a transition leads to. -/
theorem Transition.phaseClause (h : Transition s t) (hi : Inv s) (hb : s.status = .busy) (hbt : t.status = .busy) :
    PhaseClause t.phase t := by
  have hclause : ∀ p, s.phase = p → PhaseClause p s := fun _ => inv_clause hi hb
  have hc : ∀ p, s.phase = p → isDecoding p = false → p ≠ .cStart → CompressInv t := fun _ =>
    h.compressInv hi hb hbt
  cases h with
  | raiseQuiet | finishQuiet | raise | tokenRaises | decoded | encoded => cases hbt
  | decompressStarts => trivial
  | headerRead _ h1 hlen hmax hv => exact ⟨h1, hmax, hlen, hv⟩
  | bodyStarts hp hcap => exact decoderInv_bodyStarts (hclause _ hp) hcap
  | bodyEnds hp hs =>
    have hd : DecoderInv s := hclause _ hp
    obtain ⟨-, -, -, hle, -⟩ := id hd
    exact ⟨hd, le_antisymm hle hs⟩
  | literalRuns hf hd h0 hs => exact decoderInv_literal hf (hf.source_decoderInv hi hb) hd h0 hs
  | copyRuns hf hd => exact decoderInv_copy hf (hf.source_decoderInv hi hb) hd
  | compressStarts _ hcap => exact chunkLoopInv_headerEmitted hcap
  | shortChunk hp hn h1 h17 => exact chunkLoopInv_shortEmitted (hclause _ hp) hn h1 h17 (hc _ hp rfl nofun)
  | longChunk hp hn h17 => exact chunkInv_withChunk (hclause _ hp) hn h17 (hc _ hp rfl nofun)
  | blockStarts hp => exact searchInv_blockStarted (hclause _ hp) (hc _ hp rfl nofun)
  | searchEnds hp => exact remainderInv_searchEnds (hclause _ hp) (hc _ hp rfl nofun)
  | miss hp hl => exact searchInv_probed (hclause _ hp) hl (hc _ hp rfl nofun)
  | hit hp hl he => exact matchInv_probed (hclause _ hp) hl he (hc _ hp rfl nofun)
  | pending hp => exact copyInv_pending (hclause _ hp) (hc _ hp rfl nofun)
  | copyEnds hp hq => exact remainderInv_copyEnds (hclause _ hp) hq (hc _ hp rfl nofun)
  | rematch hp hq hl _ he => exact copyInv_rematch (hclause _ hp) hq hl he (hc _ hp rfl nofun)
  | resume hp hq hl => exact searchInv_resume (hclause _ hp) hq hl (hc _ hp rfl nofun)
  | remainder hp hn => exact chunkLoopInv_remainder (hclause _ hp) hn (hc _ hp rfl nofun)
  | noRemainder hp hn => exact chunkLoopInv_noRemainder (hclause _ hp) hn (hc _ hp rfl nofun)

theorem wf_putBytes_of_le {a : Nat} {bytes : List Byte} (hw : Memory.wf s.dst)
    (hd : a + bytes.length ≤ s.dstCap.toNat) : Memory.wf (Memory.putBytes s.dst a bytes) :=
  State.writeDst_wf (State.writeDst_eq_ok.2 ⟨hd, rfl⟩) hw

/-- `DST` stays in canonical form: every write is inside the capacity. -/
theorem Transition.dst_wf (h : Transition s t) (hw : Memory.wf s.dst) : Memory.wf t.dst := by
  cases h with
  | raise | decoded | encoded => exact Memory.wf_drop hw _ _
  | tokenRaises hf => exact Memory.wf_drop (hf.dst ▸ hw) _ _
  | literalRuns hf _ _ _ hcap =>
    exact wf_putBytes_of_le (hf.dst ▸ hw) (by rwa [State.srcBytes_length])
  | copyRuns hf _ hcap =>
    exact State.expandCopy_wf (t := State.copyLoop _ _ _ _) (State.expandCopy_eq_ok.2 ⟨hcap, rfl⟩) (hf.dst ▸ hw)
  | compressStarts _ _ hd | shortChunk _ _ _ _ hd | pending _ hd | copyEnds _ _ hd | rematch _ _ _ hd
  | resume _ _ _ hd | remainder _ _ hd => exact wf_putBytes_of_le hw hd
  | blockStarts | miss | hit | longChunk =>
    simpa [State.blockStarted, State.probed, State.withChunk] using hw
  | raiseQuiet | finishQuiet | decompressStarts | headerRead | bodyStarts | bodyEnds | searchEnds | noRemainder =>
    exact hw

/-- `HT` stays in canonical form: every index is a hash of the block's table. -/
theorem Transition.ht_wf (h : Transition s t) (hi : Inv s) (hb : s.status = .busy) : Table.wf t.ht := by
  obtain ⟨-, -, hw⟩ := hi.1
  cases h with
  | blockStarts => exact Table.wf_clear hw _
  | miss hp | hit hp =>
    have hs : SearchInv s := inv_clause hi hb hp
    obtain ⟨⟨-, hgeo, -⟩, -, -, hhash, -⟩ := hs
    obtain ⟨hlt, hsize⟩ := hash_lt_tableSize hgeo (s.fp s.enc.nextS)
    exact Table.wf_put hw (hhash ▸ hlt.trans_le hsize) _
  | rematch hp | resume hp =>
    have hs : CopyInv s := inv_clause hi hb hp
    obtain ⟨⟨-, hgeo, -⟩, -⟩ := hs
    have hidx := fun u => (hash_lt_tableSize hgeo u).1.trans_le (hash_lt_tableSize hgeo u).2
    exact Table.wf_put (Table.wf_put hw (hidx _) _) (hidx _) _
  | literalRuns hf | tokenRaises hf => exact (hf.ht ▸ hw : Table.wf _)
  | copyRuns hf =>
    rw [State.copyLoop_eq_setDst]
    exact (hf.ht ▸ hw : Table.wf _)
  | compressStarts | shortChunk | longChunk | pending | copyEnds | remainder =>
    simpa [State.headerEmitted, State.shortEmitted, State.withChunk, State.pendingEmitted, State.copied, State.emitted]
      using hw
  | raiseQuiet | finishQuiet | raise | decoded | encoded | decompressStarts | headerRead | bodyStarts | bodyEnds
  | searchEnds | noRemainder => exact hw

theorem Transition.statusAgrees (h : Transition s t) (ha : StatusAgrees s) (hb : s.status = .busy) :
    StatusAgrees t := by
  obtain ⟨he, ho⟩ := err_outLen_of_busy ha hb
  obtain ⟨hs, het, hot⟩ | ⟨hs, het⟩ | ⟨hs, het, hot⟩ := h.csrs
  · exact statusAgrees_noError (by rw [hs, hb]; nofun) (het.trans he) fun hn => absurd (hot.trans ho) hn
  · exact statusAgrees_noError (by rw [hs]; nofun) (het.trans he) fun _ => hs
  · exact statusAgrees_error hs het hot

/-- A transition keeps the invariant. -/
theorem Transition.inv (h : Transition s t) (hi : Inv s) (hb : s.status = .busy) : Inv t := by
  obtain ⟨⟨hsrc, hdst, -⟩, ha, -⟩ := id hi
  obtain ⟨-, -, -, -, hkeep, -⟩ := h.sameInputs
  exact ⟨⟨by rwa [hkeep], h.dst_wf hdst, h.ht_wf hi hb⟩, h.statusAgrees ha hb,
    fun hbt => (phaseInv_iff t).2 (h.phaseClause hi hb hbt)⟩

theorem step_inv (hi : Inv s) (h : step s = .next t) : Inv t := by
  by_cases hb : s.status = .busy
  · exact (step_transition hb h).inv hi hb
  · cases (step_quiescent hb).symm.trans h
    exact hi

end Kept

/-- Settles O51: by cases on the transition, each leading to the clause of its next phase. -/
theorem stepKeepsInvariant : Obligations.StepKeepsInvariant := fun _ _ hi h => step_inv hi h

end Sys2Proof.Machine
end

section
/-! PROOF of O54: under the invariant each transition writes registers that fit their widths (R16, R17). -/

namespace Sys2Proof.Machine

open Sys2Proof.Safety Sys2Proof.Claims

/-- The encoder's registers fit the widths of R16. -/
structure EncRegs.Fit (e : EncRegs) : Prop where
  inPos : e.inPos < 2 ^ 32
  d : e.d < 2 ^ 32
  blkLen : e.blkLen < 2 ^ 17
  tableSize : e.tableSize < 2 ^ 15
  shift : e.shift < 2 ^ 5
  sLimit : e.sLimit < 2 ^ 17
  s : e.s < 2 ^ 17
  nextS : e.nextS < 2 ^ 17
  nextEmit : e.nextEmit < 2 ^ 17
  candidate : e.candidate < 2 ^ 17
  base : e.base < 2 ^ 17
  skip : e.skip < 2 ^ 32
  nextHash : e.nextHash < 2 ^ 14

/-- The decoder's registers fit the widths of R17. -/
structure DecRegs.Fit (r : DecRegs) : Prop where
  hdrLen : r.hdrLen < 2 ^ 4
  destLen : r.destLen < 2 ^ 32
  bodyLen : r.bodyLen < 2 ^ 32
  s : r.s < 2 ^ 32
  d : r.d < 2 ^ 32
  length : r.length < 2 ^ 33
  offset : r.offset < 2 ^ 32

theorem registersFit_iff (s : State) : RegistersFit s ↔ s.enc.Fit ∧ s.dec.Fit :=
  ⟨fun ⟨⟨h1, h2, h3, h4, h5, h6, h7, h8, h9, h10, h11, h12, h13⟩, ⟨k1, k2, k3, k4, k5, k6, k7⟩⟩ =>
    ⟨⟨h1, h2, h3, h4, h5, h6, h7, h8, h9, h10, h11, h12, h13⟩, ⟨k1, k2, k3, k4, k5, k6, k7⟩⟩,
  fun ⟨⟨h1, h2, h3, h4, h5, h6, h7, h8, h9, h10, h11, h12, h13⟩, ⟨k1, k2, k3, k4, k5, k6, k7⟩⟩ =>
    ⟨⟨h1, h2, h3, h4, h5, h6, h7, h8, h9, h10, h11, h12, h13⟩, ⟨k1, k2, k3, k4, k5, k6, k7⟩⟩⟩

section Widths

variable {s t u : State}

/-! ## The decoder -/

/-- A fetched token's operands and cursor fit (R121 to R129). -/
theorem Fetched.dec_fit (hf : Fetched s u) (hr : s.dec.Fit) : u.dec.Fit := by
  cases hf with
  | here => exact hr
  | token p _ hs hl ho =>
    exact { hr with
      s := hs.trans_lt hr.bodyLen, length := hl.trans_lt (by decide)
      offset := ho.elim id fun h => h ▸ hr.offset }

/-- The decoder's registers fit after every transition of the decoder. -/
theorem Transition.dec_fit (h : Transition s t) (hdec : isDecoding s.phase = true) (hr : s.dec.Fit) : t.dec.Fit := by
  cases h with
  | raiseQuiet | finishQuiet | raise | decoded | bodyEnds => exact hr
  | tokenRaises hf => exact hf.dec_fit hr
  | headerRead _ _ _ hmax hv =>
    exact { hr with hdrLen := hmax.trans_lt (by decide), destLen := hv.trans_lt (by decide) }
  | bodyStarts =>
    exact { hr with
      bodyLen := (Nat.sub_le _ _).trans_lt s.srcLen.isLt, s := Nat.two_pow_pos 32, d := Nat.two_pow_pos 32 }
  | @literalRuns u hf hd h0 hs hcap =>
    have hu := hf.dec_fit hr
    have hbody := hu.bodyLen
    have hnext : u.dec.s + u.dec.length < 2 ^ 32 := by omega
    exact { hu with d := hcap.trans_lt (BitVec.isLt _), s := hnext }
  | copyRuns hf hd hcap => exact { hf.dec_fit hr with d := hcap.trans_lt (BitVec.isLt _) }
  | encoded hp | decompressStarts hp | compressStarts hp | shortChunk hp | longChunk hp | blockStarts hp
  | searchEnds hp | miss hp | hit hp | pending hp | copyEnds hp | rematch hp | resume hp | remainder hp
  | noRemainder hp => exact absurd (hdec.symm.trans (isDecoding_of_eq hp rfl)) nofun

/-! ## The encoder -/

/-- A chunk ends inside the input and is no longer than `MAX_BLOCK_SIZE` (R113). -/
theorem chunkInv_bounds (hi : ChunkInv s) :
    s.enc.inPos + s.enc.blkLen ≤ s.srcLen.toNat ∧ s.enc.blkLen ≤ 65536 := by
  obtain ⟨-, -, h17, hlen⟩ := hi
  simp only [Config.minNonLiteralBlock, Config.maxBlockSize] at *
  omega

/-- A hash fits 14 bits (R16, R92). -/
theorem blockInv_hash_lt (hi : BlockInv s) (u : Word) : hash s.enc.shift u < 2 ^ 14 := by
  obtain ⟨-, hgeo, -⟩ := hi
  obtain ⟨hlt, hsize⟩ := hash_lt_tableSize hgeo u
  exact hlt.trans_le hsize

theorem blockInv_sLimit_le (hi : BlockInv s) : s.enc.sLimit + 15 = s.enc.blkLen ∧ s.enc.blkLen ≤ 65536 := by
  obtain ⟨hch, -, hlim⟩ := hi
  obtain ⟨-, hmax⟩ := chunkInv_bounds hch
  obtain ⟨-, -, h17, -⟩ := hch
  simp only [Config.minNonLiteralBlock, Config.inputMargin] at *
  omega

theorem enc_fit_blockStarted (he : s.enc.Fit) : s.blockStarted.enc.Fit := by
  obtain ⟨j, hj, h8, h14⟩ := tableGeometry_eq_pow s.enc.blkLen
  have hblk := he.blkLen
  have hsize : (tableGeometry s.enc.blkLen).1 ≤ 2 ^ 14 := by
    rw [hj]; exact Nat.pow_le_pow_right (by decide) h14
  have hshift : (tableGeometry s.enc.blkLen).2 < 2 ^ 5 := by rw [hj]; show 32 - j < 2 ^ 5; omega
  have hhash := (hash_lt_tableSize (n := s.enc.blkLen) (Prod.mk.eta) (s.fp 1)).1.trans_le hsize
  exact { he with
    tableSize := hsize.trans_lt (by decide), shift := hshift, sLimit := (Nat.sub_le _ _).trans_lt hblk
    nextEmit := Nat.two_pow_pos 17, s := Nat.one_lt_two_pow (by decide), nextS := Nat.one_lt_two_pow (by decide)
    skip := (by decide : 32 < 2 ^ 32), nextHash := hhash }

/-- The registers of the search that has moved on fit (R96). -/
theorem advanced_fit (hi : SearchInv s) (he : s.enc.Fit) : s.enc.advanced.Fit := by
  obtain ⟨hblk, -, hle, -, -, -, hskip, -⟩ := hi
  obtain ⟨hlim, hmax⟩ := blockInv_sLimit_le hblk
  have hstride := Nat.shiftRight_eq_div_pow s.enc.skip 5
  have hnext : s.enc.nextS + s.enc.skip >>> 5 < 2 ^ 17 := by omega
  have hnextSkip : s.enc.skip + s.enc.skip >>> 5 < 2 ^ 32 := by omega
  exact { he with s := he.nextS, nextS := hnext, skip := hnextSkip }

theorem enc_fit_probed (hi : SearchInv s) (he : s.enc.Fit) : s.probed.enc.Fit :=
  { advanced_fit hi he with
    candidate := (BitVec.isLt _).trans (by decide : 2 ^ 16 < 2 ^ 17)
    nextHash := by obtain ⟨hblk, -⟩ := hi; exact blockInv_hash_lt hblk _ }

theorem enc_fit_copied {p : Nat} (he : s.enc.Fit) (hd : (s.copied p).enc.d ≤ s.dstCap.toNat) (hp : p < 2 ^ 17) :
    (s.copied p).enc.Fit :=
  { he with d := hd.trans_lt (BitVec.isLt _), s := hp, nextEmit := hp, base := he.s }

theorem enc_fit_reinserted (he : s.enc.Fit) : s.reinserted.enc.Fit :=
  { he with candidate := (BitVec.isLt _).trans (by decide : 2 ^ 16 < 2 ^ 17) }

/-- The encoder's registers fit after every transition of a command's start and of the encoder. -/
theorem Transition.enc_fit (h : Transition s t) (hi : Inv s) (hb : s.status = .busy)
    (hdec : isDecoding s.phase = false) (he : s.enc.Fit) : t.enc.Fit := by
  have hclause : ∀ p, s.phase = p → PhaseClause p s := fun p => inv_clause hi hb
  have hcap : ∀ {n}, n ≤ s.dstCap.toNat → n < 2 ^ 32 := fun hn => hn.trans_lt (BitVec.isLt _)
  cases h with
  | raiseQuiet | finishQuiet | raise | encoded | decompressStarts => exact he
  | compressStarts _ _ hd => exact { he with d := hcap hd, inPos := Nat.two_pow_pos 32 }
  | @shortChunk n hp hn _ h17 hd =>
    have hs : ChunkLoopInv s := hclause _ hp
    obtain ⟨-, hin, -⟩ := hs
    have hend : s.enc.inPos + n < 2 ^ 32 := by have hsrc := s.srcLen.isLt; omega
    exact { he with d := hcap hd, blkLen := h17.trans (by decide), inPos := hend }
  | longChunk hp hn =>
    exact { he with blkLen := hn ▸ (Nat.min_le_right _ _).trans_lt (by decide) }
  | blockStarts => exact enc_fit_blockStarted he
  | searchEnds hp => exact advanced_fit (hclause _ hp) he
  | miss hp | hit hp => exact enc_fit_probed (hclause _ hp) he
  | pending hp hd => exact { he with d := hcap hd }
  | copyEnds hp hq hd =>
    have hs : CopyInv s := hclause _ hp
    obtain ⟨hblk, ⟨-, hlim, -⟩, -⟩ := hs
    have := blockInv_sLimit_le hblk
    exact enc_fit_copied he hd (by omega)
  | rematch hp _ hl hd => exact enc_fit_reinserted (enc_fit_copied he hd (hl.trans he.sLimit))
  | @resume p hp _ hl hd =>
    have hs : CopyInv s := hclause _ hp
    obtain ⟨hblk, -⟩ := hs
    have hlim := blockInv_sLimit_le hblk
    have hnext : p + 1 < 2 ^ 17 := by omega
    exact { enc_fit_reinserted (enc_fit_copied he hd (hl.trans he.sLimit)) with
      s := hnext, nextS := hnext, skip := (by decide : 32 < 2 ^ 32), nextHash := blockInv_hash_lt hblk _ }
  | remainder hp _ hd =>
    have hs : RemainderInv s := hclause _ hp
    obtain ⟨hend, -⟩ := chunkInv_bounds hs.1
    exact { he with d := hcap hd, inPos := hend.trans_lt (BitVec.isLt _) }
  | noRemainder hp =>
    have hs : RemainderInv s := hclause _ hp
    obtain ⟨hend, -⟩ := chunkInv_bounds hs.1
    exact { he with inPos := hend.trans_lt (BitVec.isLt _) }
  | decoded hp | headerRead hp | bodyStarts hp | bodyEnds hp =>
    exact absurd (hdec.symm.trans (isDecoding_of_eq hp rfl)) nofun
  | tokenRaises hf | literalRuns hf | copyRuns hf => exact absurd (hdec.symm.trans hf.isDecoding) nofun

end Widths

/-- Settles O54: a step writes the registers of one direction only (O48), and those fit by cases on the transition. -/
theorem registersKeepTheirWidth : Obligations.RegistersKeepTheirWidth := by
  unfold Obligations.RegistersKeepTheirWidth
  intro s t hi hr h
  by_cases hb : s.status = .busy
  · obtain ⟨he, hd⟩ := (registersFit_iff s).1 hr
    have htr := step_transition hb h
    refine (registersFit_iff t).2 ?_
    cases hp : isDecoding s.phase with
    | true =>
      obtain ⟨-, henc⟩ := step_keeps_encoder hb hp h
      exact ⟨henc ▸ he, htr.dec_fit hp hd⟩
    | false => exact ⟨htr.enc_fit hi hb hp he, step_keeps_dec hb hp h ▸ hd⟩
  · cases (step_quiescent hb).symm.trans h
    exact hr

end Sys2Proof.Machine
end

section
/-! PROOF of O60: two machines with the same arguments run a command in step. `Agree` relates them by what the rules of
the phase that comes next may look at; each part of a meaning, run in agreeing states, answers alike (`Follows`). -/

namespace Sys2Proof.Machine

open Sys2Proof.Safety Sys2Proof.Claims

/-! ## Runs that answer alike -/

/-- Whatever state `x` answers, `y` answers one that `R` relates to it. -/
def Follows (R : State → State → Prop) (x y : Run) : Prop := ∀ t, x = .ok t → ∃ w, y = .ok w ∧ R t w

/-- The same of outcomes. -/
def OutcomeFollows (R : State → State → Prop) (x y : Host.Outcome State Fault Refusal) : Prop :=
  ∀ t, x = .next t → ∃ w, y = .next w ∧ R t w

section Shapes

variable {R Q : State → State → Prop}

theorem Follows.ok {s u : State} (h : R s u) : Follows R (.ok s) (.ok u) := fun _ ht => by
  cases ht; exact ⟨u, rfl, h⟩

theorem Follows.error {e : Stop} {y : Run} : Follows R (.error e) y := fun _ ht => by cases ht

/-- A test that comes out alike. -/
theorem Follows.ite {c : Prop} [Decidable c] {x x' y y' : Run} (hx : c → Follows R x x')
    (hy : ¬c → Follows R y y') : Follows R (if c then x else y) (if c then x' else y') := by
  split
  · next h => exact hx h
  · next h => exact hy h

/-- One part after another. -/
theorem Follows.bind {x x' : Run} {g g' : State → Run} (hx : Follows Q x x')
    (hg : ∀ t w, Q t w → Follows R (g t) (g' w)) : Follows R (x >>= g) (x' >>= g') := fun t ht => by
  obtain ⟨s, hs, ht⟩ := Except.bind_eq_ok.1 ht
  obtain ⟨u, rfl, hq⟩ := hx s hs
  exact hg s u hq t ht

/-- A read that answers alike. -/
theorem Follows.read {α : Type} {x x' : Except Stop α} {g g' : α → Run} (hx : x' = x)
    (hg : ∀ a, x = .ok a → Follows R (g a) (g' a)) : Follows R (x >>= g) (x' >>= g') := fun t ht => by
  obtain ⟨a, ha, ht⟩ := Except.bind_eq_ok.1 ht
  obtain ⟨w, hw, hr⟩ := hg a ha t ht
  exact ⟨w, Except.bind_eq_ok.2 ⟨a, hx.trans ha, hw⟩, hr⟩

theorem Follows.outcome {x y : Run} (h : Follows R x y) : OutcomeFollows R x.outcome y.outcome := fun t ht => by
  obtain ⟨w, rfl, hr⟩ := h t (Run.outcome_eq_next.1 ht)
  exact ⟨w, rfl, hr⟩

theorem OutcomeFollows.next {s u : State} (h : R s u) : OutcomeFollows R (.next s) (.next u) := fun _ ht => by
  cases ht; exact ⟨u, rfl, h⟩

end Shapes

/-! ## What two machines have in common -/

/-- The CSRs, the parameter and the input are the same (R12, R22). -/
structure SameView (s u : State) : Prop where
  params : u.params = s.params
  cmd : u.cmd = s.cmd
  srcLen : u.srcLen = s.srcLen
  dstCap : u.dstCap = s.dstCap
  status : u.status = s.status
  err : u.err = s.err
  outLen : u.outLen = s.outLen
  src : ∀ a < s.srcLen.toNat, u.srcByte a = s.srcByte a

/-- The output up to `n` is the same. -/
def SameOutput (s u : State) (n : Nat) : Prop := ∀ a < n, u.dstByte a = s.dstByte a

/-- The entries the block uses are the same (R94). -/
def SameTable (s u : State) : Prop := ∀ i < s.enc.tableSize, Table.entry u.ht i = Table.entry s.ht i

/-- The decoder between tokens does not look at `length` and `offset` (R120). -/
def SameDecoder (s u : State) : Prop :=
  (∃ length offset, u.dec = { s.dec with length := length, offset := offset }) ∧ SameOutput s u s.dec.d

/-- Between chunks the encoder looks at `in_pos` and `d` (R113). -/
def SameEncoder (s u : State) : Prop :=
  u.enc.inPos = s.enc.inPos ∧ u.enc.d = s.enc.d ∧ SameOutput s u s.enc.d

/-- What the rules of a phase may look at is the same. -/
def Seen : Phase → State → State → Prop
  | .cStart, _, _ | .hDec, _, _ => True
  | .dInit, s, u => u.dec.hdrLen = s.dec.hdrLen ∧ u.dec.destLen = s.dec.destLen
  | .dFetch, s, u | .dEnd, s, u => SameDecoder s u
  | .dLit, s, u => (∃ offset, u.dec = { s.dec with offset := offset }) ∧ SameOutput s u s.dec.d
  | .dCopy, s, u => u.dec = s.dec ∧ SameOutput s u s.dec.d
  | .eChunk, s, u => SameEncoder s u
  | .bInit, s, u => SameEncoder s u ∧ u.enc.blkLen = s.enc.blkLen
  | .bSearch, s, u =>
    (∃ candidate base, u.enc = { s.enc with candidate := candidate, base := base }) ∧ SameOutput s u s.enc.d ∧
      SameTable s u
  | .bMatch, s, u | .bCopy, s, u =>
    (∃ base, u.enc = { s.enc with base := base }) ∧ SameOutput s u s.enc.d ∧ SameTable s u
  | .bRemainder, s, u =>
    (∃ candidate base, u.enc = { s.enc with candidate := candidate, base := base }) ∧ SameOutput s u s.enc.d

/-- Two machines in step: the same view; while BUSY the same phase and what its rules look at; after a COMPRESS or
DECOMPRESS that completed the same result. -/
structure Agree (s u : State) : Prop where
  view : SameView s u
  seen : s.status = .busy → u.phase = s.phase ∧ Seen s.phase s u
  result : s.status = .done → s.cmd ≠ 3#32 → SameOutput s u s.outLen.toNat

section Updates

variable {s u : State}

/-- Parts that keep the frame keep what two machines have in common. -/
theorem SameView.work {t w : State} (h : SameView s u) (ht : WorkFrame s t) (hw : WorkFrame u w) : SameView t w := by
  obtain ⟨htp, htc, htl, htd, hts, htr⟩ := ht.inputs
  obtain ⟨hwp, hwc, hwl, hwd, hws, hwr⟩ := hw.inputs
  refine ⟨?_, ?_, ?_, ?_, ?_, ?_, ?_, fun a ha => ?_⟩
  · rw [htp, hwp, h.params]
  · rw [htc, hwc, h.cmd]
  · rw [htl, hwl, h.srcLen]
  · rw [htd, hwd, h.dstCap]
  · rw [ht.status, hw.status, h.status]
  · rw [ht.err, hw.err, h.err]
  · rw [ht.outLen, hw.outLen, h.outLen]
  · have hsame := h.src a (htl ▸ ha)
    simp only [State.srcByte, hts, htr, hws, hwr] at hsame ⊢
    exact hsame

theorem SameOutput.work {t w : State} {n : Nat} (h : SameOutput s u n) (ht : WorkFrame s t) (hw : WorkFrame u w)
    (htd : t.dst = s.dst) (hwd : w.dst = u.dst) : SameOutput t w n := fun a ha => by
  rw [ht.dstByte_eq (by rw [htd]), hw.dstByte_eq (by rw [hwd]), h a ha]

/-! ## Reads -/

theorem SameView.srcBytes (h : SameView s u) (a n : Nat) (hn : a + n ≤ s.srcLen.toNat) :
    u.srcBytes a n = s.srcBytes a n := by
  induction n generalizing a with
  | zero => rfl
  | succ n ih => simp only [State.srcBytes, h.src a (by omega), ih (a + 1) (by omega)]

theorem SameView.readSrc (h : SameView s u) (a n : Nat) : u.readSrc a n = s.readSrc a n := by
  unfold State.readSrc
  rw [h.srcLen]
  split
  · next hn => rw [h.srcBytes a n hn]
  · rfl

theorem SameView.readChunk (h : SameView s u) (hin : u.enc.inPos = s.enc.inPos) (hlen : u.enc.blkLen = s.enc.blkLen)
    (p : Nat) : u.readChunk p = s.readChunk p := by
  simp only [State.readChunk, State.chunkByte, h.srcLen, hin, hlen]
  split
  · next hp => rw [h.src _ hp.2]
  · rfl

theorem SameView.fingerprint (h : SameView s u) (hin : u.enc.inPos = s.enc.inPos)
    (hlen : u.enc.blkLen = s.enc.blkLen) (p : Nat) : u.fingerprint p = s.fingerprint p := by
  simp only [State.fingerprint, State.fp, h.srcLen, hin, hlen]
  split
  · next hp => rw [h.srcBytes _ 4 hp.2]
  · rfl

theorem SameView.hashAt (h : SameView s u) (hin : u.enc.inPos = s.enc.inPos) (hlen : u.enc.blkLen = s.enc.blkLen)
    (hshift : u.enc.shift = s.enc.shift) (p : Nat) : u.hashAt p = s.hashAt p := by
  simp only [State.hashAt, h.fingerprint hin hlen, hshift]

theorem SameView.extendMatch (h : SameView s u) (hin : u.enc.inPos = s.enc.inPos)
    (hlen : u.enc.blkLen = s.enc.blkLen) (fuel i p : Nat) : u.extendMatch fuel i p = s.extendMatch fuel i p := by
  induction fuel generalizing i p with
  | zero => rfl
  | succ fuel ih => simp only [State.extendMatch, h.readChunk hin hlen, hlen, ih]

theorem SameTable.readHt (h : SameTable s u) {i : Nat} (hi : i < s.enc.tableSize) : u.readHt i = s.readHt i := by
  simp only [State.readHt, h i hi]

/-! ## Writes -/

theorem SameOutput.putBytes {n : Nat} (h : SameOutput s u n) (bytes : List Byte) :
    SameOutput (s.setDst (Memory.putBytes s.dst n bytes)) (u.setDst (Memory.putBytes u.dst n bytes))
      (n + bytes.length) := fun a ha => by
  rw [State.dstByte_putBytes, State.dstByte_putBytes]
  split
  · rfl
  · exact h a (by omega)

/-- Both machines wrote the same bytes at the same cursor. -/
structure EmittedBoth (s u t w : State) : Prop where
  frame : WorkFrame s t
  frame' : WorkFrame u w
  enc : ∃ n, t.enc = { s.enc with d := s.enc.d + n } ∧ w.enc = { u.enc with d := s.enc.d + n }
  output : SameOutput t w t.enc.d
  ht : t.ht = s.ht
  ht' : w.ht = u.ht

theorem Follows.emit (h : SameView s u) (hd : u.enc.d = s.enc.d) (hout : SameOutput s u s.enc.d)
    (bytes : List Byte) : Follows (EmittedBoth s u) (s.emit bytes) (u.emit bytes) := fun t ht => by
  obtain ⟨hcap, rfl⟩ := State.emit_eq_ok.1 ht
  refine ⟨u.emitted bytes, State.emit_eq_ok.2 ⟨by rwa [hd, h.dstCap], rfl⟩, (WorkFrame.refl s).emitted bytes,
    (WorkFrame.refl u).emitted bytes, ⟨bytes.length, rfl, ?_⟩, ?_, rfl, rfl⟩
  · rw [← hd]; rfl
  · unfold State.emitted
    rw [hd]
    exact hout.putBytes bytes

theorem Follows.emitLit (h : SameView s u) (hd : u.enc.d = s.enc.d) (hout : SameOutput s u s.enc.d) (a n : Nat) :
    Follows (EmittedBoth s u) (emitLit a n s) (emitLit a n u) :=
  .ite (fun _ => .error) fun _ => .read (h.readSrc a n) fun _ _ => .emit h hd hout _

theorem Follows.emitCopy (h : SameView s u) (hd : u.enc.d = s.enc.d) (hout : SameOutput s u s.enc.d)
    (offset length : Nat) :
    Follows (EmittedBoth s u) (emitCopy offset length s) (emitCopy offset length u) :=
  .ite (fun _ => .error) fun _ => .emit h hd hout _

/-- Both machines wrote the same entry of their tables. -/
structure EntryWritten (s u t w : State) : Prop where
  frame : WorkFrame s t
  frame' : WorkFrame u w
  enc : t.enc = s.enc
  enc' : w.enc = u.enc
  output : ∀ n, SameOutput s u n → SameOutput t w n
  table : SameTable t w

theorem Follows.writeHt (htab : SameTable s u) (i p : Nat) :
    Follows (EntryWritten s u) (s.writeHt i p) (u.writeHt i p) := fun t ht => by
  obtain ⟨hi, rfl⟩ := State.writeHt_eq_ok.1 ht
  refine ⟨_, State.writeHt_eq_ok.2 ⟨hi, rfl⟩, (WorkFrame.refl s).setHt _, (WorkFrame.refl u).setHt _, rfl, rfl,
    fun _ hout => hout, fun j hj => ?_⟩
  rw [State.setHt_ht, State.setHt_ht, Table.entry_put, Table.entry_put, htab j hj]

/-- The copy loop reads below its cursor only, where the output is the same (R130, R132). -/
theorem SameOutput.copyLoop {offset d : Nat} (h : SameOutput s u d) (h1 : 1 ≤ offset) (hle : offset ≤ d) (n : Nat) :
    SameOutput (s.copyLoop offset d n) (u.copyLoop offset d n) (d + n) := by
  induction n generalizing s u d with
  | zero => exact h
  | succ n ih =>
    rw [show d + (n + 1) = d + 1 + n by omega]
    refine ih (fun a ha => ?_) (by omega)
    rw [State.dstByte_put, State.dstByte_put]
    split
    · exact h _ (by omega)
    · exact h a (by omega)

/-! ## The ends of a command, and going on -/

theorem Agree.raise (h : SameView s u) (k : ErrKind) : Agree (s.raise k) (u.raise k) where
  view := { h with status := rfl, err := rfl, outLen := rfl }
  seen := nofun
  result := nofun

theorem Agree.raiseQuiet (h : SameView s u) (k : ErrKind) : Agree (s.raiseQuiet k) (u.raiseQuiet k) where
  view := { h with status := rfl, err := rfl, outLen := rfl }
  seen := nofun
  result := nofun

theorem Agree.finish (h : SameView s u) {n : Nat} (hout : SameOutput s u n) : Agree (s.finish n) (u.finish n) where
  view := { h with status := rfl, outLen := rfl }
  seen := nofun
  result _ _ a ha := by
    have hn : a < n := ha.trans_le (Nat.mod_le n (2 ^ 32))
    rw [State.dstByte_finish _ _ _ (.inl hn), State.dstByte_finish _ _ _ (.inl hn), hout a hn]

/-- Both go on to the phase `p`. -/
theorem Agree.go {t w : State} (p : Phase) (h : SameView s u) (hb : s.status = .busy) (ht : WorkFrame s t)
    (hw : WorkFrame u w) (htp : t.phase = p) (hwp : w.phase = p) (hseen : Seen p t w) : Agree t w where
  view := h.work ht hw
  seen _ := ⟨hwp.trans htp.symm, htp ▸ hseen⟩
  result hd := absurd ((ht.status.trans hb).symm.trans hd) nofun

end Updates

section Parts

variable {s u : State}

/-! ## The decoder -/

theorem Follows.literalBody (h : SameView s u) (hb : s.status = .busy) (hseen : Seen .dLit s u) :
    Follows Agree (literalBody s) (literalBody u) := by
  obtain ⟨⟨o, hu⟩, hout⟩ := hseen
  unfold Machine.literalBody
  simp only [hu]
  refine .ite (fun _ => .ok (.raise h _)) fun _ => .ite (fun _ => .ok (.raise h _)) fun _ =>
    .ite (fun _ => .ok (.raise h _)) fun _ => .read (h.readSrc _ _) fun payload hp => ?_
  refine .bind (Q := fun t w => t = s.setDst (Memory.putBytes s.dst s.dec.d payload) ∧
    w = u.setDst (Memory.putBytes u.dst s.dec.d payload)) (fun t ht => ?_) ?_
  · obtain ⟨hcap, rfl⟩ := State.writeDst_eq_ok.1 ht
    exact ⟨_, State.writeDst_eq_ok.2 ⟨h.dstCap ▸ hcap, rfl⟩, rfl, rfl⟩
  · rintro t w ⟨rfl, rfl⟩
    obtain ⟨-, rfl⟩ := State.readSrc_eq_ok.1 hp
    have hput := hout.putBytes (s.srcBytes (s.dec.hdrLen + s.dec.s) s.dec.length)
    rw [State.srcBytes_length] at hput
    exact .ok (.go .dFetch h hb ((((WorkFrame.refl s).setDst _).setDec _).setPhase _)
      ((((WorkFrame.refl u).setDst _).setDec _).setPhase _) rfl rfl ⟨⟨s.dec.length, o, rfl⟩, hput⟩)

theorem Follows.copyBody (h : SameView s u) (hb : s.status = .busy) (hseen : Seen .dCopy s u) :
    Follows Agree (copyBody s) (copyBody u) := by
  obtain ⟨hu, hout⟩ := hseen
  unfold Machine.copyBody
  simp only [hu]
  refine .ite (fun _ => .ok (.raise h _)) fun h0 => .ite (fun _ => .ok (.raise h _)) fun hd =>
    .ite (fun _ => .ok (.raise h _)) fun _ => .bind (Q := fun t w => t = s.copyLoop s.dec.offset s.dec.d s.dec.length ∧
      w = u.copyLoop s.dec.offset s.dec.d s.dec.length) (fun t ht => ?_) ?_
  · obtain ⟨hcap, rfl⟩ := State.expandCopy_eq_ok.1 ht
    exact ⟨_, State.expandCopy_eq_ok.2 ⟨h.dstCap ▸ hcap, rfl⟩, rfl, rfl⟩
  · rintro t w ⟨rfl, rfl⟩
    exact .ok (.go .dFetch h hb ((((WorkFrame.refl s).copyLoop _ _ _).setDec _).setPhase _)
      ((((WorkFrame.refl u).copyLoop _ _ _).setDec _).setPhase _) rfl rfl
      ⟨⟨s.dec.length, s.dec.offset, rfl⟩, hout.copyLoop (by omega) (by omega) _⟩)

theorem Follows.literal (h : SameView s u) (hb : s.status = .busy) (hseen : SameDecoder s u) (head length : Nat) :
    Follows Agree (literal head length s) (literal head length u) := by
  obtain ⟨⟨l, o, hu⟩, hout⟩ := hseen
  refine .literalBody (h.work (((WorkFrame.refl s).setDec _).setPhase _) (((WorkFrame.refl u).setDec _).setPhase _)) hb
    ⟨⟨o, ?_⟩, hout⟩
  simp only [State.setPhase_dec, State.setDec_dec, hu]

theorem Follows.longLiteral (h : SameView s u) (hb : s.status = .busy) (hseen : SameDecoder s u) (head length : Nat) :
    Follows Agree (longLiteral head length s) (longLiteral head length u) := by
  obtain ⟨l, o, hu⟩ := hseen.1
  unfold Machine.longLiteral
  rw [hu]
  exact .ite (fun _ => .ok (.raise h _)) fun _ => .literal h hb hseen head length

theorem Follows.copy (h : SameView s u) (hb : s.status = .busy) (hseen : SameDecoder s u) (head length offset : Nat) :
    Follows Agree (copy head length offset s) (copy head length offset u) := by
  obtain ⟨⟨l, o, hu⟩, hout⟩ := hseen
  unfold Machine.copy
  simp only [hu]
  exact .ite (fun _ => .ok (.raise h _)) fun _ =>
    .copyBody (h.work (((WorkFrame.refl s).setDec _).setPhase _) (((WorkFrame.refl u).setDec _).setPhase _)) hb
      ⟨rfl, hout⟩

theorem Follows.decodeInit (h : SameView s u) (hb : s.status = .busy) (hseen : Seen .dInit s u) :
    Follows Agree (decodeInit s) (decodeInit u) := by
  obtain ⟨hhdr, hdest⟩ := hseen
  unfold Machine.decodeInit
  rw [hdest, hhdr, h.dstCap, h.srcLen]
  refine .ite (fun _ => .ok (.raise h _)) fun _ =>
    .ok (.go .dFetch h hb (((WorkFrame.refl s).setDec _).setPhase _) (((WorkFrame.refl u).setDec _).setPhase _) rfl rfl
      ⟨⟨u.dec.length, u.dec.offset, ?_⟩, fun a ha => absurd ha (Nat.not_lt_zero a)⟩)
  simp only [State.setPhase_dec, State.setDec_dec, hhdr, hdest]

theorem Follows.decodeEnd (h : SameView s u) (hseen : SameDecoder s u) : Follows Agree (decodeEnd s) (decodeEnd u) := by
  obtain ⟨⟨l, o, hu⟩, hout⟩ := hseen
  unfold Machine.decodeEnd
  simp only [hu]
  exact .ite (fun _ => .ok (.raise h _)) fun hd => .ok (.finish h (not_not.1 hd ▸ hout))

theorem OutcomeFollows.execHdr (h : SameView s u) (hb : s.status = .busy) (value len : Nat) :
    OutcomeFollows Agree (execHdr value len s) (execHdr value len u) := by
  refine Follows.outcome ?_
  rw [h.srcLen, h.params]
  exact .ite (fun _ => .ok (.raise h _)) fun _ => .ite (fun _ => .ok (.raise h _)) fun _ =>
    .ite (fun _ => .ok (.raise h _)) fun _ => .ite (fun _ => .ok (.raise h _)) fun _ =>
    .ok (.go .dInit h hb (((WorkFrame.refl s).setDec _).setPhase _) (((WorkFrame.refl u).setDec _).setPhase _) rfl rfl
      ⟨rfl, rfl⟩)

/-! ## The block encoder -/

theorem Follows.blockInit (h : SameView s u) (hb : s.status = .busy) (hseen : Seen .bInit s u) :
    Follows Agree (blockInit s) (blockInit u) := by
  obtain ⟨⟨hin, hd, hout⟩, hlen⟩ := hseen
  unfold Machine.blockInit
  simp only [hlen]
  have hs := ((WorkFrame.refl s).setHt (Table.clear s.ht (tableGeometry s.enc.blkLen).1)).setEnc
  have hw := ((WorkFrame.refl u).setHt (Table.clear u.ht (tableGeometry s.enc.blkLen).1)).setEnc
  refine .ite (fun _ => .error) fun _ => .read ?_ fun nh _ => .ok ?_
  · exact (h.work (hs _) (hw _)).hashAt (by exact hin) (by rfl) (by rfl) 1
  · have hs' := fun e => ((hs e).setEnc { e with nextHash := nh }).enterSearch
    have hw' := fun e => ((hw e).setEnc { e with nextHash := nh }).enterSearch
    refine .go .bSearch h hb (hs' _) (hw' _) rfl rfl ⟨⟨u.enc.candidate, u.enc.base, ?_⟩, ?_, fun i hi => ?_⟩
    · simp only [State.enterSearch_enc, State.setEnc_enc, hin, hd]
    · refine SameOutput.work ?_ (hs' _) (hw' _) ?_ ?_
      · exact hout
      all_goals simp only [State.enterSearch_dst, State.setEnc_dst, State.setHt_dst]
    · simp only [State.enterSearch_ht, State.setEnc_ht, State.setHt_ht, Table.entry_clear]
      exact (if_pos hi).trans (if_pos hi).symm

theorem Follows.blockSearch (h : SameView s u) (hb : s.status = .busy) (hseen : Seen .bSearch s u)
    (hidx : s.enc.nextHash < s.enc.tableSize) : Follows Agree (blockSearch s) (blockSearch u) := by
  obtain ⟨⟨c, b, hu⟩, hout, htab⟩ := hseen
  unfold Machine.blockSearch
  simp only [hu]
  refine .ite (fun _ => .ok (.go .bRemainder h hb (((WorkFrame.refl s).setEnc _).setPhase _)
    (((WorkFrame.refl u).setEnc _).setPhase _) rfl rfl ⟨⟨c, b, rfl⟩, hout⟩)) fun _ =>
    .read (htab.readHt hidx) fun cand _ => .bind (.writeHt htab _ _) fun t w hwr => ?_
  have hv := h.work hwr.frame hwr.frame'
  have hin : w.enc.inPos = t.enc.inPos := by rw [hwr.enc', hwr.enc, hu]
  have hlen : w.enc.blkLen = t.enc.blkLen := by rw [hwr.enc', hwr.enc, hu]
  have hshift : w.enc.shift = t.enc.shift := by rw [hwr.enc', hwr.enc, hu]
  have hsize : t.enc.tableSize = s.enc.tableSize := by rw [hwr.enc]
  have htab1 : ∀ i < s.enc.tableSize, Table.entry w.ht i = Table.entry t.ht i := hsize ▸ hwr.table
  refine .read (hv.hashAt hin hlen hshift _) fun nh _ => .read (hv.fingerprint hin hlen _) fun fs _ =>
    .read (hv.fingerprint hin hlen _) fun fc _ => .ok ?_
  split
  · exact .go .bMatch h hb ((hwr.frame.setEnc _).setPhase _) ((hwr.frame'.setEnc _).setPhase _) rfl rfl
      ⟨⟨b, rfl⟩, hwr.output _ hout, htab1⟩
  · exact .go .bSearch h hb ((hwr.frame.setEnc _).setPhase _) ((hwr.frame'.setEnc _).setPhase _) rfl rfl
      ⟨⟨cand, b, rfl⟩, hwr.output _ hout, htab1⟩

theorem Follows.blockMatch (h : SameView s u) (hb : s.status = .busy) (hseen : Seen .bMatch s u) :
    Follows Agree (blockMatch s) (blockMatch u) := by
  obtain ⟨⟨b, hu⟩, hout, htab⟩ := hseen
  unfold Machine.blockMatch
  rw [hu]
  refine .bind (.emitLit h (by rw [hu]) hout _ _) fun t w hem => ?_
  obtain ⟨n, ht, hw⟩ := hem.enc
  refine .ok (.go .bCopy h hb (hem.frame.setPhase _) (hem.frame'.setPhase _) rfl rfl ⟨⟨b, ?_⟩, hem.output, ?_⟩)
  · rw [State.setPhase_enc, State.setPhase_enc, hw, ht, hu]
  · intro i hi
    rw [State.setPhase_enc, ht] at hi
    rw [State.setPhase_ht, State.setPhase_ht, hem.ht', hem.ht]
    exact htab i hi

/-- Re-insertion after a copy: every index is a hash of the block's table, where the entries are the same (R102). -/
theorem Follows.blockReinsert {n c b : Nat} (h : SameView s u) (hb : s.status = .busy)
    (hu : u.enc = { s.enc with candidate := c, base := b }) (hout : SameOutput s u s.enc.d) (htab : SameTable s u)
    (hgeo : (s.enc.tableSize, s.enc.shift) = tableGeometry n) : Follows Agree (blockReinsert s) (blockReinsert u) := by
  have hpos : u.enc.s = s.enc.s := by rw [hu]
  unfold Machine.blockReinsert
  simp only [hpos]
  refine .read (h.hashAt (by rw [hu]) (by rw [hu]) (by rw [hu]) _) fun prev _ =>
    .bind (.writeHt htab _ _) fun t w hwr => ?_
  have hv := h.work hwr.frame hwr.frame'
  have henc : w.enc = { t.enc with candidate := c, base := b } := by rw [hwr.enc', hwr.enc, hu]
  refine .read (hv.hashAt (by rw [henc]) (by rw [henc]) (by rw [henc]) _) fun curr hcurr => ?_
  have hidx : curr < t.enc.tableSize := by
    obtain ⟨-, rfl⟩ := State.hashAt_eq_ok.1 hcurr
    rw [hwr.enc]
    exact (hash_lt_tableSize hgeo _).1
  refine .read (hwr.table.readHt hidx) fun cand _ => .bind (.writeHt hwr.table _ _) fun t' w' hwr' => ?_
  have hv' := hv.work hwr'.frame hwr'.frame'
  have henc' : w'.enc = { t'.enc with candidate := c, base := b } := by rw [hwr'.enc', hwr'.enc, henc]
  have hb' : t'.status = .busy := hwr'.frame.status.trans (hwr.frame.status.trans hb)
  have hout' : SameOutput t' w' t'.enc.d := hwr'.enc ▸ hwr.enc ▸ hwr'.output _ (hwr.output _ hout)
  have hfs := WorkFrame.refl t'
  have hfw := WorkFrame.refl w'
  refine .read (hv'.fingerprint (by rw [henc']) (by rw [henc']) _) fun fs _ =>
    .read (hv'.fingerprint (by rw [henc']) (by rw [henc']) _) fun fc _ => .ite (fun _ => .ok ?_) fun _ =>
    .read (hv'.hashAt (by rw [henc']) (by rw [henc']) (by rw [henc']) _) fun nh _ => .ok ?_
  · rw [henc']
    exact .go .bCopy hv' hb' ((hfs.setEnc _).setPhase _) ((hfw.setEnc _).setPhase _) rfl rfl
      ⟨⟨b, rfl⟩, hout', hwr'.table⟩
  · rw [henc']
    exact .go .bSearch hv' hb' (hfs.setEnc _).enterSearch (hfw.setEnc _).enterSearch rfl rfl
      ⟨⟨cand, b, rfl⟩, hout', hwr'.table⟩

theorem Follows.blockCopy {n : Nat} (h : SameView s u) (hb : s.status = .busy) (hseen : Seen .bCopy s u)
    (hgeo : (s.enc.tableSize, s.enc.shift) = tableGeometry n) : Follows Agree (blockCopy s) (blockCopy u) := by
  obtain ⟨⟨b, hu⟩, hout, htab⟩ := hseen
  unfold Machine.blockCopy
  simp only [hu]
  refine .read (h.extendMatch (by rw [hu]) (by rw [hu]) _ _ _) fun p _ => ?_
  have hs := (WorkFrame.refl s).setEnc { s.enc with base := s.enc.s, s := p }
  have hw := (WorkFrame.refl u).setEnc { s.enc with base := s.enc.s, s := p }
  refine .bind (.emitCopy (h.work hs hw) rfl hout _ _) fun t w hem => ?_
  obtain ⟨m, ht, hw'⟩ := hem.enc
  rw [State.setEnc_enc] at ht hw'
  have henc : w.enc = t.enc := hw'.trans ht.symm
  have hv := (h.work hs hw).work hem.frame hem.frame'
  have hb' : t.status = .busy := hem.frame.status.trans hb
  have htab' : SameTable t w := fun i hi => by
    rw [ht] at hi
    rw [hem.ht', hem.ht]
    exact htab i hi
  rw [henc]
  refine .ite (fun _ => .ok (.go .bRemainder hv hb' (((WorkFrame.refl t).setEnc _).setPhase _)
    (((WorkFrame.refl w).setEnc _).setPhase _) rfl rfl ⟨⟨_, _, rfl⟩, hem.output⟩)) fun _ =>
    .blockReinsert (n := n) (hv.work ((WorkFrame.refl t).setEnc _) ((WorkFrame.refl w).setEnc _)) hb' rfl hem.output
      htab' ?_
  rw [State.setEnc_enc, ht]
  exact hgeo

/-- Back to the chunk loop with the same output (R113). -/
theorem Agree.nextChunk (h : SameView s u) (hb : s.status = .busy) (hin : u.enc.inPos = s.enc.inPos)
    (hlen : u.enc.blkLen = s.enc.blkLen) (hd : u.enc.d = s.enc.d) (hout : SameOutput s u s.enc.d) :
    Agree s.nextChunk u.nextChunk := by
  refine .go .eChunk h hb (WorkFrame.refl s).nextChunk (WorkFrame.refl u).nextChunk rfl rfl ⟨?_, hd, hout⟩
  rw [State.nextChunk_enc, State.nextChunk_enc, hin, hlen]

/-- The same after a literal (R103, R114). -/
theorem Agree.nextChunk_emitted {t w : State} (h : SameView s u) (hb : s.status = .busy)
    (hin : u.enc.inPos = s.enc.inPos) (hlen : u.enc.blkLen = s.enc.blkLen) (hem : EmittedBoth s u t w) :
    Agree t.nextChunk w.nextChunk := by
  obtain ⟨n, ht, hw⟩ := hem.enc
  refine .nextChunk (h.work hem.frame hem.frame') (hem.frame.status.trans hb) ?_ ?_ ?_ hem.output <;> rw [hw, ht]
  · exact hin
  · exact hlen

theorem Follows.blockRemainder (h : SameView s u) (hb : s.status = .busy) (hseen : Seen .bRemainder s u) :
    Follows Agree (blockRemainder s) (blockRemainder u) := by
  obtain ⟨⟨c, b, hu⟩, hout⟩ := hseen
  have hin : u.enc.inPos = s.enc.inPos := by rw [hu]
  have hlen : u.enc.blkLen = s.enc.blkLen := by rw [hu]
  have hd : u.enc.d = s.enc.d := by rw [hu]
  have hemit : u.enc.nextEmit = s.enc.nextEmit := by rw [hu]
  unfold Machine.blockRemainder
  rw [hin, hlen, hemit]
  exact .ite (fun _ => .bind (.emitLit h hd hout _ _) fun t w hem => .ok (.nextChunk_emitted h hb hin hlen hem))
    fun _ => .ok (.nextChunk h hb hin hlen hd hout)

theorem Follows.chunkLoop (h : SameView s u) (hb : s.status = .busy) (hseen : SameEncoder s u) :
    Follows Agree (chunkLoop s) (chunkLoop u) := by
  obtain ⟨hin, hd, hout⟩ := hseen
  unfold Machine.chunkLoop
  simp only [h.srcLen, hin, hd]
  generalize min (s.srcLen.toNat - s.enc.inPos) Config.maxBlockSize = n
  have hs := (WorkFrame.refl s).setEnc { s.enc with blkLen := n }
  have hw := (WorkFrame.refl u).setEnc { u.enc with inPos := s.enc.inPos, d := s.enc.d, blkLen := n }
  refine .ite (fun _ => .ite (fun _ => .bind (.emitLit (h.work hs hw) rfl hout _ _) fun t w hem => .ok ?_)
    fun _ => .ok ?_) fun _ => .ok (.finish h hout)
  · exact .nextChunk_emitted (h.work hs hw) hb rfl rfl hem
  · exact .go .bInit h hb (hs.setPhase _) (hw.setPhase _) rfl rfl ⟨⟨rfl, rfl, hout⟩, rfl⟩

/-! ## Commands and codes -/

theorem OutcomeFollows.execMaxlen (h : SameView s u) (hc : s.cmd = 3#32) :
    OutcomeFollows Agree (execMaxlen s) (execMaxlen u) := by
  unfold Machine.execMaxlen
  rw [h.srcLen]
  cases maxEncodedLength s.srcLen.toNat with
  | none => exact .next (.raiseQuiet h _)
  | some n => exact .next ⟨{ h with status := rfl, outLen := rfl }, nofun, fun _ hne => absurd hc hne⟩

theorem OutcomeFollows.execCompress (h : SameView s u) (hb : s.status = .busy) :
    OutcomeFollows Agree (execCompress s) (execCompress u) := by
  unfold Machine.execCompress
  rw [h.srcLen, h.dstCap]
  cases maxEncodedLength s.srcLen.toNat with
  | none => exact .next (.raise h _)
  | some n =>
    dsimp only
    split
    · exact .next (.raise h _)
    · have hs := (WorkFrame.refl s).setEnc { s.enc with d := 0 }
      have hw := (WorkFrame.refl u).setEnc { u.enc with d := 0 }
      refine Follows.outcome (.bind (.emit (h.work hs hw) rfl (fun a ha => absurd ha (Nat.not_lt_zero a)) _)
        fun t w hem => .ok ?_)
      obtain ⟨m, ht, hw'⟩ := hem.enc
      refine .go .eChunk ((h.work hs hw).work hem.frame hem.frame') (hem.frame.status.trans hb)
        (((WorkFrame.refl t).setEnc _).setPhase _) (((WorkFrame.refl w).setEnc _).setPhase _) rfl rfl
        ⟨rfl, ?_, hem.output⟩
      show w.enc.d = t.enc.d
      rw [hw', ht]

theorem decodeCommand_eq_maxlen {v : Word} (h : decodeCommand v = .ok .maxlen) : v = 3#32 := by
  revert h
  fun_cases decodeCommand v <;> simp [*]

theorem OutcomeFollows.command {i : Instr} (h : SameView s u) (hb : s.status = .busy)
    (hd : decodeCommand s.cmd = .ok i) : OutcomeFollows Agree (exec i s) (exec i u) := by
  have hi := decode_isCommand (c := .command s.cmd) hd
  cases i <;> cases hi
  case compress => exact .execCompress h hb
  case decompress =>
    exact .next (.go .hDec h hb ((WorkFrame.refl s).setPhase _) ((WorkFrame.refl u).setPhase _) rfl rfl trivial)
  case maxlen => exact .execMaxlen h (decodeCommand_eq_maxlen hd)

theorem OutcomeFollows.token {i : Instr} {bytes : List Byte} (h : SameView s u) (hb : s.status = .busy)
    (hseen : SameDecoder s u) (hd : decodeToken bytes = .ok i) : OutcomeFollows Agree (exec i s) (exec i u) := by
  have hi := decode_isCommand (c := .token bytes) hd
  cases i with
  | litS m => exact Follows.outcome (.literal h hb hseen _ _)
  | lit1 m | lit2 m | lit3 m | lit4 m => exact Follows.outcome (.longLiteral h hb hseen _ _)
  | copy1 l offset | copy2 l offset | copy4 l offset => exact Follows.outcome (.copy h hb hseen _ _ _)
  | hdr value len => exact absurd hd decodeToken_ne_hdr
  | compress | decompress | maxlen => cases hi

theorem Follows.rejectCode (h : SameView s u) (e : DecodeError) : Follows Agree (rejectCode e s) (rejectCode e u) := by
  cases e with
  | badCommand => exact .ok (.raiseQuiet h _)
  | noTag | truncatedToken | headerEnds | headerTooLong => exact .ok (.raise h _)

/-- Both run the same bits. -/
inductive SameWork (s u : State) : Work → Work → Prop
  | instruction (c : Code) (hx : ∀ i, decode c = .ok i → OutcomeFollows Agree (exec i s) (exec i u)) :
      SameWork s u (.instruction c) (.instruction c)
  | phaseRun {x y : Run} (hx : Follows Agree x y) : SameWork s u (.phaseRun x) (.phaseRun y)

theorem SameWork.fetchOrEnd (h : SameView s u) (hb : s.status = .busy) (hseen : SameDecoder s u) :
    SameWork s u (fetchOrEnd s) (fetchOrEnd u) := by
  obtain ⟨l, o, hu⟩ := hseen.1
  have hfetch : u.fetchToken = s.fetchToken := by
    unfold State.fetchToken
    rw [hu]
    exact h.readSrc _ _
  unfold Machine.fetchOrEnd
  rw [hfetch]
  simp only [hu]
  split
  · exact .phaseRun (.ok (.go .dEnd h hb ((WorkFrame.refl s).setPhase _) ((WorkFrame.refl u).setPhase _) rfl rfl hseen))
  · split
    · exact .instruction _ fun i hd => .token h hb hseen hd
    · exact .phaseRun .error

theorem SameWork.of_agree (ha : Agree s u) (hi : Inv s) (hb : s.status = .busy) : SameWork s u s.work u.work := by
  have h := ha.view
  obtain ⟨hphase, hseen⟩ := ha.seen hb
  have hclause := (phaseInv_iff s).1 (hi.2.2 hb)
  unfold State.work
  rw [hphase]
  cases hp : s.phase <;> rw [hp] at hseen hclause
  case cStart => rw [h.cmd]; exact .instruction _ fun i hd => .command h hb hd
  case hDec =>
    have hfetch : u.fetchHeader = s.fetchHeader := by
      unfold State.fetchHeader
      rw [h.srcLen]
      exact h.srcBytes _ _ (by omega)
    rw [hfetch]
    refine .instruction _ fun i hd => ?_
    obtain ⟨value, len, rfl, -⟩ := decodeHeader_eq_ok hd
    exact .execHdr h hb value len
  case dInit => exact .phaseRun (.decodeInit h hb hseen)
  case dFetch => exact .fetchOrEnd h hb hseen
  case dLit => exact .phaseRun (.literalBody h hb hseen)
  case dCopy => exact .phaseRun (.copyBody h hb hseen)
  case dEnd => exact .phaseRun (.decodeEnd h hseen)
  case eChunk => exact .phaseRun (.chunkLoop h hb hseen)
  case bInit => exact .phaseRun (.blockInit h hb hseen)
  case bSearch =>
    obtain ⟨⟨-, hgeo, -⟩, -, -, hhash, -⟩ : SearchInv s := hclause
    exact .phaseRun (.blockSearch h hb hseen (hhash ▸ (hash_lt_tableSize hgeo _).1))
  case bMatch => exact .phaseRun (.blockMatch h hb hseen)
  case bCopy =>
    obtain ⟨⟨-, hgeo, -⟩, -⟩ : CopyInv s := hclause
    exact .phaseRun (.blockCopy h hb hseen hgeo)
  case bRemainder => exact .phaseRun (.blockRemainder h hb hseen)

/-! ## Steps and commands -/

/-- Agreeing machines step to agreeing machines (R171). -/
theorem Agree.step (ha : Agree s u) (hi : Inv s) : OutcomeFollows Agree (step s) (step u) := by
  by_cases hb : s.status = .busy
  · have hbu : u.status = .busy := ha.view.status.trans hb
    have hw := SameWork.of_agree ha hi hb
    unfold Machine.step
    rw [if_pos hb, if_pos hbu]
    generalize s.work = x at hw
    generalize u.work = y at hw
    cases hw with
    | instruction c hx =>
      dsimp only
      cases hd : decode c with
      | ok i => exact hx i hd
      | error e => exact (Follows.rejectCode ha.view e).outcome
    | phaseRun hx => exact hx.outcome
  · rw [step_quiescent hb, step_quiescent (ha.view.status ▸ hb)]
    exact .next ha

theorem Agree.leads (ha : Agree s u) (hi : Inv s) {k : Nat} {t : State} (h : Leads k s t) :
    ∃ w, Leads k u w ∧ Agree t w ∧ t.cmd = s.cmd := by
  induction k generalizing s u with
  | zero => cases h; exact ⟨u, rfl, ha, rfl⟩
  | succ k ih =>
    obtain ⟨s', hs, h⟩ := leads_succ.1 h
    obtain ⟨u', hu, ha'⟩ := ha.step hi s' hs
    obtain ⟨w, hw, hat, hcmd⟩ := ih ha' (step_inv hi hs) h
    obtain ⟨-, hkeep, -⟩ := step_sameInputs hs
    exact ⟨w, leads_succ.2 ⟨u', hu, hw⟩, hat, hcmd.trans hkeep⟩

theorem Agree.startCommand (h : SameArguments s u) (v : Word) : Agree (s.startCommand v) (u.startCommand v) := by
  obtain ⟨hsrcLen, hdstCap, hparams, hsrc⟩ := h
  exact ⟨⟨hparams, rfl, hsrcLen, hdstCap, rfl, rfl, rfl, hsrc⟩, fun _ => ⟨rfl, trivial⟩, nofun⟩

theorem Agree.writeCmd (h : SameArguments s u) (v : Word) : Agree (s.writeCmd v) (u.writeCmd v) := by
  have hstart := Agree.startCommand h v
  unfold State.writeCmd
  split
  · exact hstart
  · exact .raiseQuiet hstart.view _

end Parts

/-- Settles O60: the machines agree once the command is started, and every step keeps that. -/
theorem outcomeDependsOnInputAlone : Obligations.OutcomeDependsOnInputAlone := by
  unfold Obligations.OutcomeDependsOnInputAlone
  rintro s u t v hs - hqs hqu hargs ⟨k, hk, hqt⟩
  have hstart : Agree (s.writeCsr .cmd v) (u.writeCsr .cmd v) := by
    rw [State.writeCsr_cmd hqs, State.writeCsr_cmd hqu]
    exact .writeCmd hargs v
  have hcmd : (s.writeCsr .cmd v).cmd = v := by
    rw [State.writeCsr_cmd hqs]
    unfold State.writeCmd
    split <;> rfl
  obtain ⟨w, hw, ha, hc⟩ := hstart.leads (inv_writeCsr hs .cmd v) hk
  refine ⟨w, ⟨k, hw, fun hb => hqt (ha.view.status.symm.trans hb)⟩,
    ⟨ha.view.status, ha.view.err, ha.view.outLen⟩, fun hv hd => ?_⟩
  refine ha.result hd ?_
  rw [hc, hcmd]
  rcases hv with rfl | rfl <;> decide

end Sys2Proof.Machine
end

section
/-! PROOF of O53: under the invariant every guarded access is inside its bounds and every emitter inside its domain, so
each phase's work answers a state (R34, R105 (e), R107, U7, U8). -/

namespace Sys2Proof.Machine

open Sys2Proof.Safety Sys2Proof.Claims

/-! ## What answers -/

/-- A part of a meaning answers: it does not stop. -/
def Answers {α : Type} (x : Except Stop α) : Prop := ∃ a, x = .ok a

theorem Answers.ok {α : Type} (a : α) : Answers (.ok a : Except Stop α) := ⟨a, rfl⟩

theorem Answers.ite {α : Type} {c : Prop} [Decidable c] {x y : Except Stop α} (hx : c → Answers x)
    (hy : ¬c → Answers y) : Answers (if c then x else y) := by
  split
  · next h => exact hx h
  · next h => exact hy h

theorem Answers.bind {α β : Type} {x : Except Stop α} {a : α} {f : α → Except Stop β} (hx : x = .ok a)
    (hf : Answers (f a)) : Answers (x >>= f) := by
  obtain ⟨b, hb⟩ := hf
  exact ⟨b, Except.bind_eq_ok.2 ⟨a, hx, hb⟩⟩

theorem Answers.outcome {r : Run} (h : Answers r) : ∃ t, r.outcome = .next t := by
  obtain ⟨t, ht⟩ := h
  exact ⟨t, Run.outcome_eq_next.2 ht⟩

/-- The work of a state answers: the instruction, if the bits are one, or the phase. -/
def Work.Answers (s : State) : Work → Prop
  | .instruction c => ∀ i, decode c = .ok i → ∃ t, exec i s = .next t
  | .phaseRun r => Machine.Answers r

section Steps

variable {s : State}

theorem rejectCode_answers (e : DecodeError) (s : State) : Answers (rejectCode e s) := by
  cases e <;> exact .ok _

/-- A step stops only where its work does: rejected bits raise an error. -/
theorem step_answers (hw : s.work.Answers s) : ∃ t, step s = .next t := by
  unfold step
  split
  · split
    · next c hc =>
      rw [hc] at hw
      split
      · next i hd => exact hw i hd
      · next e _ => exact (rejectCode_answers e s).outcome
    · next r hr => rw [hr] at hw; exact Answers.outcome hw
  · exact ⟨s, rfl⟩

/-! ## The decoder (R120 to R134) -/

/-- A fetched token's operands leave the decoder's invariant as long as its tag and trailing bytes lie in the body. -/
theorem decoderInv_operands {head : Nat} (hi : DecoderInv s) (hs : s.dec.s + head ≤ s.dec.bodyLen)
    (length offset : Nat) (p : Phase) :
    DecoderInv
      ((s.setDec { s.dec with length := length, offset := offset, s := s.dec.s + head }).setPhase p) := by
  obtain ⟨h1, h10, hlen, -, hd, hcap, hw⟩ := hi
  exact ⟨h1, h10, hlen, hs, hd, hcap, hw⟩

theorem literalBody_answers (hi : DecoderInv s) : Answers (literalBody s) := by
  obtain ⟨-, -, hlen, hs, hd, hcap, -⟩ := hi
  refine .ite (fun _ => .ok _) fun h0 => .ite (fun _ => .ok _) fun hout => .ite (fun _ => .ok _) fun hbody => ?_
  refine .bind (State.readSrc_eq_ok.2 ⟨by omega, rfl⟩) (.bind (State.writeDst_eq_ok.2 ⟨?_, rfl⟩) (.ok _))
  rw [State.srcBytes_length]
  omega

theorem copyBody_answers (hi : DecoderInv s) : Answers (copyBody s) := by
  obtain ⟨-, -, -, -, hd, hcap, -⟩ := hi
  refine .ite (fun _ => .ok _) fun _ => .ite (fun _ => .ok _) fun _ => .ite (fun _ => .ok _) fun hout => ?_
  exact .bind (State.expandCopy_eq_ok.2 ⟨by omega, rfl⟩) (.ok _)

theorem literal_answers {head : Nat} (hi : DecoderInv s) (hs : s.dec.s + head ≤ s.dec.bodyLen) (length : Nat) :
    Answers (literal head length s) := literalBody_answers (decoderInv_operands hi hs length _ .dLit)

theorem longLiteral_answers (hi : DecoderInv s) (head length : Nat) : Answers (longLiteral head length s) :=
  .ite (fun _ => .ok _) fun hs => literal_answers hi (by omega) length

theorem copy_answers (hi : DecoderInv s) (head length offset : Nat) : Answers (copy head length offset s) :=
  .ite (fun _ => .ok _) fun hs => copyBody_answers (decoderInv_operands hi (by omega) length offset .dCopy)

/-- Every token that was fetched inside the body completes or raises (R135 (b)). -/
theorem exec_token_answers {bytes : List Byte} {i : Instr} (hi : DecoderInv s) (hs : s.dec.s < s.dec.bodyLen)
    (hd : decodeToken bytes = .ok i) : ∃ t, exec i s = .next t := by
  have hc := decode_isCommand (c := .token bytes) hd
  cases i with
  | litS m => exact (literal_answers hi (head := 1) hs _).outcome
  | lit1 m | lit2 m | lit3 m | lit4 m => exact (longLiteral_answers hi _ _).outcome
  | copy1 l offset | copy2 l offset | copy4 l offset => exact (copy_answers hi _ _ _).outcome
  | hdr value len => exact absurd hd decodeToken_ne_hdr
  | compress | decompress | maxlen => cases hc

theorem fetchOrEnd_answers (hi : DecoderInv s) : (fetchOrEnd s).Answers s := by
  obtain ⟨-, -, hlen, -, -, -, -⟩ := id hi
  unfold fetchOrEnd
  split
  · exact .ok _
  · next hs =>
    rw [State.fetchToken, State.readSrc_eq_ok.2 ⟨by omega, rfl⟩]
    exact fun i hd => exec_token_answers hi (by omega) hd

theorem execHdr_answers (value len : Nat) (s : State) : ∃ t, execHdr value len s = .next t :=
  Answers.outcome (.ite (fun _ => .ok _) fun _ => .ite (fun _ => .ok _) fun _ => .ite (fun _ => .ok _) fun _ =>
    .ite (fun _ => .ok _) fun _ => .ok _)

theorem exec_header_answers {bytes : List Byte} {i : Instr} (hd : decodeHeader bytes = .ok i) :
    ∃ t, exec i s = .next t := by
  obtain ⟨value, len, rfl, -⟩ := decodeHeader_eq_ok hd
  exact execHdr_answers value len s

/-! ## The commands -/

/-- The capacity COMPRESS has tested holds its header (R112). -/
theorem execCompress_answers (s : State) : ∃ t, execCompress s = .next t := by
  unfold execCompress
  split
  · exact ⟨_, rfl⟩
  · next r hr =>
    split
    · exact ⟨_, rfl⟩
    · next hcap =>
      have hlen : (hdrEnc s.srcLen.toNat).length ≤ 5 := headerBytes_length_le 4 _
      have hbound : r = 32 + s.srcLen.toNat + s.srcLen.toNat / 6 := maxEncodedLength_eq_some hr
      refine Answers.outcome (.bind (State.emit_eq_ok.2 ⟨?_, rfl⟩) (.ok _))
      show 0 + (hdrEnc s.srcLen.toNat).length ≤ s.dstCap.toNat
      omega

theorem execMaxlen_answers (s : State) : ∃ t, execMaxlen s = .next t := by
  unfold execMaxlen
  split <;> exact ⟨_, rfl⟩

theorem exec_command_answers {v : Word} {i : Instr} (hd : decodeCommand v = .ok i) : ∃ t, exec i s = .next t := by
  have hc := decode_isCommand (c := .command v) hd
  cases i <;> cases hc
  case compress => exact execCompress_answers s
  case decompress => exact ⟨_, rfl⟩
  case maxlen => exact execMaxlen_answers s

/-! ## The encoder (R105, R107) -/

/-- What the budget of R107 allows up to a position of the chunk, and one byte more, is inside the capacity. -/
theorem le_dstCap_of_budget {d q : Nat} (hi : ChunkInv s) (hq : q ≤ s.enc.blkLen)
    (hd : 60 * d ≤ 60 * (5 + s.enc.inPos + s.enc.inPos / 6) + 61 * q + 60) : d ≤ s.dstCap.toNat := by
  obtain ⟨hend, -⟩ := chunkInv_bounds hi
  obtain ⟨⟨hcap, -⟩, -⟩ := hi
  unfold Config.bound at hcap
  omega

/-- The pending literal up to a position of the chunk is in `EMIT.LIT`'s domain and fits the output (R98, R103). -/
theorem emitLit_pending_answers {q : Nat} (hi : ChunkInv s) (hb : Budget s s.enc.nextEmit 0)
    (hlt : s.enc.nextEmit < q) (hq : q ≤ s.enc.blkLen) :
    Answers (emitLit (s.enc.inPos + s.enc.nextEmit) (q - s.enc.nextEmit) s) := by
  obtain ⟨hend, hmax⟩ := chunkInv_bounds hi
  have hd : (s.pendingEmitted q).enc.d ≤ s.dstCap.toNat :=
    le_dstCap_of_budget hi hq (pendingEmitted_d_le s hlt.le hb)
  exact ⟨_, emitLit_eq_ok.2 ⟨by omega, by omega, State.emit_eq_ok.2 ⟨hd, rfl⟩⟩⟩

/-- A short chunk is in `EMIT.LIT`'s domain and fits the output (R114). -/
theorem emitLit_short_answers {n : Nat} (hi : ChunkLoopInv s) (hn : n = s.srcLen.toNat - s.enc.inPos) (h1 : 1 ≤ n)
    (h17 : n < 17) : Answers (emitLit s.enc.inPos n (s.withChunk n)) := by
  obtain ⟨⟨hcap, -⟩, hin, hmid, -⟩ := hi
  obtain ⟨-, hd⟩ := hmid (by omega)
  have htag := literalTag_length_le n
  unfold Config.bound at hcap
  refine ⟨_, emitLit_eq_ok.2 ⟨by omega, ?_, State.emit_eq_ok.2 ⟨?_, rfl⟩⟩⟩
  · show s.enc.inPos + n ≤ s.srcLen.toNat
    omega
  · rw [List.length_append, State.srcBytes_length]
    show s.enc.d + ((literalTag n).length + n) ≤ s.dstCap.toNat
    omega

/-- A turn of the chunk loop emits a short chunk, hands a longer one to `ENC.BLOCK`, or completes (R113 to R115). -/
theorem chunkLoop_answers (hi : ChunkLoopInv s) : Answers (chunkLoop s) := by
  refine .ite (fun hlt => .ite (fun h17 => ?_) fun _ => .ok _) fun _ => .ok _
  have hmax : Config.maxBlockSize = 65536 := rfl
  have h17 : min (s.srcLen.toNat - s.enc.inPos) Config.maxBlockSize < 17 := h17
  obtain ⟨t, ht⟩ := emitLit_short_answers hi (n := min (s.srcLen.toNat - s.enc.inPos) Config.maxBlockSize)
    (by omega) (by omega) h17
  exact .bind ht (.ok _)

/-- The first fingerprint lies in a chunk of 17 bytes or more (R95, U8). -/
theorem blockInit_answers (hi : ChunkInv s) : Answers (blockInit s) := by
  obtain ⟨hend, hmax⟩ := chunkInv_bounds hi
  obtain ⟨-, -, h17, -⟩ := hi
  simp only [Config.minNonLiteralBlock] at h17
  refine .ite (fun hd => absurd hd ?_) fun _ => .bind (State.hashAt_eq_ok.2 ⟨⟨?_, ?_⟩, rfl⟩) (.ok _)
  · simp only [Config.minNonLiteralBlock, Config.maxBlockSize]; omega
  · show 1 + 4 ≤ s.enc.blkLen
    omega
  · show s.enc.inPos + 1 + 4 ≤ s.srcLen.toNat
    omega

/-- A fingerprint at or below `sLimit` lies in the chunk and in the input (R105 (e)). -/
theorem fp_bounds {p : Nat} (hi : BlockInv s) (hp : p ≤ s.enc.sLimit) :
    p + 4 ≤ s.enc.blkLen ∧ s.enc.inPos + p + 4 ≤ s.srcLen.toNat := by
  obtain ⟨hlim, -⟩ := blockInv_sLimit_le hi
  obtain ⟨hend, -⟩ := chunkInv_bounds hi.1
  omega

/-- A probe looks at the next position, the one after it and an earlier candidate, all of them up to `sLimit` (R96). -/
theorem blockSearch_answers (hi : SearchInv s) : Answers (blockSearch s) := by
  have hcand := probeCandidate_lt hi
  obtain ⟨hblk, -, hle, hhash, -⟩ := hi
  have hidx : s.enc.nextHash < Config.maxTableSize := hhash ▸ blockInv_hash_lt hblk _
  refine .ite (fun _ => .ok _) fun hnext => ?_
  exact .bind (State.readHt_eq_ok.2 ⟨hidx, rfl⟩) (.bind (State.writeHt_eq_ok.2 ⟨hidx, rfl⟩)
    (.bind (State.hashAt_eq_ok.2 ⟨fp_bounds hblk (not_lt.1 hnext), rfl⟩)
      (.bind (State.fingerprint_eq_ok.2 ⟨fp_bounds hblk hle, rfl⟩)
        (.bind (State.fingerprint_eq_ok.2 ⟨fp_bounds hblk (hcand.le.trans hle), rfl⟩) (.ok _)))))

theorem blockMatch_answers (hi : MatchInv s) : Answers (blockMatch s) := by
  obtain ⟨hblk, ⟨-, hlim, -⟩, hlt, hb⟩ := hi
  have hsLimit := blockInv_sLimit_le hblk
  obtain ⟨t, ht⟩ := emitLit_pending_answers hblk.1 hb hlt (by omega)
  exact .bind ht (.ok _)

/-- The loop of R99 reads an earlier position and one inside the chunk. -/
theorem State.extendMatch_answers {i p : Nat} (hend : s.enc.inPos + s.enc.blkLen ≤ s.srcLen.toNat) (hip : i < p)
    (fuel : Nat) : Answers (s.extendMatch fuel i p) := by
  induction fuel generalizing i p with
  | zero => exact .ok p
  | succ fuel ih =>
    refine .ite (fun hp => ?_) fun _ => .ok p
    refine .bind (State.readChunk_eq_ok.2 ⟨⟨by omega, by omega⟩, rfl⟩)
      (.bind (State.readChunk_eq_ok.2 ⟨⟨hp, by omega⟩, rfl⟩) (.ite (fun _ => ?_) fun _ => .ok p))
    exact ih (by omega)

/-- Re-insertion below the limit reads fingerprints up to the position after the copy, and the candidate's (R102). -/
theorem blockReinsert_answers (hi : BlockInv s) (ht : TableBelow s s.enc.s) (h1 : 1 ≤ s.enc.s)
    (hl : s.enc.s < s.enc.sLimit) : Answers (blockReinsert s) := by
  have hidx : ∀ u, hash s.enc.shift u < Config.maxTableSize := blockInv_hash_lt hi
  have hcand : s.rematchCandidate < s.enc.s := by
    obtain ⟨-, hgeo, -⟩ := id hi
    exact (tableBelow_reinserted ht h1).1.entry_lt (hash_lt_tableSize hgeo _).1 h1
  refine .bind (State.hashAt_eq_ok.2 ⟨fp_bounds hi (by omega), rfl⟩) (.bind (State.writeHt_eq_ok.2 ⟨hidx _, rfl⟩)
    (.bind (State.hashAt_eq_ok.2 ⟨fp_bounds hi hl.le, rfl⟩) (.bind (State.readHt_eq_ok.2 ⟨hidx _, rfl⟩)
      (.bind (State.writeHt_eq_ok.2 ⟨hidx _, rfl⟩)
        (.bind (State.fingerprint_eq_ok.2 ⟨fp_bounds hi hl.le, rfl⟩)
          (.bind (State.fingerprint_eq_ok.2 ⟨fp_bounds hi (hcand.trans hl).le, rfl⟩) ?_))))))
  exact .ite (fun _ => .ok _) fun _ => .bind (State.hashAt_eq_ok.2 ⟨fp_bounds hi hl, rfl⟩) (.ok _)

theorem blockInv_copied (hi : BlockInv s) (p : Nat) : BlockInv (s.copied p) := by
  have hsame : SameBlock s (s.copied p) := ⟨workFrame_copied s p, rfl, rfl, rfl, rfl, rfl⟩
  have hfill : Fills s (s.copied p) s.enc.d (s.copied p).enc.d := .of_putBytes rfl
  obtain ⟨⟨⟨hcap, hw⟩, -⟩, -⟩ := id hi
  exact hsame.blockInv ⟨hcap, hfill.written hw⟩ hi

/-- The copy of a match is in `EMIT.COPY`'s domain and fits the output (R99, R100, U7). -/
theorem blockCopy_answers (hi : CopyInv s) : Answers (blockCopy s) := by
  obtain ⟨hblk, ⟨hcand, hlim, -, ht⟩, -, -⟩ := id hi
  obtain ⟨hend, -⟩ := chunkInv_bounds hblk.1
  have hsLimit := blockInv_sLimit_le hblk
  obtain ⟨p, hp⟩ : Answers (s.extendMatch (s.enc.blkLen - (s.enc.s + 4)) (s.enc.candidate + 4) (s.enc.s + 4)) :=
    State.extendMatch_answers hend (by omega) _
  obtain ⟨hq, hle⟩ := State.extendMatch_bounds hp
  have hd : (s.copied p).enc.d ≤ s.dstCap.toNat :=
    le_dstCap_of_budget hblk.1 (q := p) (by omega) ((copied_d_le hi hq).trans (Nat.le_add_right _ _))
  refine .bind hp (.bind (emitCopy_eq_ok.2 ⟨by omega, State.emit_eq_ok.2 ⟨hd, rfl⟩⟩)
    (.ite (fun _ => .ok _) fun hl => ?_))
  exact blockReinsert_answers (blockInv_copied hblk p) (Table.Below.mono ht (by show s.enc.s + 1 ≤ p; omega))
    (by show 1 ≤ p; omega) (not_le.1 hl)

theorem blockRemainder_answers (hi : RemainderInv s) : Answers (blockRemainder s) := by
  obtain ⟨hch, -, hb⟩ := hi
  refine .ite (fun hn => ?_) fun _ => .ok _
  obtain ⟨t, ht⟩ := emitLit_pending_answers hch hb hn le_rfl
  exact .bind ht (.ok _)

/-! ## Every phase -/

theorem decodeInit_answers (s : State) : Answers (decodeInit s) := .ite (fun _ => .ok _) fun _ => .ok _

theorem decodeEnd_answers (s : State) : Answers (decodeEnd s) := .ite (fun _ => .ok _) fun _ => .ok _

theorem State.work_answers (hi : Inv s) (hb : s.status = .busy) : s.work.Answers s := by
  have hclause : ∀ p, s.phase = p → PhaseClause p s := fun _ => inv_clause hi hb
  unfold State.work
  cases hp : s.phase with
  | cStart => exact fun i => exec_command_answers
  | hDec => exact fun i => exec_header_answers
  | dInit => exact decodeInit_answers s
  | dFetch => exact fetchOrEnd_answers (hclause _ hp)
  | dLit => exact literalBody_answers (hclause _ hp)
  | dCopy => exact copyBody_answers (hclause _ hp)
  | dEnd => exact decodeEnd_answers s
  | eChunk => exact chunkLoop_answers (hclause _ hp)
  | bInit => exact blockInit_answers (hclause _ hp).1
  | bSearch => exact blockSearch_answers (hclause _ hp)
  | bMatch => exact blockMatch_answers (hclause _ hp)
  | bCopy => exact blockCopy_answers (hclause _ hp)
  | bRemainder => exact blockRemainder_answers (hclause _ hp)

end Steps

/-- Settles O53: phase by phase, the clause of the invariant puts every access and emission inside its domain. -/
theorem noStepStops : Obligations.NoStepStops := by
  unfold Obligations.NoStepStops
  intro s hi
  by_cases hb : s.status = .busy
  · exact step_answers (State.work_answers hi hb)
  · exact ⟨s, step_quiescent hb⟩

end Sys2Proof.Machine
end

section
/-! PROOF of O15 and O30: the copy loop without overlap, the fingerprint and its hash. -/

namespace Sys2Proof.Machine

/-- A copy loop that never reaches its own output writes the bytes it found: each step's write is above every later
read (R40, R131). -/
theorem State.copyLoop_eq_putBytes (s : State) {offset d n : Nat} (hn : n ≤ offset) (hd : offset ≤ d) :
    s.copyLoop offset d n =
      s.setDst (Memory.putBytes s.dst d ((List.range n).map fun i => s.dstByte (d - offset + i))) := by
  induction n generalizing s d with
  | zero => rfl
  | succ n ih =>
    have hreads : (List.range n).map
          (fun i => (s.setDst (Cells.put s.dst d (s.dstByte (d - offset)))).dstByte (d + 1 - offset + i)) =
        (List.range n).map fun i => s.dstByte (d - offset + (i + 1)) := by
      refine List.map_congr_left fun i hi => ?_
      have hi := List.mem_range.1 hi
      rw [State.dstByte_put, if_neg (by omega), show d + 1 - offset + i = d - offset + (i + 1) by omega]
    rw [State.copyLoop, ih _ (by omega) (by omega), hreads, List.range_succ_eq_map, List.map_cons, List.map_map]
    rfl

/-- Settles O15: no byte read is one already written. -/
theorem nonOverlappingCopyIsBulk : Obligations.NonOverlappingCopyIsBulk := fun s _ _ _ hn hd =>
  s.copyLoop_eq_putBytes hn hd

/-- Four bytes fit a fingerprint, so nothing is lost (R32). -/
theorem State.fp_toNat (s : State) (p : Nat) : (s.fp p).toNat = leNat (s.srcBytes (s.enc.inPos + p) 4) := by
  have hlt := leNat_lt (s.srcBytes (s.enc.inPos + p) 4)
  rw [State.srcBytes_length] at hlt
  exact Nat.mod_eq_of_lt hlt

/-- The hash is the product modulo `2^32`, divided by the power of two the shift stands for (R92). -/
theorem hash_eq_div (shift : Nat) (u : Word) : hash shift u = u.toNat * 0x1e35a7bd % 2 ^ 32 / 2 ^ shift := by
  rw [hash, BitVec.toNat_ushiftRight, BitVec.toNat_mul, Nat.shiftRight_eq_div_pow]
  rfl

/-- Settles O30: the bytes by R31, the table's bounds by its geometry (R91), the examples by evaluation. -/
theorem hashIndexesTheTable : Obligations.HashIndexesTheTable := by
  unfold Obligations.HashIndexesTheTable
  refine ⟨fun s p => ?_, fun u n size shift hgeo => ?_, by decide, by decide, by decide, by decide⟩
  · rw [State.fp_toNat]
    simp only [State.srcBytes, leNat, State.chunkByte, Nat.add_assoc, Nat.reduceAdd]
    omega
  · obtain ⟨hlt, -⟩ := hash_lt_tableSize hgeo.symm u
    obtain ⟨j, hj, h8, h14⟩ := tableGeometry_eq_pow n
    obtain ⟨rfl, rfl⟩ := Prod.mk.inj (hgeo.symm.trans hj)
    refine ⟨by omega, by omega, congrArg (2 ^ ·) (by omega), hash_eq_div _ u, hlt, ?_⟩
    rw [Nat.and_two_pow_sub_one_eq_mod, Nat.mod_eq_of_lt hlt]

end Sys2Proof.Machine
end

section
/-! PROOF of O1 to O4: fields of tag and trailing bytes, the equations of each token form, the varint, and decoding
against encoding. -/

namespace Sys2Proof

open Sys2Proof.Claims

/-! ## Bytes of a word (R31) -/

@[simp] theorem byteOf_byte (b : Byte) : byteOf b 0 = b := BitVec.extractLsb'_eq_self

@[simp] theorem byteOf_append_zero {w : Nat} (hi : BitVec w) (b : Byte) : byteOf (hi ++ b) 0 = b :=
  BitVec.extractLsb'_append_eq_right

@[simp] theorem byteOf_append_succ {w : Nat} (hi : BitVec w) (b : Byte) (k : Nat) :
    byteOf (hi ++ b) (k + 1) = byteOf hi k := by
  rw [byteOf, BitVec.extractLsb'_append_eq_of_le (by omega)]
  exact congrArg (BitVec.extractLsb' · 8 hi) (by omega)

/-- A field put before the byte below it is the longer field. -/
theorem extractLsb'_append_byteOf {w : Nat} (m : BitVec w) (n k : Nat) :
    m.extractLsb' (8 * (k + 1)) n ++ byteOf m k = m.extractLsb' (8 * k) (n + 8) :=
  BitVec.extractLsb'_append_extractLsb'_eq_extractLsb' (by omega)

theorem bytes_append_16 (m : BitVec 16) : byteOf m 1 ++ byteOf m 0 = m :=
  (extractLsb'_append_byteOf m 8 0).trans BitVec.extractLsb'_eq_self

theorem bytes_append_24 (m : BitVec 24) : byteOf m 2 ++ byteOf m 1 ++ byteOf m 0 = m :=
  (congrArg (· ++ byteOf m 0) (extractLsb'_append_byteOf m 8 1)).trans <|
    (extractLsb'_append_byteOf m 16 0).trans BitVec.extractLsb'_eq_self

theorem bytes_append_32 (m : BitVec 32) : byteOf m 3 ++ byteOf m 2 ++ byteOf m 1 ++ byteOf m 0 = m :=
  (congrArg (· ++ byteOf m 1 ++ byteOf m 0) (extractLsb'_append_byteOf m 8 2)).trans <|
    (congrArg (· ++ byteOf m 0) (extractLsb'_append_byteOf m 16 1)).trans <|
      (extractLsb'_append_byteOf m 24 0).trans BitVec.extractLsb'_eq_self

/-- A field put before another is worth its own value times the other's range. -/
theorem toNat_append_eq_add {v w : Nat} (x : BitVec v) (y : BitVec w) :
    (x ++ y).toNat = x.toNat * 2 ^ w + y.toNat := by
  rw [BitVec.toNat_append, ← Nat.shiftLeft_add_eq_or_of_lt y.isLt, Nat.shiftLeft_eq]

/-! ## Tag bytes (R52 to R59) -/

/-- The tag's low two bits, which name the form (R52). -/
abbrev tagForm (t : Byte) : BitVec 2 := t.extractLsb' 0 2

/-- The field above the form: a literal's `m`, or `length - 1` of COPY2 and COPY4. -/
abbrev tagField (t : Byte) : BitVec 6 := t.extractLsb' 2 6

theorem tagForm_toNat (t : Byte) : (tagForm t).toNat = t.toNat % 4 := rfl

theorem tagForm_eq {t : Byte} {k : BitVec 2} (h : t.toNat % 4 = k.toNat) : tagForm t = k := BitVec.eq_of_toNat_eq h

theorem tagField_toNat (t : Byte) : (tagField t).toNat = t.toNat / 4 := by
  have := t.isLt
  rw [tagField, BitVec.extractLsb'_toNat, Nat.shiftRight_eq_div_pow]
  omega

theorem tagField_append_tagForm (t : Byte) : tagField t ++ tagForm t = t :=
  (BitVec.extractLsb'_append_extractLsb'_eq_extractLsb' rfl).trans BitVec.extractLsb'_eq_self

theorem copy1Fields_append_tagForm (t : Byte) : t.extractLsb' 5 3 ++ t.extractLsb' 2 3 ++ tagForm t = t :=
  (congrArg (· ++ tagForm t) (BitVec.extractLsb'_append_extractLsb'_eq_extractLsb' rfl)).trans
    (tagField_append_tagForm t)

/-- The four exact tags of the long literals are the literals whose field is above 59 (R59). -/
theorem not_longTag {t : Byte} (h : tagForm t ≠ 0#2 ∨ (tagField t).toNat ≤ 59) :
    t ≠ 0xF0#8 ∧ t ≠ 0xF4#8 ∧ t ≠ 0xF8#8 ∧ t ≠ 0xFC#8 := by
  refine ⟨?_, ?_, ?_, ?_⟩ <;> rintro rfl <;> revert h <;> decide

/-- Apart from the four exact tags a literal's field is at most 59 (R59). -/
theorem tagField_le {t : Byte} (h0 : t ≠ 0xF0#8) (h4 : t ≠ 0xF4#8) (h8 : t ≠ 0xF8#8) (hC : t ≠ 0xFC#8)
    (h : tagForm t = 0#2) : (tagField t).toNat ≤ 59 := by
  have hform := tagForm_toNat t
  rw [h] at hform
  rw [tagField_toNat]
  bv_omega

theorem tagForm_eq_three {t : Byte} (h0 : tagForm t ≠ 0#2) (h1 : tagForm t ≠ 1#2) (h2 : tagForm t ≠ 2#2) :
    tagForm t = 3#2 := by
  bv_omega

section Forms

variable {t : Byte} (rest : List Byte)

/-! ## One equation per form with fields in its tag -/

theorem decodeToken_litS (h : tagForm t = 0#2) (hm : (tagField t).toNat ≤ 59) :
    decodeToken (t :: rest) = .ok (.litS (tagField t)) := by
  obtain ⟨h0, h4, h8, hC⟩ := not_longTag (.inr hm)
  simp only [decodeToken, if_neg h0, if_neg h4, if_neg h8, if_neg hC, h, if_true]

theorem decodeToken_copy1 (h : tagForm t = 1#2) (b : Byte) :
    decodeToken (t :: b :: rest) = .ok (.copy1 (t.extractLsb' 2 3) (t.extractLsb' 5 3 ++ b)) := by
  obtain ⟨h0, h4, h8, hC⟩ := not_longTag (.inl (h.trans_ne (by decide)))
  simp [decodeToken, h0, h4, h8, hC, h]

theorem decodeToken_copy2 (h : tagForm t = 2#2) (b1 b2 : Byte) :
    decodeToken (t :: b1 :: b2 :: rest) = .ok (.copy2 (tagField t) (b2 ++ b1)) := by
  obtain ⟨h0, h4, h8, hC⟩ := not_longTag (.inl (h.trans_ne (by decide)))
  simp [decodeToken, h0, h4, h8, hC, h]

theorem decodeToken_copy4 (h : tagForm t = 3#2) (b1 b2 b3 b4 : Byte) :
    decodeToken (t :: b1 :: b2 :: b3 :: b4 :: rest) = .ok (.copy4 (tagField t) (b4 ++ b3 ++ b2 ++ b1)) := by
  obtain ⟨h0, h4, h8, hC⟩ := not_longTag (.inl (h.trans_ne (by decide)))
  simp [decodeToken, h0, h4, h8, hC, h]

/-! ## The same read backwards -/

theorem encode_litS (h : tagForm t = 0#2) : encode (.litS (tagField t)) = .token [t] := by
  rw [encode, ← h, tagField_append_tagForm]

theorem encode_copy1 (h : tagForm t = 1#2) (b : Byte) :
    encode (.copy1 (t.extractLsb' 2 3) (t.extractLsb' 5 3 ++ b)) = .token [t, b] := by
  have ho : (t.extractLsb' 5 3 ++ b).extractLsb' 8 3 = t.extractLsb' 5 3 := BitVec.extractLsb'_append_eq_left
  rw [encode, ho, ← h, copy1Fields_append_tagForm, byteOf_append_zero]

theorem encode_copy2 (h : tagForm t = 2#2) (b1 b2 : Byte) :
    encode (.copy2 (tagField t) (b2 ++ b1)) = .token [t, b1, b2] := by
  rw [encode, ← h, tagField_append_tagForm]
  simp

theorem encode_copy4 (h : tagForm t = 3#2) (b1 b2 b3 b4 : Byte) :
    encode (.copy4 (tagField t) (b4 ++ b3 ++ b2 ++ b1)) = .token [t, b1, b2, b3, b4] := by
  rw [encode, ← h, tagField_append_tagForm]
  simp

end Forms

/-! ## Tokens: decode and encode -/

/-- A tag built from its fields gives them back (R53 to R57). -/
theorem tagForm_append (hi : BitVec 6) (form : BitVec 2) : tagForm (hi ++ form) = form :=
  BitVec.extractLsb'_append_eq_right

theorem tagField_append (hi : BitVec 6) (form : BitVec 2) : tagField (hi ++ form) = hi :=
  BitVec.extractLsb'_append_eq_left

/-- COPY1's tag has two fields above its form (R55). -/
theorem copy1Fields_append (o l : BitVec 3) (form : BitVec 2) :
    (o ++ l ++ form : Byte).extractLsb' 2 3 = l ∧ (o ++ l ++ form : Byte).extractLsb' 5 3 = o :=
  ⟨(BitVec.extractLsb'_append_eq_of_le (by decide)).trans BitVec.extractLsb'_append_eq_right,
    (BitVec.extractLsb'_append_eq_of_le (by decide)).trans BitVec.extractLsb'_append_eq_left⟩

theorem copy1Offset_append (offset : BitVec 11) : offset.extractLsb' 8 3 ++ byteOf offset 0 = offset :=
  (extractLsb'_append_byteOf offset 3 0).trans BitVec.extractLsb'_eq_self

/-- What decodes as a token is well-formed, and its encoding is what was read (R58, R59). -/
theorem encode_of_decodeToken {bytes : List Byte} {i : Instr} (h : decodeToken bytes = .ok i) :
    i.wellFormed = true ∧ ∃ rest, Code.token bytes = (encode i).followedBy rest := by
  revert h
  fun_cases decodeToken bytes <;> intro h <;> cases h
  case case2 b1 rest => exact ⟨rfl, rest, by simp [encode, Code.followedBy]⟩
  case case4 b1 b2 rest _ => exact ⟨rfl, rest, by simp [encode, Code.followedBy]⟩
  case case6 b1 b2 b3 rest _ _ => exact ⟨rfl, rest, by simp [encode, Code.followedBy]⟩
  case case8 b1 b2 b3 b4 rest _ _ _ => exact ⟨rfl, rest, by simp [encode, Code.followedBy]⟩
  case case10 t rest h0 h4 h8 hC h =>
    exact ⟨decide_eq_true (tagField_le h0 h4 h8 hC h), rest, by rw [encode_litS h]; rfl⟩
  case case11 t _ _ _ _ _ h b rest => exact ⟨rfl, rest, by rw [encode_copy1 h]; rfl⟩
  case case13 t _ _ _ _ _ _ h b1 b2 rest => exact ⟨rfl, rest, by rw [encode_copy2 h]; rfl⟩
  case case15 t _ _ _ _ h0 h1 h2 b1 b2 b3 b4 rest =>
    exact ⟨rfl, rest, by rw [encode_copy4 (tagForm_eq_three h0 h1 h2)]; rfl⟩

/-! ## Headers: decode and encode (R51, R71) -/

/-- A varint of at most `fuel` bytes reads back, zero groups at its end included (R51, R61). -/
theorem decodeVarint_encodeVarint {fuel len v : Nat} (rest : List Byte) (h1 : 1 ≤ len) (hf : len ≤ fuel)
    (hv : v < 128 ^ len) : decodeVarint fuel (encodeVarint len v ++ rest) = .ok (v, len) := by
  fun_induction encodeVarint len v generalizing fuel with
  | case1 => omega
  | case2 v =>
    obtain ⟨fuel, rfl⟩ := Nat.exists_eq_add_of_le' hf
    have hb : (BitVec.ofNat 8 (v % 128)).toNat = v := by rw [BitVec.toNat_ofNat]; omega
    simp only [List.cons_append, decodeVarint, hb]
    exact if_pos (by omega)
  | case3 n v ih =>
    obtain ⟨fuel, rfl⟩ := Nat.exists_eq_add_of_le' (show 1 ≤ fuel by omega)
    have hb : (BitVec.ofNat 8 (v % 128 + 128)).toNat = v % 128 + 128 := by rw [BitVec.toNat_ofNat]; omega
    have hrest : decodeVarint fuel (encodeVarint (n + 1) (v / 128) ++ rest) = .ok (v / 128, n + 1) :=
      ih (by omega) (by omega) (Nat.div_lt_of_lt_mul (by rwa [← Nat.pow_succ']))
    simp only [List.cons_append, decodeVarint, hb, hrest]
    rw [if_neg (by omega), Nat.add_mod_right, Nat.mod_mod, Nat.mod_add_div]

/-- What decodes as a varint is the encoding of its value in its number of bytes, which hold the value (R51). -/
theorem encodeVarint_of_decodeVarint {fuel : Nat} {bytes : List Byte} {v len : Nat}
    (h : decodeVarint fuel bytes = .ok (v, len)) :
    len ≤ fuel ∧ v < 128 ^ len ∧ ∃ rest, bytes = encodeVarint len v ++ rest := by
  fun_induction decodeVarint fuel bytes generalizing v len with
  | case1 | case2 => cases h
  | case3 fuel b rest hb =>
    cases h
    refine ⟨by omega, hb, rest, ?_⟩
    simp [encodeVarint, Nat.mod_eq_of_lt hb]
  | case4 fuel b rest hb x n hx ih =>
    cases h
    obtain ⟨hn, hlt, rest', rfl⟩ := ih hx
    obtain ⟨n, rfl⟩ := Nat.exists_eq_add_of_le' (Machine.decodeVarint_pos hx)
    refine ⟨by omega, by rw [Nat.pow_succ']; omega, rest', ?_⟩
    have hgroup : (b.toNat % 128 + 128 * x) % 128 + 128 = b.toNat := by have := b.isLt; omega
    have hrest : (b.toNat % 128 + 128 * x) / 128 = x := by omega
    rw [encodeVarint, hgroup, hrest, BitVec.ofNat_toNat, BitVec.setWidth_eq, List.cons_append]
  | case5 fuel b rest hb e he ih => cases h

/-- Settles O2: form by form. -/
theorem decodeOfEncode : Obligations.DecodeOfEncode := by
  unfold Obligations.DecodeOfEncode
  intro i rest hw
  cases i with
  | litS m =>
    have hm : m.toNat ≤ 59 := of_decide_eq_true hw
    refine (decodeToken_litS rest (tagForm_append m 0#2) (by rwa [tagField_append])).trans ?_
    rw [tagField_append]
  | lit1 m => exact congrArg (Except.ok ∘ Instr.lit1) (byteOf_byte m)
  | lit2 m => exact congrArg (Except.ok ∘ Instr.lit2) (bytes_append_16 m)
  | lit3 m => exact congrArg (Except.ok ∘ Instr.lit3) (bytes_append_24 m)
  | lit4 m => exact congrArg (Except.ok ∘ Instr.lit4) (bytes_append_32 m)
  | copy1 l offset =>
    obtain ⟨hl, ho⟩ := copy1Fields_append (offset.extractLsb' 8 3) l 1#2
    refine (decodeToken_copy1 rest (tagForm_append _ 1#2) _).trans ?_
    rw [hl, ho, copy1Offset_append]
  | copy2 l offset =>
    refine (decodeToken_copy2 rest (tagForm_append l 2#2) _ _).trans ?_
    rw [tagField_append, bytes_append_16]
  | copy4 l offset =>
    refine (decodeToken_copy4 rest (tagForm_append l 3#2) _ _ _ _).trans ?_
    rw [tagField_append, bytes_append_32]
  | hdr value len =>
    simp only [Instr.wellFormed, Bool.and_eq_true, decide_eq_true_eq] at hw
    obtain ⟨⟨h1, h10⟩, hv⟩ := hw
    simp only [encode, Code.followedBy, decode, decodeHeader, decodeVarint_encodeVarint rest h1 h10 hv]
  | compress | decompress | maxlen => rfl

/-- Settles O3: by what the bits are, a token's bytes, a header's, or a `CMD` value. -/
theorem encodeOfDecode : Obligations.EncodeOfDecode := by
  unfold Obligations.EncodeOfDecode
  intro c i h
  cases c with
  | token bytes => exact encode_of_decodeToken h
  | header bytes =>
    simp only [decode, decodeHeader] at h
    split at h <;> cases h
    next v len hv =>
    obtain ⟨h10, hlt, rest, rfl⟩ := encodeVarint_of_decodeVarint hv
    exact ⟨by simp [Instr.wellFormed, Machine.decodeVarint_pos hv, h10, hlt], rest, rfl⟩
  | command v =>
    simp only [decode] at h
    revert h
    fun_cases decodeCommand v <;> intro h <;> cases h <;>
      exact ⟨rfl, [], congrArg Code.command (by assumption)⟩

/-! ## Token sizes (R58) -/

theorem tagHeadBytes_litS {t : Byte} (h : tagForm t = 0#2) (hm : (tagField t).toNat ≤ 59) : tagHeadBytes t = 1 := by
  have hform := tagForm_toNat t
  rw [h] at hform
  rw [tagField_toNat] at hm
  exact (if_pos hform.symm).trans (if_pos (by omega))

theorem tagHeadBytes_copy1 {t : Byte} (h : tagForm t = 1#2) : tagHeadBytes t = 2 := by
  rw [tagHeadBytes, ← tagForm_toNat, h]
  rfl

theorem tagHeadBytes_copy2 {t : Byte} (h : tagForm t = 2#2) : tagHeadBytes t = 3 := by
  rw [tagHeadBytes, ← tagForm_toNat, h]
  rfl

theorem tagHeadBytes_copy4 {t : Byte} (h : tagForm t = 3#2) : tagHeadBytes t = 5 := by
  rw [tagHeadBytes, ← tagForm_toNat, h]
  rfl

/-! ### How many bytes there are where a pattern of trailing bytes does not match -/

section NoMatch

variable {l : List Byte}

theorem length_lt_succ {n : Nat} (h : ∀ b r, l = b :: r → r.length < n) : l.length < n + 1 := by
  cases l with
  | nil => exact Nat.succ_pos n
  | cons b r => exact Nat.succ_lt_succ (h b r rfl)

theorem length_lt_one (h : ∀ b r, l = b :: r → False) : l.length < 1 :=
  length_lt_succ fun b r e => (h b r e).elim

theorem length_lt_two (h : ∀ b1 b2 r, l = b1 :: b2 :: r → False) : l.length < 2 :=
  length_lt_succ fun b _ e => length_lt_one fun b2 r e' => h b b2 r (e.trans (e' ▸ rfl))

theorem length_lt_three (h : ∀ b1 b2 b3 r, l = b1 :: b2 :: b3 :: r → False) : l.length < 3 :=
  length_lt_succ fun b _ e => length_lt_two fun b2 b3 r e' => h b b2 b3 r (e.trans (e' ▸ rfl))

theorem length_lt_four (h : ∀ b1 b2 b3 b4 r, l = b1 :: b2 :: b3 :: b4 :: r → False) : l.length < 4 :=
  length_lt_succ fun b _ e => length_lt_three fun b2 b3 b4 r e' => h b b2 b3 b4 r (e.trans (e' ▸ rfl))

end NoMatch

/-- A token has the size its tag gives, and the bytes hold it (R58). -/
theorem headBytes_of_decodeToken {t : Byte} {rest : List Byte} {i : Instr} (h : decodeToken (t :: rest) = .ok i) :
    i.headBytes = tagHeadBytes t ∧ i.headBytes ≤ rest.length + 1 := by
  revert h
  generalize hb : t :: rest = bytes
  revert hb
  fun_cases decodeToken bytes <;> intro hb h <;> cases hb <;> cases h
  case case2 | case4 | case6 | case8 => exact ⟨rfl, by simp [Instr.headBytes]⟩
  case case10 h0 h4 h8 hC h =>
    exact ⟨(tagHeadBytes_litS h (tagField_le h0 h4 h8 hC h)).symm, by simp [Instr.headBytes]⟩
  case case11 h => exact ⟨(tagHeadBytes_copy1 h).symm, by simp [Instr.headBytes]⟩
  case case13 h => exact ⟨(tagHeadBytes_copy2 h).symm, by simp [Instr.headBytes]⟩
  case case15 h0 h1 h2 =>
    exact ⟨(tagHeadBytes_copy4 (tagForm_eq_three h0 h1 h2)).symm, by simp [Instr.headBytes]⟩

/-- A tag byte is no token only where its trailing bytes are missing (R58, R59). -/
theorem decodeToken_eq_error {t : Byte} {rest : List Byte} {e : DecodeError}
    (h : decodeToken (t :: rest) = .error e) : e = .truncatedToken ∧ rest.length + 1 < tagHeadBytes t := by
  revert h
  generalize hb : t :: rest = bytes
  revert hb
  fun_cases decodeToken bytes <;> intro hb h <;> cases hb <;> cases h <;> refine ⟨rfl, ?_⟩
  case case3 hx => exact Nat.succ_lt_succ (length_lt_one hx)
  case case5 _ hx => exact Nat.succ_lt_succ (length_lt_two hx)
  case case7 _ _ hx => exact Nat.succ_lt_succ (length_lt_three hx)
  case case9 _ _ _ hx => exact Nat.succ_lt_succ (length_lt_four hx)
  case case12 h hx =>
    rw [tagHeadBytes_copy1 h]
    exact Nat.succ_lt_succ (length_lt_one hx)
  case case14 h hx =>
    rw [tagHeadBytes_copy2 h]
    exact Nat.succ_lt_succ (length_lt_two hx)
  case case16 h0 h1 h2 hx =>
    rw [tagHeadBytes_copy4 (tagForm_eq_three h0 h1 h2)]
    exact Nat.succ_lt_succ (length_lt_four hx)

/-- Settles O4: a token has its tag's size, and an error means that bytes are missing. -/
theorem tagByteGivesTokenSize : Obligations.TagByteGivesTokenSize := by
  unfold Obligations.TagByteGivesTokenSize
  intro t rest
  cases h : decodeToken (t :: rest) with
  | ok i =>
    obtain ⟨hsize, hfit⟩ := headBytes_of_decodeToken h
    exact ⟨fun _ => ⟨i, rfl, hsize⟩, fun hlt => absurd (hsize ▸ hfit) (by omega)⟩
  | error e =>
    obtain ⟨rfl, hlt⟩ := decodeToken_eq_error h
    exact ⟨fun hle => absurd hlt (by omega), fun _ => rfl⟩

end Sys2Proof

namespace Sys2Proof.Machine

/-- An offset of 0 is invalid in every copy form and every state (R60): the extent test and the operand test raise the
same error. -/
theorem copy_zero_offset (head length : Nat) (s : State) :
    ∃ t, (copy head length 0 s).outcome = .next t ∧ t.err = .corrupt := by
  unfold copy
  split <;> exact ⟨_, rfl, rfl⟩

/-- Settles O1: the fields of a copy token are slices of its bytes; the words by evaluation. -/
theorem specWordsDecode : Obligations.SpecWordsDecode := by
  unfold Obligations.SpecWordsDecode
  refine ⟨fun t b1 rest h => ?_, fun t b1 b2 rest h => ?_, fun t b1 b2 b3 b4 rest h => ?_,
    fun s l => copy_zero_offset 2 _ s, fun s l => copy_zero_offset 3 _ s, fun s l => copy_zero_offset 5 _ s, ?_⟩
  · refine ⟨_, _, decodeToken_copy1 rest (tagForm_eq (k := 1#2) h) b1, ?_, ?_⟩
    · rw [BitVec.extractLsb'_toNat, Nat.shiftRight_eq_div_pow]
    · have := t.isLt
      rw [toNat_append_eq_add, BitVec.extractLsb'_toNat, Nat.shiftRight_eq_div_pow]
      omega
  · refine ⟨_, _, decodeToken_copy2 rest (tagForm_eq (k := 2#2) h) b1 b2, by rw [tagField_toNat], ?_⟩
    rw [toNat_append_eq_add]
    omega
  · refine ⟨_, _, decodeToken_copy4 rest (tagForm_eq (k := 3#2) h) b1 b2 b3 b4, by rw [tagField_toNat], ?_⟩
    simp only [toNat_append_eq_add]
    omega
  · decide

end Sys2Proof.Machine
end

section
/-! PROOF of O8, O22, O40 and O41: rejected stream bytes, MAXLEN, an error, and the start of a command. -/

namespace Sys2Proof

/-- Only a `CMD` value is a bad command: a varint fails by its end or its length (R71). -/
theorem decodeVarint_ne_badCommand {fuel : Nat} {bytes : List Byte} :
    decodeVarint fuel bytes ≠ .error .badCommand := by
  fun_induction decodeVarint fuel bytes with
  | case1 | case2 | case3 | case4 => nofun
  | case5 _ _ _ _ _ he ih => exact he ▸ ih

theorem decodeHeader_ne_badCommand {bytes : List Byte} : decodeHeader bytes ≠ .error .badCommand := by
  unfold decodeHeader
  split
  · nofun
  · next e h =>
    rintro ⟨⟩
    exact decodeVarint_ne_badCommand h

theorem decodeToken_ne_badCommand {bytes : List Byte} : decodeToken bytes ≠ .error .badCommand := by
  cases bytes with
  | nil => nofun
  | cons t rest => exact fun h => nomatch (decodeToken_eq_error h).1

end Sys2Proof

namespace Sys2Proof.Machine

open Sys2Proof.Safety Sys2Proof.Claims

variable {s : State}

/-- A step on stream bytes that decode to no instruction (R60, R71). -/
theorem step_undecodable {c : Code} {e : DecodeError} (hb : s.status = .busy) (hw : s.work = .instruction c)
    (hd : decode c = .error e) (he : e ≠ .badCommand) : step s = .next (s.raise .corrupt) := by
  simp only [step, if_pos hb, hw, hd]
  cases e with
  | badCommand => exact absurd rfl he
  | noTag | truncatedToken | headerEnds | headerTooLong => rfl

theorem State.work_hDec (hp : s.phase = .hDec) : s.work = .instruction (.header s.fetchHeader) := by
  simp only [State.work, hp]

/-- Before the end of a body that lies in the input, the decoder fetches (R120). -/
theorem State.work_dFetch (hp : s.phase = .dFetch) (hs : s.dec.s < s.dec.bodyLen)
    (hlen : s.dec.hdrLen + s.dec.bodyLen ≤ s.srcLen.toNat) :
    s.work = .instruction
      (.token (s.srcBytes (s.dec.hdrLen + s.dec.s) (min 5 (s.dec.bodyLen - s.dec.s)))) := by
  simp only [State.work, hp, fetchOrEnd, State.fetchToken, State.readSrc]
  rw [if_neg (by omega), if_pos (by omega)]

/-- Settles O8: both fetches reach bytes that are no instruction, and such bytes are no bad command. -/
theorem undecodableStreamIsCorrupt : Obligations.UndecodableStreamIsCorrupt := by
  unfold Obligations.UndecodableStreamIsCorrupt
  refine fun s hb => ⟨fun hp e hd => ?_, fun hp hs hlen e hd => ?_⟩
  · exact step_undecodable hb (State.work_hDec hp) hd fun he => decodeHeader_ne_badCommand (he ▸ hd)
  · exact step_undecodable hb (State.work_dFetch hp hs hlen) hd fun he => decodeToken_ne_badCommand (he ▸ hd)

/-! ## MAXLEN (R110, R111) -/

theorem maxEncodedLength_of_le {n : Nat} (h : n ≤ 3681400511) : maxEncodedLength n = some (32 + n + n / 6) :=
  (if_neg (by simp only [Config.lenMax]; omega)).trans
    (if_neg (by simp only [Config.lenMax, Config.bound]; omega))

theorem maxEncodedLength_of_gt {n : Nat} (h : 3681400511 < n) : maxEncodedLength n = none := by
  unfold maxEncodedLength
  split
  · rfl
  · exact if_pos (by simp only [Config.lenMax, Config.bound]; omega)

/-- Settles O22: the two values of the bound. -/
theorem maxlenReturnsTheBound : Obligations.MaxlenReturnsTheBound := by
  unfold Obligations.MaxlenReturnsTheBound
  refine ⟨rfl, fun s => ⟨fun h => ?_, fun h => ?_⟩⟩
  · show execMaxlen s = _
    rw [execMaxlen, maxEncodedLength_of_le h]
    rfl
  · show execMaxlen s = _
    rw [execMaxlen, maxEncodedLength_of_gt h]
    rfl

/-! ## Errors and the start of a command -/

/-- Settles O40: register by register; the state left is quiescent. -/
theorem raiseStopsTheCommand : Obligations.RaiseStopsTheCommand := by
  unfold Obligations.RaiseStopsTheCommand
  refine fun s k => ⟨rfl, ⟨rfl, rfl, rfl, ⟨rfl, rfl, rfl, rfl, rfl, rfl⟩, rfl, rfl, s.dstByte_raise k⟩, rfl, rfl,
    leads_quiescent ?_, leads_quiescent ?_⟩ <;> nofun

theorem State.writeCmd_command {v : Word} {i : Instr} (h : decodeCommand v = .ok i) :
    s.writeCmd v = s.startCommand v := by
  unfold State.writeCmd
  rw [h]

/-- A command's write makes it the instruction the next step runs (R15, R63). -/
theorem writeCsr_cmd_starts {v : Word} {i : Instr} (hq : Quiescent s) (hd : decodeCommand v = .ok i) :
    s.writeCsr .cmd v = s.startCommand v ∧ step (s.writeCsr .cmd v) = exec i (s.writeCsr .cmd v) := by
  have hw : s.writeCsr .cmd v = s.startCommand v := (State.writeCsr_cmd hq v).trans (State.writeCmd_command hd)
  obtain ⟨hrun, -, -⟩ := stepRunsTheDecodedInstruction (s.startCommand v) i rfl
  exact ⟨hw, hw ▸ hrun rfl hd⟩

/-- Settles O41: the three values decode to their commands (O7 runs them), any other is rejected on the write. -/
theorem cmdWriteStartsTheCommand : Obligations.CmdWriteStartsTheCommand := by
  unfold Obligations.CmdWriteStartsTheCommand
  refine fun s v hq => ⟨?_, fun h1 h2 h3 t ht => ?_⟩
  · rintro i (⟨rfl, rfl⟩ | ⟨rfl, rfl⟩ | ⟨rfl, rfl⟩) <;> exact writeCsr_cmd_starts hq rfl
  · rw [State.writeCsr_cmd hq, State.writeCmd_bad (decodeCommand_bad h1 h2 h3)] at ht
    subst ht
    exact ⟨rfl, rfl, rfl, rfl, rfl, rfl, rfl, rfl, rfl, rfl, rfl⟩

end Sys2Proof.Machine
end

section
/-! PROOF of O5, O6, O16 and O17: the Header Codec (R70 to R73), and what a step does to `ERR` (R151, R152). -/

namespace Sys2Proof

/-! ## The bytes a header's value is read from (R71) -/

/-- A varint of at most `fuel` bytes is read from the first `fuel` bytes (R71). -/
theorem decodeVarint_take (fuel : Nat) (bytes : List Byte) :
    decodeVarint fuel (bytes.take fuel) = decodeVarint fuel bytes := by
  fun_induction decodeVarint fuel bytes with
  | case1 | case2 => rfl
  | case3 fuel b rest hb => simp only [List.take_succ_cons, decodeVarint, if_pos hb]
  | case4 fuel b rest hb x n hx ih | case5 fuel b rest hb e hx ih =>
    simp only [List.take_succ_cons, decodeVarint, if_neg hb, ih, hx]

/-- Bytes after the tenth are not examined (R71). -/
theorem decodeHeader_take (bytes : List Byte) : decodeHeader (bytes.take 10) = decodeHeader bytes := by
  have htake : decodeVarint Config.varintMaxBytes (bytes.take 10) = decodeVarint Config.varintMaxBytes bytes :=
    decodeVarint_take 10 bytes
  simp only [decodeHeader, htake]

/-- A header of at most ten bytes reads back (R51, R71). -/
theorem decodeHeader_encodeVarint {len v : Nat} (rest : List Byte) (h1 : 1 ≤ len) (h10 : len ≤ 10)
    (hv : v < 128 ^ len) : decodeHeader (encodeVarint len v ++ rest) = .ok (.hdr v len) := by
  simp only [decodeHeader, decodeVarint_encodeVarint (fuel := Config.varintMaxBytes) rest h1 h10 hv]

end Sys2Proof

namespace Sys2Proof.Machine

open Sys2Proof.Claims

/-! ## `HDR.ENC` (R70) -/

section Encoder

variable {fuel v : Nat}

/-- One round of R70's loop: seven bits, and bit 7 set while more follow. -/
theorem headerBytes_of_ge (h : 128 ≤ v) :
    headerBytes (fuel + 1) v = BitVec.ofNat 8 (v % 128 + 128) :: headerBytes fuel (v / 128) := by
  have hlow : v &&& 0x7F = v % 128 := Nat.and_two_pow_sub_one_eq_mod v 7
  have hbit : v % 128 ||| 0x80 = v % 128 + 128 := by
    rw [Nat.or_comm, Nat.add_comm]
    exact (Nat.two_pow_add_eq_or_of_lt (i := 7) (Nat.mod_lt v (by decide)) 1).symm
  rw [headerBytes, if_pos h, hlow, hbit, Nat.shiftRight_eq_div_pow]

theorem headerBytes_of_lt (h : v < 128) : headerBytes fuel v = [BitVec.ofNat 8 v] := by
  cases fuel with
  | zero => rfl
  | succ fuel => exact if_neg (Nat.not_le.2 h)

theorem headerBytes_length_pos (fuel v : Nat) : 1 ≤ (headerBytes fuel v).length := by
  cases fuel with
  | zero => exact le_rfl
  | succ fuel =>
    unfold headerBytes
    split <;> exact Nat.succ_pos _

/-- `HDR.ENC` writes the shortest form: `k` bytes suffice for it exactly when their groups hold the value (R70). -/
theorem headerBytes_length_le_iff {k : Nat} (h1 : 1 ≤ k) (hk : k ≤ fuel) :
    (headerBytes fuel v).length ≤ k ↔ v < 128 ^ k := by
  induction fuel generalizing v k with
  | zero => omega
  | succ fuel ih =>
    obtain ⟨k, rfl⟩ := Nat.exists_eq_add_of_le' h1
    by_cases hv : v < 128
    · rw [headerBytes_of_lt hv]
      exact iff_of_true h1 (hv.trans_le (Nat.le_self_pow (Nat.succ_ne_zero k) 128))
    · have hdiv : v / 128 < 128 ^ k ↔ v < 128 ^ (k + 1) := by
        rw [Nat.div_lt_iff_lt_mul (by decide), Nat.pow_succ]
      rw [headerBytes_of_ge (Nat.not_lt.1 hv), List.length_cons, Nat.add_le_add_iff_right, ← hdiv]
      obtain rfl | hk0 := Nat.eq_zero_or_pos k
      · have := headerBytes_length_pos fuel (v / 128)
        rw [Nat.pow_zero]
        omega
      · exact ih hk0 (by omega)

/-- The groups of the bytes written hold the value (R70). -/
theorem lt_pow_headerBytes_length (hv : v < 128 ^ (fuel + 1)) : v < 128 ^ (headerBytes fuel v).length := by
  obtain hle | heq := Nat.lt_or_eq_of_le (headerBytes_length_le fuel v)
  · exact (headerBytes_length_le_iff (headerBytes_length_pos fuel v) (Nat.le_of_lt_succ hle)).1 le_rfl
  · rwa [heq]

/-- What `HDR.ENC` writes is the varint of the value in that many bytes (R51, R70). -/
theorem headerBytes_eq_encodeVarint (hv : v < 128 ^ (fuel + 1)) :
    headerBytes fuel v = encodeVarint (headerBytes fuel v).length v := by
  induction fuel generalizing v with
  | zero =>
    rw [Nat.zero_add, Nat.pow_one] at hv
    simp [headerBytes, encodeVarint, Nat.mod_eq_of_lt hv]
  | succ fuel ih =>
    by_cases h : v < 128
    · simp [headerBytes_of_lt h, encodeVarint, Nat.mod_eq_of_lt h]
    · have hrest := ih (v := v / 128) (Nat.div_lt_of_lt_mul (by rwa [← Nat.pow_succ']))
      obtain ⟨n, hn⟩ := Nat.exists_eq_add_of_le' (headerBytes_length_pos fuel (v / 128))
      rw [headerBytes_of_ge (Nat.not_lt.1 h), List.length_cons, hn, encodeVarint, ← hn, ← hrest]

end Encoder

theorem hdrEnc_length_pos (n : Nat) : 1 ≤ (hdrEnc n).length := headerBytes_length_pos 4 n

theorem hdrEnc_length_le (n : Nat) : (hdrEnc n).length ≤ 5 := headerBytes_length_le 4 n

/-- `HDR.DEC` of `HDR.ENC(n)`, whatever follows it, is `n` (R73 (a)). -/
theorem decodeHeader_hdrEnc {n : Nat} (hn : n ≤ 0xFFFFFFFF) (rest : List Byte) :
    decodeHeader (hdrEnc n ++ rest) = .ok (.hdr n (hdrEnc n).length) := by
  have hfit : n < 128 ^ (4 + 1) := by omega
  have henc : hdrEnc n = encodeVarint (hdrEnc n).length n := headerBytes_eq_encodeVarint hfit
  have hdec := decodeHeader_encodeVarint rest (hdrEnc_length_pos n) ((hdrEnc_length_le n).trans (by decide))
    (lt_pow_headerBytes_length hfit)
  rwa [← henc] at hdec

/-- Settles O6: the shortest form, at each number of bytes. -/
theorem headerIsShortestForm : Obligations.HeaderIsShortestForm := by
  unfold Obligations.HeaderIsShortestForm
  intro n _
  have hle : ∀ k, 1 ≤ k → k ≤ 4 → ((hdrEnc n).length ≤ k ↔ n < 128 ^ k) := fun _ => headerBytes_length_le_iff
  have h1 := hle 1 (by decide) (by decide)
  have h2 := hle 2 (by decide) (by decide)
  have h3 := hle 3 (by decide) (by decide)
  have h4 := hle 4 (by decide) (by decide)
  have hpos := hdrEnc_length_pos n
  have hmax := hdrEnc_length_le n
  split_ifs <;> omega

/-! ## `HDR` (R71, R72) -/

section Header

variable {s t : State} {value len : Nat}

/-- A value in range sets `destLen` and `hdrLen` (R71). -/
theorem execHdr_inRange (hlen : len ≤ s.srcLen.toNat) (h10 : len ≤ Config.varintMaxBytes)
    (hv : value ≤ Config.lenMax) (h31 : s.params.size31 = true → value ≤ Config.lenMax31) :
    execHdr value len s =
      .next { s with dec := { s.dec with destLen := value, hdrLen := len }, phase := .dInit } := by
  have hsize : ¬(decide (value > Config.lenMax31) && s.params.size31) = true := by
    rw [Bool.and_eq_true, decide_eq_true_eq]
    exact fun ⟨hgt, hs⟩ => absurd (h31 hs) (Nat.not_le.2 hgt)
  unfold execHdr
  rw [if_neg (Nat.not_lt.2 hlen), if_neg (Nat.not_lt.2 h10), if_neg (Nat.not_lt.2 hv), if_neg hsize]
  rfl

/-- `Corrupt` comes first, whatever `SIZE31` is (R72, R153). -/
theorem execHdr_corrupt (hlen : len ≤ s.srcLen.toNat) (h10 : len ≤ Config.varintMaxBytes)
    (hv : Config.lenMax < value) :
    execHdr value len s = .next (s.raise .corrupt) := by
  unfold execHdr
  rw [if_neg (Nat.not_lt.2 hlen), if_neg (Nat.not_lt.2 h10), if_pos hv]
  rfl

theorem execHdr_tooLarge (hlen : len ≤ s.srcLen.toNat) (h10 : len ≤ Config.varintMaxBytes)
    (hsize : s.params.size31 = true) (h31 : Config.lenMax31 < value) (hv : value ≤ Config.lenMax) :
    execHdr value len s = .next (s.raise .tooLarge) := by
  have htoo : (decide (value > Config.lenMax31) && s.params.size31) = true := by
    rw [hsize, Bool.and_true]
    exact decide_eq_true h31
  unfold execHdr
  rw [if_neg (Nat.not_lt.2 hlen), if_neg (Nat.not_lt.2 h10), if_neg (Nat.not_lt.2 hv), if_pos htoo]
  rfl

/-- Everything a header can do: an error, of which `TooLarge` needs `SIZE31`, or the two lengths (R71, R72). -/
theorem execHdr_cases (h : execHdr value len s = .next t) :
    t = s.raise .corrupt ∨ (s.params.size31 = true ∧ t = s.raise .tooLarge) ∨
      t = (s.setDec { s.dec with destLen := value, hdrLen := len }).setPhase .dInit := by
  have h := Run.outcome_eq_next.1 h
  split at h
  · exact .inl (Except.ok.inj h).symm
  split at h
  · exact .inl (Except.ok.inj h).symm
  split at h
  · exact .inl (Except.ok.inj h).symm
  split at h
  · next hsize => exact .inr (.inl ⟨(Bool.and_eq_true_iff.1 hsize).2, (Except.ok.inj h).symm⟩)
  · exact .inr (.inr (Except.ok.inj h).symm)

/-- The step that reads the header of a stream (R140). -/
theorem step_header_cases (hb : s.status = .busy) (hp : s.phase = .hDec) (h : step s = .next t) :
    t = s.raise .corrupt ∨ (s.params.size31 = true ∧ t = s.raise .tooLarge) ∨
      ∃ value len, t = (s.setDec { s.dec with destLen := value, hdrLen := len }).setPhase .dInit := by
  cases hd : decodeHeader s.fetchHeader with
  | ok i =>
    obtain ⟨value, len, rfl, -⟩ := decodeHeader_eq_ok hd
    obtain ⟨-, hrun, -⟩ := stepRunsTheDecodedInstruction s _ hb
    obtain hc | ht | hr := execHdr_cases ((hrun hp hd).symm.trans h)
    · exact .inl hc
    · exact .inr (.inl ht)
    · exact .inr (.inr ⟨value, len, hr⟩)
  | error e =>
    have hx := step_undecodable hb (State.work_hDec hp) hd fun he => decodeHeader_ne_badCommand (he ▸ hd)
    exact .inl (Host.Outcome.next.inj (h.symm.trans hx))

theorem raised_raise (s : State) (k : ErrKind) : Raised k s (s.raise k) := by
  obtain ⟨-, hraised, -⟩ := raiseStopsTheCommand s k
  exact hraised

theorem tokenRaised_raise (s : State) (k : ErrKind) : TokenRaised k s (s.raise k) :=
  ⟨raised_raise s k, rfl, rfl, rfl, rfl⟩

end Header

/-- Settles O16: no test of `HDR` fails. -/
theorem headerSetsLengths : Obligations.HeaderSetsLengths := fun _ _ _ hlen h10 hv h31 =>
  execHdr_inRange hlen h10 hv h31

/-! ## Reading the header of a stream (R73) -/

theorem State.srcBytes_add (s : State) (a m n : Nat) :
    s.srcBytes a (m + n) = s.srcBytes a m ++ s.srcBytes (a + m) n := by
  induction m generalizing a with
  | zero => rw [Nat.zero_add]; rfl
  | succ m ih =>
    rw [Nat.succ_add, State.srcBytes, ih, State.srcBytes, List.cons_append, Nat.add_assoc, Nat.add_comm 1 m]

/-- A header of at most ten bytes inside the input is what the fetch begins with (R71). -/
theorem State.fetchHeader_eq_append (s : State) {n : Nat} (hlen : n ≤ s.srcLen.toNat) (h10 : n ≤ 10) :
    s.fetchHeader = s.srcBytes 0 n ++ s.srcBytes n (min s.srcLen.toNat 10 - n) := by
  have hadd := s.srcBytes_add 0 n (min s.srcLen.toNat 10 - n)
  rwa [Nat.zero_add, Nat.add_sub_cancel' (Nat.le_min.2 ⟨hlen, h10⟩)] at hadd

/-- The step at a stream that begins with `HDR.ENC(n)` runs the header of `n` (R73 (a)). -/
theorem step_hdrEnc {s : State} {n : Nat} (hn : n ≤ 0xFFFFFFFF) (hb : s.status = .busy) (hp : s.phase = .hDec)
    (hlen : (hdrEnc n).length ≤ s.srcLen.toNat) (hsrc : s.srcBytes 0 (hdrEnc n).length = hdrEnc n) :
    step s = execHdr n (hdrEnc n).length s := by
  have hfetch := s.fetchHeader_eq_append hlen ((hdrEnc_length_le n).trans (by decide))
  rw [hsrc] at hfetch
  obtain ⟨-, hrun, -⟩ := stepRunsTheDecodedInstruction s (.hdr n (hdrEnc n).length) hb
  exact hrun hp ((congrArg decodeHeader hfetch).trans (decodeHeader_hdrEnc hn _))

/-- Settles O5: the header decodes to `n`, and `HDR` runs with that value, inside or beyond the limit of `SIZE31`. -/
theorem headerCodecLaws : Obligations.HeaderCodecLaws := by
  unfold Obligations.HeaderCodecLaws
  refine ⟨fun s n hn hb hp hlen hsrc => ?_, fun n _ => ⟨hdrEnc_length_pos n, hdrEnc_length_le n⟩,
    fun bytes => (decodeHeader_take bytes).symm, fun _ => rfl, by decide⟩
  have h10 : (hdrEnc n).length ≤ 10 := (hdrEnc_length_le n).trans (by decide)
  rw [step_hdrEnc hn hb hp hlen hsrc]
  split
  · next hsize =>
    obtain ⟨h31, hgt⟩ := hsize
    exact ⟨_, execHdr_tooLarge hlen h10 h31 hgt hn, raised_raise s .tooLarge⟩
  · next hsize =>
    have h31 : s.params.size31 = true → n ≤ 0x7FFFFFFF := fun hs => Nat.not_lt.1 fun hgt => hsize ⟨hs, hgt⟩
    exact ⟨_, execHdr_inRange hlen h10 hn h31, rfl, rfl, hb⟩

/-! ## What a step does to `ERR` (R151, R152)

A part of a meaning goes on or completes with `ERR` as it was, or raises an error its phase may raise. -/

/-- From `s` to `t` a running command keeps `ERR` and is in no error, or raises an error the phase `p` may raise. -/
def RaisesListed (p : Phase) (s t : State) : Prop :=
  (t.status ≠ .error ∧ t.err = s.err) ∨ mayRaise p t.err = true

section Errors

variable {s t u : State} {p : Phase}

theorem WorkFrame.raisesListed (h : WorkFrame s t) (hb : s.status = .busy) : RaisesListed p s t :=
  .inl ⟨by rw [h.status, hb]; decide, h.err⟩

/-- A literal raises `UnsupportedLiteralLength` or goes on (R126). -/
theorem literalBody_raises (hw : WorkFrame s u) (hb : s.status = .busy)
    (hk : mayRaise p .unsupportedLiteralLength = true) (h : literalBody u = .ok t) : RaisesListed p s t := by
  obtain rfl | ⟨-, -, -, -, -, rfl⟩ := literalBody_cases h
  · exact .inr hk
  · exact (((hw.setDst _).setDec _).setPhase _).raisesListed hb

/-- A copy raises `Corrupt` or goes on (R130 to R133). -/
theorem copyBody_raises (hw : WorkFrame s u) (hb : s.status = .busy) (hk : mayRaise p .corrupt = true)
    (h : copyBody u = .ok t) : RaisesListed p s t := by
  obtain rfl | ⟨-, -, -, -, rfl⟩ := copyBody_cases h
  · exact .inr hk
  · exact (((hw.copyLoop _ _ _).setDec _).setPhase _).raisesListed hb

theorem literal_raises {head length : Nat} (hb : s.status = .busy) (h : literal head length s = .ok t) :
    RaisesListed .dFetch s t :=
  literalBody_raises (((WorkFrame.refl s).setDec _).setPhase _) hb rfl h

theorem longLiteral_raises {head length : Nat} (hb : s.status = .busy) (h : longLiteral head length s = .ok t) :
    RaisesListed .dFetch s t := by
  unfold longLiteral at h
  split at h
  · cases h; exact .inr rfl
  · exact literal_raises hb h

theorem copy_raises {head length offset : Nat} (hb : s.status = .busy) (h : copy head length offset s = .ok t) :
    RaisesListed .dFetch s t := by
  unfold copy at h
  split at h
  · cases h; exact .inr rfl
  · exact copyBody_raises (((WorkFrame.refl s).setDec _).setPhase _) hb rfl h

/-- The tokens (R121 to R133). -/
theorem exec_token_raises {bytes : List Byte} {i : Instr} (hb : s.status = .busy) (hd : decodeToken bytes = .ok i)
    (h : exec i s = .next t) : RaisesListed .dFetch s t := by
  have hi := decode_isCommand (c := .token bytes) hd
  cases i with
  | litS m => exact literal_raises hb (Run.outcome_eq_next.1 h)
  | lit1 m | lit2 m | lit3 m | lit4 m => exact longLiteral_raises hb (Run.outcome_eq_next.1 h)
  | copy1 l offset | copy2 l offset | copy4 l offset => exact copy_raises hb (Run.outcome_eq_next.1 h)
  | hdr value len => exact absurd hd decodeToken_ne_hdr
  | compress | decompress | maxlen => cases hi

theorem execMaxlen_raises (h : execMaxlen s = .next t) : RaisesListed .cStart s t := by
  unfold execMaxlen at h
  split at h <;> cases h
  · exact .inr rfl
  · exact .inl ⟨nofun, rfl⟩

theorem execCompress_raises (hb : s.status = .busy) (h : execCompress s = .next t) : RaisesListed .cStart s t := by
  unfold execCompress at h
  split at h
  · cases h; exact .inr rfl
  split at h
  · cases h; exact .inr rfl
  obtain ⟨u, hu, h⟩ := Except.bind_eq_ok.1 (Run.outcome_eq_next.1 h)
  obtain ⟨-, rfl⟩ := State.emit_eq_emitted hu
  cases h
  exact ((workFrame_headerEmitted s).setPhase _).raisesListed hb

/-- The commands (R63, R111, R112, R140). -/
theorem exec_command_raises {v : Word} {i : Instr} (hb : s.status = .busy) (hd : decodeCommand v = .ok i)
    (h : exec i s = .next t) : RaisesListed .cStart s t := by
  have hi := decode_isCommand (c := .command v) hd
  cases i <;> cases hi
  case compress => exact execCompress_raises hb h
  case decompress => cases h; exact ((WorkFrame.refl s).setPhase _).raisesListed hb
  case maxlen => exact execMaxlen_raises h

/-- The header (R71, R72). -/
theorem execHdr_raises {value len : Nat} (hb : s.status = .busy) (h : execHdr value len s = .next t) :
    RaisesListed .hDec s t := by
  obtain rfl | ⟨-, rfl⟩ | rfl := execHdr_cases h
  · exact .inr rfl
  · exact .inr rfl
  · exact (((WorkFrame.refl s).setDec _).setPhase _).raisesListed hb

/-- Stream bytes that are no instruction raise `Corrupt` (R60, R71). -/
theorem rejectCode_corrupt {e : DecodeError} (he : e ≠ .badCommand) (h : rejectCode e s = .ok t) :
    t = s.raise .corrupt := by
  cases e with
  | badCommand => exact absurd rfl he
  | noTag | truncatedToken | headerEnds | headerTooLong => cases h; rfl

theorem decodeInit_raises (hb : s.status = .busy) (h : decodeInit s = .ok t) : RaisesListed .dInit s t := by
  unfold decodeInit at h
  split at h <;> cases h
  · exact .inr rfl
  · exact (((WorkFrame.refl s).setDec _).setPhase _).raisesListed hb

theorem decodeEnd_raises (h : decodeEnd s = .ok t) : RaisesListed .dEnd s t := by
  unfold decodeEnd at h
  split at h <;> cases h
  · exact .inr rfl
  · exact .inl ⟨nofun, rfl⟩

/-- The chunk loop raises nothing (R113 to R115). -/
theorem chunkLoop_raises (hb : s.status = .busy) (h : chunkLoop s = .ok t) : RaisesListed p s t := by
  unfold chunkLoop at h
  dsimp only at h
  split at h
  · split at h
    · obtain ⟨u, hu, h⟩ := Except.bind_eq_ok.1 h
      obtain ⟨-, -, rfl⟩ := emitLit_emitted hu
      cases h
      exact (((WorkFrame.refl s).setEnc _).emitted _).nextChunk.raisesListed hb
    · cases h
      exact (((WorkFrame.refl s).setEnc _).setPhase _).raisesListed hb
  · cases h
    exact .inl ⟨nofun, rfl⟩

theorem blockSearch_raises (hb : s.status = .busy) (h : blockSearch s = .ok t) : RaisesListed p s t := by
  obtain ⟨-, rfl⟩ | ⟨-, -, cand, fs, fc, rfl, rfl, rfl, rfl⟩ := blockSearch_cases h
  · exact (((WorkFrame.refl s).setEnc _).setPhase _).raisesListed hb
  · exact ((workFrame_probed s).setPhase _).raisesListed hb

theorem blockCopy_raises (hb : s.status = .busy) (h : blockCopy s = .ok t) : RaisesListed p s t := by
  obtain ⟨q, -, -, ⟨-, rfl⟩ | ⟨-, hr⟩⟩ := blockCopy_cases h
  · exact ((workFrame_copied s q).setPhase _).raisesListed hb
  · obtain ⟨-, rfl⟩ | rfl := blockReinsert_cases hr
    · exact ((workFrame_copied s q).reinserted.setPhase _).raisesListed hb
    · exact (workFrame_copied s q).resumed.raisesListed hb

theorem blockRemainder_raises (hb : s.status = .busy) (h : blockRemainder s = .ok t) : RaisesListed p s t := by
  obtain ⟨-, -, rfl⟩ | ⟨-, rfl⟩ := blockRemainder_cases h
  · exact (workFrame_pendingEmitted s _).nextChunk.raisesListed hb
  · exact (WorkFrame.refl s).nextChunk.raisesListed hb

theorem decodeCommand_eq_error {v : Word} {e : DecodeError} (h : decodeCommand v = .error e) : e = .badCommand := by
  revert h
  fun_cases decodeCommand v <;> intro h <;> cases h
  rfl

/-- Where an instruction comes from (R18): the latched command, the header, or the body. -/
theorem State.work_instruction {c : Code} (h : s.work = .instruction c) :
    (s.phase = .cStart ∧ c = .command s.cmd) ∨ (s.phase = .hDec ∧ c = .header s.fetchHeader) ∨
      (s.phase = .dFetch ∧ ∃ bytes, c = .token bytes) := by
  unfold State.work fetchOrEnd at h
  cases hp : s.phase <;> rw [hp] at h <;> simp only [reduceCtorEq, Work.instruction.injEq] at h
  case cStart => exact .inl ⟨rfl, h.symm⟩
  case hDec => exact .inr (.inl ⟨rfl, h.symm⟩)
  case dFetch =>
    split at h
    · cases h
    · split at h <;> cases h
      exact .inr (.inr ⟨rfl, _, rfl⟩)

/-- The instruction the fetched bits decode to (R18, R120). -/
theorem exec_raises {c : Code} {i : Instr} (hb : s.status = .busy) (hw : s.work = .instruction c)
    (hd : decode c = .ok i) (h : exec i s = .next t) : RaisesListed s.phase s t := by
  obtain ⟨hp, rfl⟩ | ⟨hp, rfl⟩ | ⟨hp, bytes, rfl⟩ := State.work_instruction hw <;> rw [hp]
  · exact exec_command_raises hb hd h
  · obtain ⟨value, len, rfl, -⟩ := decodeHeader_eq_ok hd
    exact execHdr_raises hb h
  · exact exec_token_raises hb hd h

/-- Bits that are no instruction (R60, R63, R71). -/
theorem rejectCode_raises {c : Code} {e : DecodeError} (hw : s.work = .instruction c) (hd : decode c = .error e)
    (h : rejectCode e s = .ok t) : RaisesListed s.phase s t := by
  obtain ⟨hp, rfl⟩ | ⟨hp, rfl⟩ | ⟨hp, bytes, rfl⟩ := State.work_instruction hw <;> rw [hp]
  · obtain rfl := decodeCommand_eq_error hd
    cases h
    exact .inr rfl
  · obtain rfl := rejectCode_corrupt (fun he => decodeHeader_ne_badCommand (he ▸ hd)) h
    exact .inr rfl
  · obtain rfl := rejectCode_corrupt (fun he => decodeToken_ne_badCommand (he ▸ hd)) h
    exact .inr rfl

/-- A phase's own work (R106, R120). -/
theorem phaseRun_raises (hb : s.status = .busy) (hw : s.work = .phaseRun (.ok t)) : RaisesListed s.phase s t := by
  unfold State.work fetchOrEnd at hw
  cases hp : s.phase <;> rw [hp] at hw <;> simp only [reduceCtorEq, Work.phaseRun.injEq] at hw
  case dInit => exact decodeInit_raises hb hw
  case dFetch =>
    split at hw
    · cases hw; exact ((WorkFrame.refl s).setPhase _).raisesListed hb
    · split at hw <;> cases hw
  case dLit => exact literalBody_raises (.refl s) hb rfl hw
  case dCopy => exact copyBody_raises (.refl s) hb rfl hw
  case dEnd => exact decodeEnd_raises hw
  case eChunk => exact chunkLoop_raises hb hw
  case bInit => obtain ⟨-, rfl⟩ := blockInit_cases hw; exact (workFrame_blockStarted s).raisesListed hb
  case bSearch => exact blockSearch_raises hb hw
  case bMatch =>
    obtain ⟨-, rfl⟩ := blockMatch_cases hw
    exact ((workFrame_pendingEmitted s _).setPhase _).raisesListed hb
  case bCopy => exact blockCopy_raises hb hw
  case bRemainder => exact blockRemainder_raises hb hw

/-- A step of a running command raises only what R152 lists for its phase. -/
theorem step_raisesListed (hb : s.status = .busy) (h : step s = .next t) : RaisesListed s.phase s t := by
  obtain ⟨hq, -⟩ | ⟨-, ⟨c, i, hw, hd, hx⟩ | ⟨c, e, hw, hd, hr⟩ | ⟨r, hw, rfl⟩⟩ := step_cases h
  · exact absurd hb hq
  · exact exec_raises hb hw hd hx
  · exact rejectCode_raises hw hd hr
  · exact phaseRun_raises hb hw

/-- `TooLarge` is an error of the header alone (R152). -/
theorem eq_hDec_of_mayRaise_tooLarge (h : mayRaise p .tooLarge = true) : p = .hDec := by
  revert h
  cases p <;> decide

/-- Without `SIZE31` no step raises `TooLarge` (R72): only a header could, and its test needs `SIZE31`. -/
theorem step_err_ne_tooLarge (hsize : s.params.size31 = false) (he : s.err ≠ .tooLarge) (h : step s = .next t) :
    t.err ≠ .tooLarge := by
  by_cases hb : s.status = .busy
  · obtain ⟨-, hkeep⟩ | hmay := step_raisesListed hb h
    · rwa [hkeep]
    · intro ht
      rw [ht] at hmay
      obtain rfl | ⟨hs, -⟩ | ⟨value, len, rfl⟩ := step_header_cases hb (eq_hDec_of_mayRaise_tooLarge hmay) h
      · cases ht
      · rw [hsize] at hs
        cases hs
      · exact he ht
  · cases (step_quiescent hb).symm.trans h
    exact he

end Errors

/-- Settles O17: the tests of `HDR` in their order, and no other step raises `TooLarge`. -/
theorem tooLargeOnlyUnderSizeLimit : Obligations.TooLargeOnlyUnderSizeLimit := by
  unfold Obligations.TooLargeOnlyUnderSizeLimit
  refine ⟨rfl, fun s value len hlen h10 => ⟨fun hv => ?_, fun hsize h31 hv => ?_⟩,
    fun s t hsize he h => step_err_ne_tooLarge hsize he h⟩
  · exact ⟨_, execHdr_corrupt hlen h10 hv, tokenRaised_raise s .corrupt⟩
  · exact ⟨_, execHdr_tooLarge hlen h10 hsize h31 hv, tokenRaised_raise s .tooLarge⟩

end Sys2Proof.Machine
end

section
/-! PROOF of O26 to O28: the bytes the emitters compute are those of encoded tokens (R80, R81), and how often the loop
of `EMIT.COPY` runs (R82). -/

namespace Sys2Proof

/-! ## Fields and bytes of a number -/

/-- A field shifted above another is the two fields side by side. -/
theorem ofNat_shiftLeft_or {v w a b : Nat} (hb : b < 2 ^ w) :
    BitVec.ofNat (v + w) (a <<< w ||| b) = BitVec.ofNat v a ++ BitVec.ofNat w b := by
  refine BitVec.eq_of_getLsbD_eq fun i hi => ?_
  rw [BitVec.getLsbD_append, BitVec.getLsbD_ofNat, BitVec.getLsbD_ofNat, BitVec.getLsbD_ofNat, Nat.testBit_or,
    Nat.testBit_shiftLeft]
  by_cases hw : i < w
  · simp [hi, hw, Nat.not_le.2 hw]
  · have hbi : b.testBit i = false :=
      Nat.testBit_lt_two_pow (hb.trans_le (Nat.pow_le_pow_right Nat.two_pos (by omega)))
    simp [hi, hw, hbi, show w ≤ i by omega, show i - w < v by omega]

/-- A field of a word is the number it holds, shifted down to the field. -/
theorem extractLsb'_ofNat {w k n : Nat} (v : Nat) (hk : k + n ≤ w) :
    (BitVec.ofNat w v).extractLsb' k n = BitVec.ofNat n (v >>> k) := by
  refine BitVec.eq_of_getLsbD_eq fun i hi => ?_
  rw [BitVec.getLsbD_extractLsb', BitVec.getLsbD_ofNat, BitVec.getLsbD_ofNat, Nat.testBit_shiftRight]
  simp [hi, show k + i < w by omega]

/-- The emitters mask the low byte; conversion to a byte does it again. -/
theorem ofNat_and_byteMask (v : Nat) : BitVec.ofNat 8 (v &&& 0xFF) = BitVec.ofNat 8 v :=
  BitVec.ofNat_and.trans BitVec.and_allOnes

/-- The low byte of a word, as the emitters compute it (R31). -/
theorem byteOf_ofNat_zero {w : Nat} (v : Nat) (hw : 8 ≤ w) :
    byteOf (BitVec.ofNat w v) 0 = BitVec.ofNat 8 (v &&& 0xFF) :=
  (extractLsb'_ofNat v hw).trans (ofNat_and_byteMask v).symm

end Sys2Proof

namespace Sys2Proof.Machine

/-! ## `EMIT.LIT` (R80) -/

theorem literalTag_litS {n : Nat} (h1 : 1 ≤ n) (h : n ≤ 60) :
    literalTag n = (encode (.litS (BitVec.ofNat 6 (n - 1)))).bytes := by
  have htag : BitVec.ofNat 8 ((n - 1) <<< 2) = BitVec.ofNat 6 (n - 1) ++ 0#2 :=
    (congrArg (BitVec.ofNat 8) (Nat.or_zero _).symm).trans (ofNat_shiftLeft_or (v := 6) (by decide))
  rw [literalTag, if_pos (by omega), htag]
  rfl

theorem literalTag_lit1 {n : Nat} (h60 : 60 < n) (h : n ≤ 256) :
    literalTag n = (encode (.lit1 (BitVec.ofNat 8 (n - 1)))).bytes := by
  rw [literalTag, if_neg (by omega), if_pos (by omega), encode, byteOf_byte]
  rfl

theorem literalTag_lit2 {n : Nat} (h256 : 256 < n) :
    literalTag n = (encode (.lit2 (BitVec.ofNat 16 (n - 1)))).bytes := by
  rw [literalTag, if_neg (by omega), if_neg (by omega), encode, byteOf_ofNat_zero _ (by decide), byteOf,
    extractLsb'_ofNat _ (by decide)]
  rfl

/-- A field of `n - 1` that can hold it stands for `n` (R53, R54, R56). -/
theorem toNat_ofNat_pred_add_one {w n : Nat} (h1 : 1 ≤ n) (h : n ≤ 2 ^ w) :
    (BitVec.ofNat w (n - 1)).toNat + 1 = n := by
  rw [BitVec.toNat_ofNat, Nat.mod_eq_of_lt (by omega)]
  omega

/-- Settles O26: each tier's bytes are an encoded literal, which O2 reads back. -/
theorem emittedLiteralDecodes : Obligations.EmittedLiteralDecodes := by
  unfold Obligations.EmittedLiteralDecodes
  intro n rest h1 hmax
  refine ⟨fun h => ?_, fun h60 h => ?_, fun h256 => ?_⟩
  · have hm := toNat_ofNat_pred_add_one (w := 6) h1 (by omega)
    rw [literalTag_litS h1 h]
    exact ⟨_, hm, decodeOfEncode (.litS _) rest (decide_eq_true (by omega)), rfl⟩
  · rw [literalTag_lit1 h60 h]
    exact ⟨_, toNat_ofNat_pred_add_one h1 h, decodeOfEncode (.lit1 _) rest rfl, rfl⟩
  · rw [literalTag_lit2 h256]
    exact ⟨_, toNat_ofNat_pred_add_one h1 hmax, decodeOfEncode (.lit2 _) rest rfl, rfl⟩

/-! ## The loop of `EMIT.COPY` (R81, R82) -/

/-- How many turns `while length >= 68` takes (R82); 0 for every length below 68, truncated subtraction included. -/
def wideCount (length : Nat) : Nat := (length - 4) / 64

theorem wideCount_eq_zero {length : Nat} (h : length < 68) : wideCount length = 0 := Nat.div_eq_of_lt (by omega)

/-- With fuel enough the loop writes `wideCount` copies of 64 and leaves the rest. -/
theorem wideCopies_eq (offset : Nat) {fuel length : Nat} (hfuel : length < 64 * fuel + 68) :
    wideCopies offset fuel length =
      ((List.replicate (wideCount length) (wideCopy 0xFE offset)).flatten, length - 64 * wideCount length) := by
  induction fuel generalizing length with
  | zero => simp [wideCopies, wideCount_eq_zero hfuel]
  | succ fuel ih =>
    unfold wideCopies
    split
    · next h68 =>
      have hturn : wideCount length = wideCount (length - 64) + 1 := by unfold wideCount; omega
      rw [ih (by omega), hturn, List.replicate_succ, List.flatten_cons]
      simp only [Prod.mk.injEq, true_and]
      omega
    · next h68 => simp [wideCount_eq_zero (Nat.not_le.1 h68)]

/-- What the loop leaves for the last one or two tokens: 4 to 67 of the length. -/
theorem wideCount_bounds {length : Nat} (h : 4 ≤ length) :
    64 * wideCount length + 4 ≤ length ∧ length < 64 * wideCount length + 68 := by
  unfold wideCount
  omega

/-- The bytes of `EMIT.COPY` with the loop run. -/
theorem copyBytes_eq (offset length : Nat) :
    copyBytes offset length =
      (List.replicate (wideCount length) (wideCopy 0xFE offset)).flatten ++
        (splitCopy offset (length - 64 * wideCount length)).1 ++
        lastCopy offset (splitCopy offset (length - 64 * wideCount length)).2 := by
  rw [copyBytes, wideCopies_eq offset (by omega)]

theorem lastCopy_length (offset length : Nat) :
    (lastCopy offset length).length = if length ≥ 12 ∨ offset ≥ 2048 then 3 else 2 := by
  unfold lastCopy
  split <;> rfl

/-- Settles O28: three bytes a turn of the loop, three for the split, and the last token's. -/
theorem emittedCopySize : Obligations.EmittedCopySize := by
  unfold Obligations.EmittedCopySize
  rintro offset length q r - hq rfl
  obtain rfl : q = wideCount length := by unfold wideCount; split at hq <;> omega
  have hloop : (List.replicate (wideCount length) (wideCopy 0xFE offset)).flatten.length = 3 * wideCount length := by
    simp [wideCopy, Nat.mul_comm]
  rw [copyBytes_eq, List.length_append, List.length_append, lastCopy_length, hloop, splitCopy]
  split <;> rfl

/-! ## The tokens of `EMIT.COPY` (R81, R83) -/

/-- The COPY2 token of an offset and a length of 1 to 64. -/
def wideToken (offset length : Nat) : Instr := .copy2 (BitVec.ofNat 6 (length - 1)) (BitVec.ofNat 16 offset)

/-- The last token: COPY1 where its fields hold offset and length, else COPY2. -/
def lastToken (offset length : Nat) : Instr :=
  if length ≥ 12 ∨ offset ≥ 2048 then wideToken offset length
  else .copy1 (BitVec.ofNat 3 (length - 4)) (BitVec.ofNat 11 offset)

/-- The tokens `EMIT.COPY(offset, length)` writes. -/
def copyTokens (offset length : Nat) : List Instr :=
  let r := length - 64 * wideCount length
  List.replicate (wideCount length) (wideToken offset 64) ++
    if r > 64 then [wideToken offset 60, lastToken offset (r - 60)] else [lastToken offset r]

theorem wideToken_bytes (offset length : Nat) :
    (encode (wideToken offset length)).bytes = wideCopy ((length - 1) <<< 2 ||| 2) offset := by
  have htag : BitVec.ofNat 8 ((length - 1) <<< 2 ||| 2) = BitVec.ofNat 6 (length - 1) ++ 2#2 :=
    ofNat_shiftLeft_or (v := 6) (by decide)
  rw [wideCopy, htag, wideToken, encode, byteOf_ofNat_zero _ (by decide), byteOf, extractLsb'_ofNat _ (by decide)]
  rfl

theorem lastToken_bytes (offset length : Nat) :
    (encode (lastToken offset length)).bytes = lastCopy offset length := by
  unfold lastToken lastCopy
  split
  · exact wideToken_bytes offset length
  · next h =>
    have htag : BitVec.ofNat 8 ((offset >>> 8) <<< 5 ||| (length - 4) <<< 2 ||| 1) =
        BitVec.ofNat 3 (offset >>> 8) ++ BitVec.ofNat 3 (length - 4) ++ 1#2 := by
      rw [Nat.shiftLeft_add _ 3 2, ← Nat.shiftLeft_or_distrib,
        ← ofNat_shiftLeft_or (v := 3) (w := 3) (show length - 4 < 2 ^ 3 by omega)]
      exact ofNat_shiftLeft_or (v := 6) (by decide)
    rw [htag, encode, byteOf_ofNat_zero _ (by decide), extractLsb'_ofNat _ (by decide)]
    rfl

/-- `EMIT.COPY` writes the encodings of its tokens. -/
theorem copyTokens_bytes (offset length : Nat) :
    copyBytes offset length = ((copyTokens offset length).map fun i => (encode i).bytes).flatten := by
  have h64 : (encode (wideToken offset 64)).bytes = wideCopy 0xFE offset := wideToken_bytes offset 64
  have h60 : (encode (wideToken offset 60)).bytes = wideCopy 0xEE offset := wideToken_bytes offset 60
  rw [copyBytes_eq, copyTokens, splitCopy]
  split <;> simp [h64, h60, lastToken_bytes]

/-- How many bytes a token of `EMIT.COPY` produces (R55, R56). -/
def copiedBytes : Instr → Nat
  | .copy1 l _ => copy1Length l
  | .copy2 l _ => copyLength l
  | _ => 0

/-- A COPY1 or COPY2 of an offset and of length 4 or more, as R81 writes them. -/
def IsEmittedCopy (offset : Nat) (i : Instr) : Prop :=
  (∃ l o, i = .copy1 l o ∧ o.toNat = offset) ∨ (∃ l o, i = .copy2 l o ∧ o.toNat = offset ∧ 4 ≤ 1 + l.toNat)

theorem copiedBytes_wideToken (offset : Nat) {length : Nat} (h1 : 1 ≤ length) (h : length ≤ 64) :
    copiedBytes (wideToken offset length) = length :=
  (Nat.add_comm _ _).trans (toNat_ofNat_pred_add_one h1 h)

theorem copiedBytes_lastToken (offset : Nat) {length : Nat} (h4 : 4 ≤ length) (h : length ≤ 64) :
    copiedBytes (lastToken offset length) = length := by
  unfold lastToken
  split
  · exact copiedBytes_wideToken offset (by omega) h
  · next hlast =>
    simp only [copiedBytes, copy1Length, BitVec.toNat_ofNat]
    omega

theorem isEmittedCopy_wideToken {offset length : Nat} (ho : offset ≤ 65535) (h4 : 4 ≤ length) (h : length ≤ 64) :
    IsEmittedCopy offset (wideToken offset length) :=
  .inr ⟨_, _, rfl, Nat.mod_eq_of_lt (by omega), h4.trans_eq (copiedBytes_wideToken offset (by omega) h).symm⟩

theorem isEmittedCopy_lastToken {offset length : Nat} (ho : offset ≤ 65535) (h4 : 4 ≤ length) (h : length ≤ 64) :
    IsEmittedCopy offset (lastToken offset length) := by
  unfold lastToken
  split
  · exact isEmittedCopy_wideToken ho h4 h
  · exact .inl ⟨_, _, rfl, Nat.mod_eq_of_lt (by omega)⟩

theorem isEmittedCopy_of_mem_copyTokens {offset length : Nat} (ho : offset ≤ 65535) (h4 : 4 ≤ length) {i : Instr}
    (hi : i ∈ copyTokens offset length) : IsEmittedCopy offset i := by
  have hr := wideCount_bounds h4
  obtain hi | hi := List.mem_append.1 hi
  · rw [List.eq_of_mem_replicate hi]
    exact isEmittedCopy_wideToken ho (by decide) (by decide)
  split at hi
  · obtain rfl | rfl := List.mem_pair.1 hi
    · exact isEmittedCopy_wideToken ho (by decide) (by decide)
    · exact isEmittedCopy_lastToken ho (by omega) (by omega)
  · obtain rfl := List.mem_singleton.1 hi
    exact isEmittedCopy_lastToken ho (by omega) (by omega)

/-- The tokens cover the whole length: 64 a turn, then 60 and the rest, or the rest. -/
theorem sum_copiedBytes_copyTokens (offset : Nat) {length : Nat} (h4 : 4 ≤ length) :
    ((copyTokens offset length).map copiedBytes).sum = length := by
  have hr := wideCount_bounds h4
  rw [copyTokens, List.map_append, List.sum_append, List.map_replicate, List.sum_replicate,
    copiedBytes_wideToken offset (by decide) (by decide), smul_eq_mul]
  split
  · rw [List.map_cons, List.map_singleton, List.sum_pair, copiedBytes_wideToken offset (by decide) (by decide),
      copiedBytes_lastToken offset (by omega) (by omega)]
    omega
  · rw [List.map_singleton, List.sum_singleton, copiedBytes_lastToken offset (by omega) (by omega)]
    omega

/-- Settles O27: the tokens are `copyTokens`. -/
theorem emittedCopiesAddUp : Obligations.EmittedCopiesAddUp := fun offset length _ ho h4 =>
  ⟨copyTokens offset length, copyTokens_bytes offset length, fun _ => isEmittedCopy_of_mem_copyTokens ho h4,
    sum_copiedBytes_copyTokens offset h4⟩

end Sys2Proof.Machine
end

section
/-! PROOF of O38 and O56: the arrows between phases (R106, R120), and COMPRESS, which ends because every step of the
encoder has fewer input bytes ahead of it. -/

namespace Sys2Proof.Machine

open Sys2Proof.Safety Sys2Proof.Claims

/-! ## The arrows between phases -/

section Arrows

variable {s t u : State}

/-- A token's body runs in a phase from which the decoder goes on to its next fetch (R120). -/
theorem Fetched.follows_dFetch (h : Fetched s u) : follows s.phase .dFetch = true := by
  cases h with
  | here hp => rcases hp with hp | hp <;> rw [hp] <;> rfl
  | token _ hp => rw [hp]; rfl

/-- A transition that goes on takes the phase along an arrow. -/
theorem Transition.follows (h : Transition s t) (hb : t.status = .busy) : follows s.phase t.phase = true := by
  cases h with
  | raiseQuiet | finishQuiet | raise | tokenRaises | decoded | encoded => cases hb
  | literalRuns hf | copyRuns hf => exact hf.follows_dFetch
  | decompressStarts hp | headerRead hp | bodyStarts hp | bodyEnds hp | compressStarts hp | shortChunk hp
  | longChunk hp | blockStarts hp | searchEnds hp | miss hp | hit hp | pending hp | copyEnds hp | rematch hp
  | resume hp | remainder hp | noRemainder hp => rw [hp]; rfl

end Arrows

/-- Settles O38: by cases on the transition. -/
theorem phasesFollowTheRules : Obligations.PhasesFollowTheRules := fun _ _ hb h ht =>
  (step_transition hb h).follows ht

/-! ## The phases of COMPRESS after its start -/

/-- The chunk loop and the phases of `ENC.BLOCK`. -/
def Encodes (p : Phase) : Prop := isDecoding p = false ∧ p ≠ .cStart

theorem Encodes.of_follows {p q : Phase} (hp : Encodes p) (h : follows p q = true) : Encodes q := by
  obtain ⟨hdec, hstart⟩ := hp
  revert h
  cases p
  case cStart => exact absurd rfl hstart
  case hDec | dInit | dFetch | dLit | dCopy | dEnd => cases hdec
  case eChunk | bInit | bSearch | bMatch | bCopy | bRemainder =>
    cases q <;> intro h <;> cases h <;> exact ⟨rfl, nofun⟩

/-- How far in its chunk a phase stands. -/
def Phase.cursor (e : EncRegs) : Phase → Nat
  | .bSearch => e.nextS
  | .bMatch | .bCopy => e.s
  | .bRemainder => e.blkLen
  | .eChunk | .bInit | .cStart | .hDec | .dInit | .dFetch | .dLit | .dCopy | .dEnd => 0

/-- Which of the phases at one place of the input comes later: a lower rank. -/
def Phase.rank : Phase → Nat
  | .bSearch | .bRemainder => 3
  | .eChunk | .bMatch => 2
  | .bInit | .bCopy | .cStart | .hDec | .dInit | .dFetch | .dLit | .dCopy | .dEnd => 1

/-- What the encoder has still to do: the input bytes ahead of its place, then the phases left at that place. -/
def State.encoderLeft (s : State) : Nat :=
  4 * (s.srcLen.toNat - (s.enc.inPos + s.phase.cursor s.enc)) + s.phase.rank

section Encoder

variable {s t : State}

theorem Transition.encoderLeft_lt (h : Transition s t) (hi : Inv s) (hb : s.status = .busy)
    (hbt : t.status = .busy) (he : Encodes s.phase) : t.encoderLeft < s.encoderLeft := by
  have hclause : ∀ p, s.phase = p → PhaseClause p s := fun _ => inv_clause hi hb
  obtain ⟨hdec, hstart⟩ := he
  obtain ⟨-, -, hlen, -⟩ := h.sameInputs
  rw [State.encoderLeft, State.encoderLeft, hlen]
  cases h with
  | raiseQuiet | finishQuiet | raise | tokenRaises | decoded | encoded => cases hbt
  | decompressStarts hp | compressStarts hp => exact absurd hp hstart
  | literalRuns hf | copyRuns hf => exact absurd (hdec.symm.trans hf.isDecoding) nofun
  | headerRead hp | bodyStarts hp | bodyEnds hp => exact absurd (hdec.symm.trans (isDecoding_of_eq hp rfl)) nofun
  | @shortChunk n hp hn h1 =>
    rw [hp]
    change 4 * (s.srcLen.toNat - (s.enc.inPos + n + 0)) + 2 < 4 * (s.srcLen.toNat - (s.enc.inPos + 0)) + 2
    omega
  | longChunk hp => rw [hp]; exact Nat.lt_succ_self _
  | blockStarts hp =>
    obtain ⟨hch, -⟩ : ChunkInv s ∧ _ := hclause _ hp
    obtain ⟨hend, -⟩ := chunkInv_bounds hch
    obtain ⟨-, -, h17, -⟩ := hch
    rw [hp]
    change 4 * (s.srcLen.toNat - (s.enc.inPos + 1)) + 3 < 4 * (s.srcLen.toNat - (s.enc.inPos + 0)) + 1
    unfold Config.minNonLiteralBlock at h17
    omega
  | searchEnds hp =>
    obtain ⟨hblk, -, hle, -⟩ : SearchInv s := hclause _ hp
    obtain ⟨hend, -⟩ := chunkInv_bounds hblk.1
    obtain ⟨hlim, -⟩ := blockInv_sLimit_le hblk
    rw [hp]
    change 4 * (s.srcLen.toNat - (s.enc.inPos + s.enc.blkLen)) + 3 <
      4 * (s.srcLen.toNat - (s.enc.inPos + s.enc.nextS)) + 3
    omega
  | miss hp =>
    have hs : SearchInv s := hclause _ hp
    have hstride := searchInv_stride hs
    obtain ⟨hblk, -, hle, -⟩ := hs
    obtain ⟨-, hin⟩ := fp_bounds hblk hle
    rw [hp]
    change 4 * (s.srcLen.toNat - (s.enc.inPos + (s.enc.nextS + s.enc.skip >>> 5))) + 3 <
      4 * (s.srcLen.toNat - (s.enc.inPos + s.enc.nextS)) + 3
    omega
  | hit hp | pending hp => rw [hp]; exact Nat.lt_succ_self _
  | @copyEnds p hp hq =>
    obtain ⟨hblk, ⟨-, hs, -⟩, -⟩ : CopyInv s := hclause _ hp
    obtain ⟨hend, -⟩ := chunkInv_bounds hblk.1
    obtain ⟨hlim, -⟩ := blockInv_sLimit_le hblk
    rw [hp]
    change 4 * (s.srcLen.toNat - (s.enc.inPos + s.enc.blkLen)) + 3 <
      4 * (s.srcLen.toNat - (s.enc.inPos + s.enc.s)) + 1
    omega
  | @rematch p hp hq =>
    obtain ⟨hblk, ⟨-, hs, -⟩, -⟩ : CopyInv s := hclause _ hp
    obtain ⟨-, hin⟩ := fp_bounds hblk hs.le
    rw [hp]
    change 4 * (s.srcLen.toNat - (s.enc.inPos + p)) + 1 < 4 * (s.srcLen.toNat - (s.enc.inPos + s.enc.s)) + 1
    omega
  | @resume p hp hq =>
    obtain ⟨hblk, ⟨-, hs, -⟩, -⟩ : CopyInv s := hclause _ hp
    obtain ⟨-, hin⟩ := fp_bounds hblk hs.le
    rw [hp]
    change 4 * (s.srcLen.toNat - (s.enc.inPos + (p + 1))) + 3 < 4 * (s.srcLen.toNat - (s.enc.inPos + s.enc.s)) + 1
    omega
  | remainder hp | noRemainder hp => rw [hp]; exact Nat.lt_succ_self _

/-- A turn of the chunk loop goes on, or completes the command (R113 to R115). -/
theorem chunkLoop_cases (h : chunkLoop s = .ok t) : WorkFrame s t ∨ t = s.finish s.enc.d := by
  unfold chunkLoop at h
  dsimp only at h
  split at h
  · split at h
    · obtain ⟨u, hu, h⟩ := Except.bind_eq_ok.1 h
      obtain ⟨-, -, rfl⟩ := emitLit_emitted hu
      cases h
      exact .inl (((WorkFrame.refl s).setEnc _).emitted _).nextChunk
    · cases h
      exact .inl (((WorkFrame.refl s).setEnc _).setPhase _)
  · exact .inr (Except.ok.inj h).symm

/-- A step of the encoder goes on, or it is the turn of the chunk loop that completes the command (R115). -/
theorem step_encodes_cases (hb : s.status = .busy) (he : Encodes s.phase) (h : step s = .next t) :
    WorkFrame s t ∨ (s.phase = .eChunk ∧ t = s.finish s.enc.d) := by
  have hinstr : ∀ c, s.work ≠ .instruction c := fun c hw => by
    obtain ⟨hp, -⟩ | ⟨hp, -⟩ | ⟨hp, -⟩ := State.work_instruction hw
    · exact he.2 hp
    · exact absurd (he.1.symm.trans (isDecoding_of_eq hp rfl)) nofun
    · exact absurd (he.1.symm.trans (isDecoding_of_eq hp rfl)) nofun
  obtain ⟨hq, -⟩ | ⟨-, ⟨c, -, hw, -⟩ | ⟨c, -, hw, -⟩ | ⟨r, hw, rfl⟩⟩ := step_cases h
  · exact absurd hb hq
  · exact absurd hw (hinstr c)
  · exact absurd hw (hinstr c)
  obtain ⟨hdec, hstart⟩ := he
  unfold State.work at hw
  cases hp : s.phase <;> rw [hp] at hw hdec hstart
  case cStart => exact absurd rfl hstart
  case hDec | dInit | dFetch | dLit | dCopy | dEnd => cases hdec
  all_goals replace hw := Work.phaseRun.inj hw
  case eChunk => exact (chunkLoop_cases hw).imp_right fun ht => ⟨rfl, ht⟩
  case bInit =>
    obtain ⟨-, rfl⟩ := blockInit_cases hw
    exact .inl (workFrame_blockStarted s)
  case bSearch =>
    obtain ⟨-, rfl⟩ | ⟨-, -, cand, fs, fc, -, -, -, rfl⟩ := blockSearch_cases hw
    · exact .inl (((WorkFrame.refl s).setEnc _).setPhase _)
    · exact .inl ((((WorkFrame.refl s).setHt _).setEnc _).setPhase _)
  case bMatch =>
    obtain ⟨-, rfl⟩ := blockMatch_cases hw
    exact .inl ((workFrame_pendingEmitted s _).setPhase _)
  case bCopy =>
    obtain ⟨p, -, -, ⟨-, rfl⟩ | ⟨-, hr⟩⟩ := blockCopy_cases hw
    · exact .inl ((workFrame_copied s p).setPhase _)
    · obtain ⟨-, rfl⟩ | rfl := blockReinsert_cases hr
      · exact .inl ((workFrame_copied s p).reinserted.setPhase _)
      · exact .inl (workFrame_copied s p).resumed
  case bRemainder =>
    obtain ⟨-, -, rfl⟩ | ⟨-, rfl⟩ := blockRemainder_cases hw
    · exact .inl (workFrame_pendingEmitted s _).nextChunk
    · exact .inl (WorkFrame.refl s).nextChunk

end Encoder

/-! ## COMPRESS ends -/

/-- Where every step of a running command keeps `P` and lowers `m`, the command ends, in a state with `P`. -/
theorem leads_quiescent_of_decreasing {P : State → Prop} (m : State → Nat)
    (hstep : ∀ s, P s → s.status = .busy → ∃ t, step s = .next t ∧ P t ∧ (t.status = .busy → m t < m s))
    {s : State} (hs : P s) : ∃ k t, Leads k s t ∧ P t ∧ Quiescent t := by
  induction hm : m s using Nat.strong_induction_on generalizing s with
  | _ n ih =>
    subst hm
    by_cases hb : s.status = .busy
    · obtain ⟨u, hu, hPu, hlt⟩ := hstep s hs hb
      by_cases hbu : u.status = .busy
      · obtain ⟨k, t, hk, ht⟩ := ih _ (hlt hbu) hPu rfl
        exact ⟨k + 1, t, leads_succ.2 ⟨u, hu, hk⟩, ht⟩
      · exact ⟨1, u, leads_succ.2 ⟨u, hu, rfl⟩, hPu, hbu⟩
    · exact ⟨0, s, rfl, hs, hb⟩

/-- COMPRESS of `n` bytes after its header: the encoder runs, with the header written, or the command has ended with
a result within the bound (R107, R115). -/
structure Compresses (n : Nat) (s : State) : Prop where
  inv : Inv s
  srcLen : s.srcLen.toNat = n
  running : s.status = .busy → Encodes s.phase ∧ 1 ≤ s.enc.d
  ended : Quiescent s →
    s.status = .done ∧ s.err = .noError ∧ 1 ≤ s.outLen.toNat ∧ s.outLen.toNat ≤ Config.bound n

section Compress

variable {s t : State} {n : Nat}

/-- Completion leaves `OUT_LEN = d`, which the chunk loop keeps within the bound (R107, R115). -/
theorem compresses_finish (hc : Compresses n s) (hb : s.status = .busy) (hp : s.phase = .eChunk)
    (h : step s = .next (s.finish s.enc.d)) : Compresses n (s.finish s.enc.d) := by
  obtain ⟨-, h1⟩ := hc.running hb
  obtain ⟨herr, -⟩ := err_outLen_of_busy hc.inv.2.1 hb
  obtain ⟨⟨hcap, -⟩, hin, -, hd⟩ : ChunkLoopInv s := inv_clause hc.inv hb hp
  have hlen := hc.srcLen
  have hbound : s.enc.d ≤ Config.bound n := by unfold Config.bound; omega
  have hout : (s.finish s.enc.d).outLen.toNat = s.enc.d := by
    rw [State.finish_outLen, BitVec.toNat_ofNat,
      Nat.mod_eq_of_lt ((hbound.trans (hlen ▸ hcap)).trans_lt s.dstCap.isLt)]
  exact ⟨step_inv hc.inv h, hlen, nofun, fun _ => ⟨rfl, herr, by omega, by omega⟩⟩

theorem compresses_step (hc : Compresses n s) (hb : s.status = .busy) :
    ∃ t, step s = .next t ∧ Compresses n t ∧ (t.status = .busy → t.encoderLeft < s.encoderLeft) := by
  obtain ⟨he, h1⟩ := hc.running hb
  obtain ⟨t, h⟩ := noStepStops s hc.inv
  refine ⟨t, h, ?_, fun hbt => (step_transition hb h).encoderLeft_lt hc.inv hb hbt he⟩
  obtain hw | ⟨hp, rfl⟩ := step_encodes_cases hb he h
  · have hbt : t.status = .busy := hw.status.trans hb
    obtain ⟨-, -, hlen, -⟩ := hw.inputs
    obtain ⟨-, hgrows⟩ := outputGrowsUpward s t hc.inv hb h hbt
    obtain ⟨hd, -⟩ := hgrows he.1 he.2
    exact ⟨step_inv hc.inv h, by rw [hlen, hc.srcLen],
      fun _ => ⟨he.of_follows (phasesFollowTheRules s t hb h hbt), h1.trans hd⟩, fun hq => absurd hbt hq⟩
  · exact compresses_finish hc hb hp h

/-- The capacity of the bound is the capacity COMPRESS asks for, so it writes its header (R112). -/
theorem execCompress_next (hcap : Config.bound s.srcLen.toNat ≤ s.dstCap.toNat) :
    execCompress s = .next (s.headerEmitted.setPhase .eChunk) := by
  have hmax := s.dstCap.isLt
  have hlen : (hdrEnc s.srcLen.toNat).length ≤ 5 := hdrEnc_length_le _
  unfold Config.bound at hcap
  have hd : ({ s.enc with d := 0 } : EncRegs).d + (hdrEnc s.srcLen.toNat).length ≤ s.dstCap.toNat := by
    show 0 + _ ≤ _
    omega
  rw [execCompress, maxEncodedLength_of_le (by omega)]
  dsimp only
  rw [if_neg (by omega)]
  exact Run.outcome_eq_next.2 (Except.bind_eq_ok.2 ⟨_, State.emit_eq_ok.2 ⟨hd, rfl⟩, rfl⟩)

theorem compresses_headerEmitted (hi : Inv (s.headerEmitted.setPhase .eChunk)) (hb : s.status = .busy) :
    Compresses s.srcLen.toNat (s.headerEmitted.setPhase .eChunk) := by
  have hd : (s.headerEmitted.setPhase .eChunk).enc.d = (hdrEnc s.srcLen.toNat).length := Nat.zero_add _
  obtain ⟨⟨-, -, hlen, -⟩, hstatus⟩ := (workFrame_headerEmitted s).setPhase .eChunk
  exact ⟨hi, by rw [hlen], fun _ => ⟨⟨rfl, nofun⟩, hd ▸ hdrEnc_length_pos _⟩,
    fun hq => absurd (hstatus.trans hb) hq⟩

end Compress

/-- Settles O56: the header is written, and every step of the encoder has less ahead of it than the one before. -/
theorem compressMeetsTheBound : Obligations.CompressMeetsTheBound := by
  unfold Obligations.CompressMeetsTheBound
  intro s hi hq hcap
  obtain ⟨hstart, hexec⟩ := writeCsr_cmd_starts (v := 1) (i := .compress) hq rfl
  have hstep : step (s.writeCsr .cmd 1) = .next ((s.startCommand 1).headerEmitted.setPhase .eChunk) :=
    hexec.trans ((congrArg execCompress hstart).trans (execCompress_next (s := s.startCommand 1) hcap))
  have hc := compresses_headerEmitted (s := s.startCommand 1) (step_inv (inv_writeCsr hi .cmd 1) hstep) rfl
  obtain ⟨k, t, hk, ht, hqt⟩ := leads_quiescent_of_decreasing State.encoderLeft (fun _ => compresses_step) hc
  exact ⟨t, ⟨k + 1, leads_succ.2 ⟨_, hstep, hk⟩, hqt⟩, ht.ended hqt⟩

end Sys2Proof.Machine
end

section
/-! PROOF of O29 and O31 to O37: the phases of `ENC.BLOCK` (R90 to R106), each by what its work answers. -/

namespace Sys2Proof.Machine

open Sys2Proof.Safety Sys2Proof.Claims

/-! ## The table's size (R91) -/

/-- Each doubling happens because the table is smaller than the chunk, and only that or 16384 entries stops them. -/
theorem growTable_smallest {fuel k : Nat} (n : Nat) (hk : k + fuel = 14) :
    ∃ j, k ≤ j ∧ j ≤ 14 ∧ growTable fuel n (2 ^ k, 32 - k) = (2 ^ j, 32 - j) ∧ (n ≤ 2 ^ j ∨ j = 14) ∧
      (j = k ∨ 2 ^ (j - 1) < n) := by
  induction fuel generalizing k with
  | zero => exact ⟨k, le_rfl, hk.le, rfl, .inr hk, .inl rfl⟩
  | succ fuel ih =>
    have hsize : 2 ^ k < Config.maxTableSize := Nat.pow_lt_pow_right (by decide) (by omega : k < 14)
    unfold growTable
    split
    · next hlt =>
      obtain ⟨j, hkj, hj14, hj, hcover, hleast⟩ := ih (k := k + 1) (by omega)
      refine ⟨j, by omega, hj14, by rw [← pow_succ, Nat.sub_sub]; exact hj, hcover, .inr ?_⟩
      obtain rfl | hleast := hleast
      · exact hlt.2
      · exact hleast
    · next hlt => exact ⟨k, le_rfl, by omega, rfl, .inl (not_lt.1 fun hn => hlt ⟨hsize, hn⟩), .inl rfl⟩

/-- Settles O29: six doublings lead from 256 entries to 16384. -/
theorem tableIsSmallestPowerOfTwo : Obligations.TableIsSmallestPowerOfTwo := fun n _ _ =>
  growTable_smallest (fuel := 6) (k := 8) n rfl

/-! ## What a phase leaves -/

/-! ## The fields of the states the phases leave

One equation per field, so that no proof compares two whole states. -/

section Fields

variable (s : State) (bytes : List Byte) (p q : Nat)

@[simp] theorem State.emitted_dst : (s.emitted bytes).dst = Memory.putBytes s.dst s.enc.d bytes := rfl
@[simp] theorem State.emitted_ht : (s.emitted bytes).ht = s.ht := rfl
@[simp] theorem State.emitted_enc : (s.emitted bytes).enc = { s.enc with d := s.enc.d + bytes.length } := rfl
@[simp] theorem State.emitted_dec : (s.emitted bytes).dec = s.dec := rfl

@[simp] theorem State.pendingEmitted_dst :
    (s.pendingEmitted q).dst =
      Memory.putBytes s.dst s.enc.d (literalTag (q - s.enc.nextEmit) ++ chunkBytes s s.enc.nextEmit q) := rfl
@[simp] theorem State.pendingEmitted_ht : (s.pendingEmitted q).ht = s.ht := by simp [State.pendingEmitted]
@[simp] theorem State.pendingEmitted_enc :
    (s.pendingEmitted q).enc =
      { s.enc with
        d := s.enc.d + (literalTag (q - s.enc.nextEmit) ++ chunkBytes s s.enc.nextEmit q).length } := rfl
@[simp] theorem State.pendingEmitted_dec : (s.pendingEmitted q).dec = s.dec := by simp [State.pendingEmitted]

@[simp] theorem State.copied_dst :
    (s.copied p).dst = Memory.putBytes s.dst s.enc.d (copyBytes (s.enc.s - s.enc.candidate) (p - s.enc.s)) := by
  simp [State.copied]
@[simp] theorem State.copied_ht : (s.copied p).ht = s.ht := by simp [State.copied]
@[simp] theorem State.copied_enc :
    (s.copied p).enc =
      { s.enc with
        d := s.enc.d + (copyBytes (s.enc.s - s.enc.candidate) (p - s.enc.s)).length, base := s.enc.s, s := p,
        nextEmit := p } := by
  simp [State.copied]
@[simp] theorem State.copied_dec : (s.copied p).dec = s.dec := by simp [State.copied]

@[simp] theorem State.reinserted_dst : s.reinserted.dst = s.dst := by simp [State.reinserted]
@[simp] theorem State.reinserted_enc : s.reinserted.enc = { s.enc with candidate := s.rematchCandidate } := by
  simp [State.reinserted]
@[simp] theorem State.reinserted_dec : s.reinserted.dec = s.dec := by simp [State.reinserted]

@[simp] theorem State.resumed_dst : s.resumed.dst = s.dst := by simp [State.resumed]
@[simp] theorem State.resumed_ht : s.resumed.ht = s.reinserted.ht := by simp [State.resumed]
@[simp] theorem State.resumed_enc :
    s.resumed.enc =
      { s.enc with
        candidate := s.rematchCandidate, s := s.enc.s + 1, nextS := s.enc.s + 1, skip := 32,
        nextHash := hash s.enc.shift (s.fp (s.enc.s + 1)) } := by
  simp [State.resumed]
@[simp] theorem State.resumed_dec : s.resumed.dec = s.dec := by simp [State.resumed]
@[simp] theorem State.resumed_phase : s.resumed.phase = .bSearch := by simp [State.resumed]

@[simp] theorem State.fp_copied : (s.copied p).fp q = s.fp q := (workFrame_copied s p).fp (by simp) q

end Fields

section Phases

variable {s t : State}

/-- A step in a phase with no instruction is the phase's own work. -/
theorem step_phaseRun {r : Run} (hb : s.status = .busy) (hw : s.work = .phaseRun r) (hr : r = .ok t) :
    step s = .next t := by
  simp only [step, if_pos hb, hw, hr, Run.outcome_ok]

theorem WorkFrame.blockFrame (h : WorkFrame s t) (hdec : t.dec = s.dec) : BlockFrame s t :=
  ⟨h.inputs, h.status, h.err, h.outLen, hdec, h.dstUnspec⟩

/-- A group write at the cursor that moves the cursor past it is an emission. -/
theorem WorkFrame.emits {bytes : List Byte} (h : WorkFrame s t) (hd : t.dst = Memory.putBytes s.dst s.enc.d bytes)
    (hc : t.enc.d = s.enc.d + bytes.length) : Emitted s t bytes := by
  have hfill : Fills s t s.enc.d (s.enc.d + bytes.length) := .of_putBytes hd
  refine ⟨hc, fun k hk => ?_, fun a ha => hfill.dstByte h ha⟩
  rw [State.dstByte, hd, Memory.find_putBytes, dif_pos ⟨by omega, by omega⟩, Option.getD_some]
  simp only [Nat.add_sub_cancel_left]

/-! ## `B_INIT` (R91 to R95) -/

theorem blockInit_eq (h17 : 17 ≤ s.enc.blkLen) (hmax : s.enc.blkLen ≤ 65536)
    (hend : s.enc.inPos + s.enc.blkLen ≤ s.srcLen.toNat) : blockInit s = .ok s.blockStarted := by
  have hdomain : ¬(s.enc.blkLen < Config.minNonLiteralBlock ∨ s.enc.blkLen > Config.maxBlockSize) := by
    unfold Config.minNonLiteralBlock Config.maxBlockSize
    omega
  have hfp : 1 + 4 ≤ s.enc.blkLen ∧ s.enc.inPos + 1 + 4 ≤ s.srcLen.toNat := by omega
  exact (if_neg hdomain).trans (Except.bind_eq_ok.2 ⟨_, State.hashAt_eq_ok.2 ⟨hfp, rfl⟩, rfl⟩)

/-! ## `B_COPY` (R99 to R102) -/

/-- The match of the bytes at `i` with those at `p` ends at `q`, and is as long as the chunk allows (R99). -/
structure LongestMatch (s : State) (i p q : Nat) : Prop where
  le : p ≤ q
  inChunk : q ≤ s.enc.blkLen
  agrees : ∀ k < q - p, s.chunkByte (i + k) = s.chunkByte (p + k)
  stops : q = s.enc.blkLen ∨ s.chunkByte (i + (q - p)) ≠ s.chunkByte q

theorem LongestMatch.of_succ {i p q : Nat} (h : LongestMatch s (i + 1) (p + 1) q)
    (he : s.chunkByte i = s.chunkByte p) : LongestMatch s i p q := by
  have hle := h.le
  refine ⟨by omega, h.inChunk, fun k hk => ?_, ?_⟩
  · cases k with
    | zero => exact he
    | succ k =>
      have hk := h.agrees k (by omega)
      rwa [Nat.add_right_comm i, Nat.add_right_comm p] at hk
  · have hstops := h.stops
    rwa [show i + 1 + (q - (p + 1)) = i + (q - p) by omega] at hstops

/-- The loop of R99 finds the longest match, if its fuel reaches to the end of the chunk. -/
theorem State.extendMatch_longest {fuel i p q : Nat} (h : s.extendMatch fuel i p = .ok q)
    (hfuel : s.enc.blkLen ≤ p + fuel) (hp : p ≤ s.enc.blkLen) : LongestMatch s i p q := by
  have hnone : ∀ k < p - p, s.chunkByte (i + k) = s.chunkByte (p + k) := fun k hk => by omega
  induction fuel generalizing i p with
  | zero => cases h; exact ⟨le_rfl, hp, hnone, .inl (by omega)⟩
  | succ fuel ih =>
    unfold State.extendMatch at h
    split at h
    · next hlt =>
      obtain ⟨x, hx, h⟩ := Except.bind_eq_ok.1 h
      obtain ⟨y, hy, h⟩ := Except.bind_eq_ok.1 h
      obtain ⟨-, rfl⟩ := State.readChunk_eq_ok.1 hx
      obtain ⟨-, rfl⟩ := State.readChunk_eq_ok.1 hy
      split at h
      · next he => exact (ih h (by omega) hlt (fun k hk => by omega)).of_succ he
      · next he => cases h; exact ⟨le_rfl, hp, hnone, .inr (by rwa [Nat.sub_self])⟩
    · cases h; exact ⟨le_rfl, hp, hnone, .inl (by omega)⟩

/-- Equal fingerprints are four equal bytes (R32, R97). -/
theorem chunkByte_eq_of_fp_eq {p q k : Nat} (h : s.fp p = s.fp q) (hk : k < 4) :
    s.chunkByte (p + k) = s.chunkByte (q + k) := by
  obtain ⟨hbytes, -⟩ := hashIndexesTheTable
  have hsum : (s.fp p).toNat = (s.fp q).toNat := congrArg _ h
  rw [hbytes, hbytes] at hsum
  have hlt : ∀ x, (s.chunkByte x).toNat < 256 := fun x => (s.chunkByte x).isLt
  have hltp : (s.chunkByte p).toNat < 256 ∧ _ ∧ _ := ⟨hlt p, hlt (p + 1), hlt (p + 2)⟩
  have hltq : (s.chunkByte q).toNat < 256 ∧ _ ∧ _ := ⟨hlt q, hlt (q + 1), hlt (q + 2)⟩
  refine BitVec.eq_of_toNat_eq ?_
  match k, hk with
  | 0, _ => rw [Nat.add_zero, Nat.add_zero]; omega
  | 1, _ | 2, _ | 3, _ => omega

/-- A verified match that is extended from its fifth byte on is the longest from its first (R97, R99). -/
theorem LongestMatch.of_fp_eq {i p q : Nat} (h : LongestMatch s (i + 4) (p + 4) q) (he : s.fp i = s.fp p) :
    LongestMatch s i p q := by
  have h4 := fun k (hk : k < 4) => chunkByte_eq_of_fp_eq he hk
  exact (((h.of_succ (h4 3 (by decide))).of_succ (h4 2 (by decide))).of_succ (h4 1 (by decide))).of_succ
    (h4 0 (by decide))

/-- Re-insertion reads the entry at `s` after it has written `s - 1` (R102, R41). -/
theorem rematchCandidate_eq (h16 : s.enc.s ≤ 65536) (h1 : 1 ≤ s.enc.s) {prev curr : Nat}
    (hprev : prev = hash s.enc.shift (s.fp (s.enc.s - 1))) (hcurr : curr = hash s.enc.shift (s.fp s.enc.s)) :
    s.rematchCandidate = if prev = curr then s.enc.s - 1 else (Table.entry s.ht curr).toNat := by
  rw [State.rematchCandidate, State.firstInserted, State.setHt_ht, Table.entry_put, ← hprev, ← hcurr]
  by_cases he : prev = curr
  · rw [if_pos he.symm, if_pos he, BitVec.toNat_ofNat, Nat.mod_eq_of_lt (by omega)]
  · rw [if_neg (Ne.symm he), if_neg he]

/-- Both positions are inserted, the later one last (R102). -/
theorem entry_reinserted {prev curr : Nat} (hprev : prev = hash s.enc.shift (s.fp (s.enc.s - 1)))
    (hcurr : curr = hash s.enc.shift (s.fp s.enc.s)) (i : Nat) :
    Table.entry s.reinserted.ht i =
      if i = curr then BitVec.ofNat 16 s.enc.s
      else if i = prev then BitVec.ofNat 16 (s.enc.s - 1) else Table.entry s.ht i := by
  rw [State.reinserted, State.setEnc_ht, State.setHt_ht, Table.entry_put, State.firstInserted, State.setHt_ht,
    Table.entry_put, ← hprev, ← hcurr]

theorem blockReinsert_eq (hi : BlockInv s) (ht : TableBelow s s.enc.s) (h1 : 1 ≤ s.enc.s)
    (hl : s.enc.s < s.enc.sLimit) :
    blockReinsert s = .ok (if s.fp s.enc.s = s.fp s.rematchCandidate then s.reinserted.setPhase .bCopy
      else s.resumed) := by
  have hidx : ∀ u, hash s.enc.shift u < Config.maxTableSize := blockInv_hash_lt hi
  have hcand : s.rematchCandidate < s.enc.s := by
    obtain ⟨-, hgeo, -⟩ := id hi
    exact (tableBelow_reinserted ht h1).1.entry_lt (hash_lt_tableSize hgeo _).1 h1
  refine Except.bind_eq_ok.2 ⟨_, State.hashAt_eq_ok.2 ⟨fp_bounds hi (by omega), rfl⟩, ?_⟩
  refine Except.bind_eq_ok.2 ⟨_, State.writeHt_eq_ok.2 ⟨hidx _, rfl⟩, ?_⟩
  refine Except.bind_eq_ok.2 ⟨_, State.hashAt_eq_ok.2 ⟨fp_bounds hi hl.le, rfl⟩, ?_⟩
  refine Except.bind_eq_ok.2 ⟨_, State.readHt_eq_ok.2 ⟨hidx _, rfl⟩, ?_⟩
  refine Except.bind_eq_ok.2 ⟨_, State.writeHt_eq_ok.2 ⟨hidx _, rfl⟩, ?_⟩
  refine Except.bind_eq_ok.2 ⟨_, State.fingerprint_eq_ok.2 ⟨fp_bounds hi hl.le, rfl⟩, ?_⟩
  refine Except.bind_eq_ok.2 ⟨_, State.fingerprint_eq_ok.2 ⟨fp_bounds hi (hcand.trans hl).le, rfl⟩, ?_⟩
  by_cases he : s.fp s.enc.s = s.fp s.rematchCandidate
  · rw [if_pos he]
    exact if_pos he
  · rw [if_neg he]
    exact (if_neg he).trans (Except.bind_eq_ok.2 ⟨_, State.hashAt_eq_ok.2 ⟨fp_bounds hi hl, rfl⟩, rfl⟩)

/-- The bytes of a match repeat the chunk at the distance of its two positions (R99, R131). -/
theorem LongestMatch.repeats {i p q : Nat} (h : LongestMatch s i p q) (hip : i ≤ p) :
    (∀ k, p ≤ k → k < q → s.chunkByte k = s.chunkByte (k - (p - i))) ∧
      (q = s.enc.blkLen ∨ s.chunkByte q ≠ s.chunkByte (q - (p - i))) := by
  obtain ⟨hle, -, hagrees, hstops⟩ := h
  refine ⟨fun k hk hkq => ?_, hstops.imp_right fun hne he => hne ?_⟩
  · have hk := hagrees (k - p) (by omega)
    rw [show p + (k - p) = k by omega, show i + (k - p) = k - (p - i) by omega] at hk
    exact hk.symm
  · rw [show i + (q - p) = q - (p - i) by omega]
    exact he.symm

/-- What the copy phase leaves: the longest match copied, then the block ended or both positions re-inserted
(R99 to R102). -/
theorem blockCopy_longest (hi : CopyInv s) (h : blockCopy s = .ok t) :
    ∃ p, s.enc.s + 4 ≤ p ∧ LongestMatch s s.enc.candidate s.enc.s p ∧
      ((s.enc.sLimit ≤ p ∧ t = (s.copied p).setPhase .bRemainder) ∨
       (p < s.enc.sLimit ∧
        t = if s.fp p = s.fp (s.copied p).rematchCandidate then (s.copied p).reinserted.setPhase .bCopy
          else (s.copied p).resumed)) := by
  obtain ⟨hblk, ⟨-, hs, hfp, ht⟩, -, -⟩ := hi
  have hlim := blockInv_sLimit_le hblk
  obtain ⟨p, hp, h⟩ := Except.bind_eq_ok.1 h
  obtain ⟨u, hu, h⟩ := Except.bind_eq_ok.1 h
  obtain ⟨-, hemit⟩ := emitCopy_eq_ok.1 hu
  obtain ⟨-, rfl⟩ := State.emit_eq_emitted hemit
  have hlong := State.extendMatch_longest hp (by omega) (by omega)
  refine ⟨p, hlong.le, hlong.of_fp_eq hfp.symm, ?_⟩
  split at h
  · next hl => exact .inl ⟨hl, (Except.ok.inj h).symm⟩
  · next hl =>
    have h4 := hlong.le
    have hbelow : TableBelow (s.copied p) p := Table.Below.mono ht (by omega)
    have heq := blockReinsert_eq (blockInv_copied hblk p) hbelow (by show 1 ≤ p; omega) (not_le.1 hl)
    simp only [(workFrame_copied s p).fp rfl] at heq
    exact .inr ⟨not_le.1 hl, Except.ok.inj (h.symm.trans heq)⟩

/-- Candidate and table of R102 after a copy, in the terms of the state before it. -/
theorem reinserted_copied_table {p prev curr cand : Nat} (hi : CopyInv s) (hl : p < s.enc.sLimit)
    (h4 : s.enc.s + 4 ≤ p) (hprev : prev = hash s.enc.shift (s.fp (p - 1))) (hcurr : curr = hash s.enc.shift (s.fp p))
    (hcand : cand = if prev = curr then p - 1 else (Table.entry s.ht curr).toNat) :
    cand = (s.copied p).rematchCandidate ∧ ∀ i, Table.entry (s.copied p).reinserted.ht i =
      if i = curr then BitVec.ofNat 16 p
      else if i = prev then BitVec.ofNat 16 (p - 1) else Table.entry s.ht i := by
  have hlim := blockInv_sLimit_le hi.1
  have hcandidate := rematchCandidate_eq (s := s.copied p) (prev := prev) (curr := curr)
  have hentry := entry_reinserted (s := s.copied p) (prev := prev) (curr := curr)
  simp only [State.copied_enc, State.copied_ht, State.fp_copied] at hcandidate hentry
  exact ⟨hcand.trans (hcandidate (by omega) (by omega) hprev hcurr).symm, hentry hprev hcurr⟩

end Phases

/-! ## The obligations -/

/-- Settles O31: the domain test and the first hash are inside the chunk. -/
theorem blockStartsWithAClearTable : Obligations.BlockStartsWithAClearTable := by
  unfold Obligations.BlockStartsWithAClearTable
  intro s hb hp h17 hmax hend
  exact ⟨s.blockStarted, step_phaseRun hb (by simp only [State.work, hp]) (blockInit_eq h17 hmax hend), rfl, rfl,
    Table.entry_clear s.ht _, (workFrame_blockStarted s).blockFrame rfl, rfl⟩

/-- Settles O32: the probe's two cases, by the limit. -/
theorem probeReadsThenOverwrites : Obligations.ProbeReadsThenOverwrites := by
  unfold Obligations.ProbeReadsThenOverwrites
  intro s hb hp hi
  obtain ⟨t, ht⟩ := blockSearch_answers hi
  have hstep : step s = .next t := step_phaseRun hb (by simp only [State.work, hp]) ht
  have hcases := blockSearch_cases ht
  rw [show s.enc.skip >>> 5 = s.enc.skip / 32 from Nat.shiftRight_eq_div_pow _ _] at hcases
  obtain ⟨hgt, rfl⟩ | ⟨hle, -, cand, fs, fc, rfl, rfl, rfl, rfl⟩ := hcases
  · exact ⟨fun _ => ⟨_, hstep, rfl, rfl, rfl, (((WorkFrame.refl s).setEnc _).setPhase _).blockFrame rfl, rfl⟩,
      fun hle => absurd hgt (not_lt.2 hle)⟩
  · refine ⟨fun hgt => absurd hgt (not_lt.2 hle), fun _ => ⟨_, hstep, rfl,
      ((((WorkFrame.refl s).setHt _).setEnc _).setPhase _).blockFrame rfl, rfl,
      fun i => Table.entry_put s.ht _ i _, ?_, ?_⟩⟩
    · exact ite_eq_or_eq _ _ _
    · rw [State.setPhase_phase]
      split
      · next he => exact iff_of_true rfl he
      · next he => exact iff_of_false nofun he

/-- Settles O33: the literal of the bytes before the match. -/
theorem matchEmitsThePendingLiteral : Obligations.MatchEmitsThePendingLiteral := by
  unfold Obligations.MatchEmitsThePendingLiteral
  intro s hb hp hi
  obtain ⟨t, ht⟩ := blockMatch_answers hi
  obtain ⟨-, -, hlt, -⟩ := hi
  have hstep : step s = .next t := step_phaseRun hb (by simp only [State.work, hp]) ht
  obtain ⟨-, rfl⟩ := blockMatch_cases ht
  have hw := (workFrame_pendingEmitted s s.enc.s).setPhase .bCopy
  exact ⟨_, hstep, rfl, hlt, hw.emits (by simp) (by simp), by simp, by simp, hw.blockFrame (by simp)⟩

/-- Settles O34: the literal of the pending bytes, or nothing. -/
theorem remainderIsTheLastLiteral : Obligations.RemainderIsTheLastLiteral := by
  unfold Obligations.RemainderIsTheLastLiteral
  intro s hb hp hi
  obtain ⟨t, ht⟩ := blockRemainder_answers hi
  have hstep : step s = .next t := step_phaseRun hb (by simp only [State.work, hp]) ht
  refine ⟨t, hstep, ?_⟩
  obtain ⟨hn, -, rfl⟩ | ⟨hn, rfl⟩ := blockRemainder_cases ht
  · have hw := (workFrame_pendingEmitted s s.enc.blkLen).nextChunk
    rw [if_pos hn]
    exact ⟨rfl, hw.emits (by simp) (by simp), by simp, by simp, hw.blockFrame (by simp)⟩
  · have hw := (WorkFrame.refl s).nextChunk
    rw [if_neg (not_lt.2 hn)]
    exact ⟨rfl, hw.emits rfl rfl, rfl, rfl, hw.blockFrame rfl⟩

/-- Settles O35: the loop answers, with the longest match. -/
theorem matchIsExtendedMaximally : Obligations.MatchIsExtendedMaximally := by
  unfold Obligations.MatchIsExtendedMaximally
  intro s i p hip hp hend
  obtain ⟨q, hq⟩ := State.extendMatch_answers hend hip (s.enc.blkLen - p)
  obtain ⟨hle, hmax, hagree, hstop⟩ := State.extendMatch_longest hq (by omega) hp
  exact ⟨q, hq, hle, hmax, hagree, hstop⟩

/-- Settles O37: the candidate and the table after both insertions, and the two outcomes of the comparison. -/
theorem reinsertionReadsAfterItsWrite : Obligations.ReinsertionReadsAfterItsWrite := by
  unfold Obligations.ReinsertionReadsAfterItsWrite
  rintro s prev curr cand hi ht h1 hl hprev hcurr hcand
  have hlim := blockInv_sLimit_le hi
  rw [← rematchCandidate_eq (by omega) h1 hprev hcurr] at hcand
  subst hcand
  rw [blockReinsert_eq hi ht h1 hl]
  have hentry := entry_reinserted hprev hcurr
  by_cases he : s.fp s.enc.s = s.fp s.rematchCandidate
  · rw [if_pos he]
    exact ⟨s.reinserted.setPhase .bCopy, rfl, by simp, hentry, (if_pos he).mpr (by simp), by simp,
      ((WorkFrame.refl s).reinserted.setPhase _).blockFrame (by simp)⟩
  · rw [if_neg he]
    exact ⟨s.resumed, rfl, by simp, by simpa using hentry, (if_neg he).mpr (by simp), by simp,
      (WorkFrame.refl s).resumed.blockFrame (by simp)⟩

/-- Settles O36: the longest match from its first byte, its copy, and past it either the end of the block or R102. -/
theorem copyPhaseEmitsTheMatch : Obligations.CopyPhaseEmitsTheMatch := by
  unfold Obligations.CopyPhaseEmitsTheMatch
  intro s hb hp hi
  obtain ⟨t, ht⟩ := blockCopy_answers hi
  have hstep : step s = .next t := step_phaseRun hb (by simp only [State.work, hp]) ht
  obtain ⟨p, h4, hlong, hcases⟩ := blockCopy_longest hi ht
  obtain ⟨-, ⟨hcand, -⟩, -⟩ := id hi
  obtain ⟨hagrees, hstops⟩ := hlong.repeats hcand.le
  refine ⟨p, t, hstep, h4, hlong.inChunk, hagrees, hstops, ?_⟩
  obtain ⟨hl, rfl⟩ | ⟨hl, rfl⟩ := hcases
  · have hw := (workFrame_copied s p).setPhase .bRemainder
    exact ⟨hw.emits (by simp) (by simp), by simp, by simp, hw.blockFrame (by simp), fun _ => by simp,
      fun hlt => absurd hl (not_le.2 hlt)⟩
  by_cases he : s.fp p = s.fp (s.copied p).rematchCandidate
  · have hw := (workFrame_copied s p).reinserted.setPhase .bCopy
    rw [if_pos he]
    refine ⟨hw.emits (by simp) (by simp), by simp, by simp, hw.blockFrame (by simp),
      fun hle => absurd hl (not_lt.2 hle), fun _ prev curr cand hprev hcurr hcand => ?_⟩
    obtain ⟨rfl, hentry⟩ := reinserted_copied_table hi hl h4 hprev hcurr hcand
    exact ⟨hentry, (if_pos he).mpr (by simp)⟩
  · have hw := (workFrame_copied s p).resumed
    rw [if_neg he]
    refine ⟨hw.emits (by simp) (by simp), by simp, by simp, hw.blockFrame (by simp),
      fun hle => absurd hl (not_lt.2 hle), fun _ prev curr cand hprev hcurr hcand => ?_⟩
    obtain ⟨rfl, hentry⟩ := reinserted_copied_table hi hl h4 hprev hcurr hcand
    exact ⟨by simpa using hentry, (if_neg he).mpr (by simp)⟩

end Sys2Proof.Machine
end

section
/-! PROOF of O21, O23 to O25 and O57: the worst-case bound, the start of COMPRESS, the chunk loop, and the inputs that
are one short chunk (R110 to R116). -/

namespace Sys2Proof.Machine

open Sys2Proof.Safety Sys2Proof.Claims

/-! ## `maxEncodedLength` (R110) -/

theorem maxEncodedLength_eq_some_iff {n b : Nat} :
    maxEncodedLength n = some b ↔ n ≤ 3681400511 ∧ b = 32 + n + n / 6 := by
  by_cases h : n ≤ 3681400511
  · rw [maxEncodedLength_of_le h, Option.some_inj]
    exact ⟨fun hb => ⟨h, hb.symm⟩, fun ⟨_, hb⟩ => hb.symm⟩
  · rw [maxEncodedLength_of_gt (Nat.not_le.1 h)]
    exact ⟨nofun, fun ⟨hle, _⟩ => absurd hle h⟩

/-- Settles O21: the bound of the largest length that has one is below 2^32, that of the next is not. -/
theorem worstCaseBound : Obligations.WorstCaseBound := by
  refine ⟨fun _ _ => maxEncodedLength_eq_some_iff, fun n b h => ?_, ?_⟩
  · obtain ⟨hn, rfl⟩ := maxEncodedLength_eq_some_iff.1 h
    omega
  · simp only [maxEncodedLength_eq_some_iff]
    exact ⟨by decide, maxEncodedLength_of_gt (by decide), by decide, by decide, by decide, by decide, by decide,
      by decide⟩

section Start

variable {s : State}

/-! ## The start of COMPRESS (R112) -/

theorem execCompress_inputTooLarge (h : 3681400511 < s.srcLen.toNat) :
    execCompress s = .next (s.raise .inputTooLarge) := by
  rw [execCompress, maxEncodedLength_of_gt h]

theorem execCompress_dstTooSmall (h : s.srcLen.toNat ≤ 3681400511)
    (hcap : s.dstCap.toNat < 32 + s.srcLen.toNat + s.srcLen.toNat / 6) :
    execCompress s = .next (s.raise .dstTooSmall) := by
  rw [execCompress, maxEncodedLength_of_le h]
  exact if_pos hcap

/-- The header is an emission at the start of `DST`. -/
theorem emitted_headerEmitted (s : State) :
    Emitted (s.setEnc { s.enc with d := 0 }) (s.headerEmitted.setPhase .eChunk) (hdrEnc s.srcLen.toNat) :=
  ((((WorkFrame.refl _).emitted _).setEnc _).setPhase _).emits rfl rfl

@[simp] theorem State.headerEmitted_enc (s : State) :
    s.headerEmitted.enc = { s.enc with d := (hdrEnc s.srcLen.toNat).length, inPos := 0 } := by
  simp [State.headerEmitted]
@[simp] theorem State.headerEmitted_ht (s : State) : s.headerEmitted.ht = s.ht := by simp [State.headerEmitted]
@[simp] theorem State.headerEmitted_dec (s : State) : s.headerEmitted.dec = s.dec := by simp [State.headerEmitted]

/-- The step after COMPRESS was written to `CMD`, where the capacity is that of the bound. -/
theorem step_compress (hq : Quiescent s) (hcap : 32 + s.srcLen.toNat + s.srcLen.toNat / 6 ≤ s.dstCap.toNat) :
    step (s.writeCsr .cmd 1) = .next ((s.startCommand 1).headerEmitted.setPhase .eChunk) := by
  obtain ⟨hstart, hexec⟩ := writeCsr_cmd_starts (v := 1) (i := .compress) hq rfl
  exact hexec.trans ((congrArg execCompress hstart).trans (execCompress_next (s := s.startCommand 1) hcap))

/-! ## The chunk loop (R113 to R115) -/

theorem chunkLoop_long (h17 : 17 ≤ s.srcLen.toNat - s.enc.inPos) :
    chunkLoop s =
      .ok ((s.withChunk (min (s.srcLen.toNat - s.enc.inPos) Config.maxBlockSize)).setPhase .bInit) := by
  have hmin : ¬min (s.srcLen.toNat - s.enc.inPos) Config.maxBlockSize < Config.minNonLiteralBlock := by
    unfold Config.maxBlockSize Config.minNonLiteralBlock
    omega
  exact (if_pos (by omega)).trans (if_neg hmin)

theorem chunkLoop_short {n : Nat} (hi : ChunkLoopInv s) (hn : n = s.srcLen.toNat - s.enc.inPos) (h1 : 1 ≤ n)
    (h17 : n < 17) : chunkLoop s = .ok (s.shortEmitted n).nextChunk := by
  obtain ⟨u, hu⟩ := emitLit_short_answers hi hn h1 h17
  have hmin : min (s.srcLen.toNat - s.enc.inPos) Config.maxBlockSize = n := by
    unfold Config.maxBlockSize
    omega
  have hturn : chunkLoop s = (emitLit s.enc.inPos n (s.withChunk n) >>= fun t => .ok t.nextChunk) := by
    unfold chunkLoop
    rw [if_pos (by omega), hmin]
    exact if_pos h17
  obtain ⟨-, -, rfl⟩ := emitLit_emitted hu
  rw [hturn, hu]
  rfl

@[simp] theorem State.shortEmitted_enc (s : State) (n : Nat) :
    (s.shortEmitted n).enc = { s.enc with d := s.enc.d + ((literalTag n).length + n), blkLen := n } := by
  simp [State.shortEmitted, State.withChunk]
@[simp] theorem State.shortEmitted_ht (s : State) (n : Nat) : (s.shortEmitted n).ht = s.ht := by
  simp [State.shortEmitted, State.withChunk]
@[simp] theorem State.shortEmitted_dec (s : State) (n : Nat) : (s.shortEmitted n).dec = s.dec := by
  simp [State.shortEmitted, State.withChunk]

/-- A short chunk is emitted as a literal of its bytes (R114). -/
theorem emitted_shortEmitted (s : State) (n : Nat) :
    Emitted s (s.shortEmitted n).nextChunk (literalTag n ++ s.srcBytes s.enc.inPos n) := by
  rw [← s.srcBytes_congr (s.withChunk n) rfl rfl]
  exact (workFrame_shortEmitted s n).nextChunk.emits rfl rfl

theorem chunkLoop_end (h : s.srcLen.toNat ≤ s.enc.inPos) : chunkLoop s = .ok (s.finish s.enc.d) :=
  if_neg (Nat.not_lt.2 h)

theorem step_chunkLoop {t : State} (hb : s.status = .busy) (hp : s.phase = .eChunk) (h : chunkLoop s = .ok t) :
    step s = .next t :=
  step_phaseRun hb (by simp only [State.work, hp]) h

/-- A literal of up to 60 bytes has its length in the tag (R53, R80). -/
theorem literalTag_eq_singleton {n : Nat} (h : n ≤ 60) (h1 : 1 ≤ n) :
    literalTag n = [BitVec.ofNat 8 (4 * (n - 1))] := by
  rw [literalTag, if_pos (by omega), Nat.shiftLeft_eq, Nat.mul_comm]

end Start

/-- Settles O24: the two tests of R112, in their order. -/
theorem compressTestsSizeThenCapacity : Obligations.CompressTestsSizeThenCapacity := fun s =>
  ⟨fun h => ⟨_, execCompress_inputTooLarge h, raised_raise s .inputTooLarge, rfl⟩,
    fun h hcap => ⟨_, execCompress_dstTooSmall h hcap, raised_raise s .dstTooSmall, rfl⟩⟩

/-- Settles O23: an emission at cursor 0. -/
theorem compressWritesTheHeader : Obligations.CompressWritesTheHeader := by
  unfold Obligations.CompressWritesTheHeader
  intro s hcap
  obtain ⟨-, hin, hout⟩ := emitted_headerEmitted s
  obtain ⟨hinputs, hstatus, herr, houtLen, hunspec⟩ := (workFrame_headerEmitted s).setPhase .eChunk
  refine ⟨_, execCompress_next hcap, s.headerEmitted_enc, s.headerEmitted.setPhase_phase _, fun k hk => ?_,
    fun a ha => ?_, hinputs, hstatus, herr, houtLen, s.headerEmitted_ht, s.headerEmitted_dec, hunspec⟩
  · rw [← hin k hk, State.setEnc_enc, Nat.zero_add]
  · exact hout a (.inr ((Nat.zero_add _).trans_le ha))

/-- Settles O25: the three turns of the loop. -/
theorem chunkLoopTurn : Obligations.ChunkLoopTurn := by
  unfold Obligations.ChunkLoopTurn
  intro s hb hp hi
  refine ⟨fun _ h17 => step_chunkLoop hb hp (chunkLoop_long h17), fun n hn h1 h17 => ?_, fun hend => ?_⟩
  · have hemit := emitted_shortEmitted s n
    rw [literalTag_eq_singleton (by omega) h1] at hemit
    refine ⟨_, step_chunkLoop hb hp (chunkLoop_short hi hn h1 h17), State.nextChunk_phase _, ?_, by simp, hemit,
      (workFrame_shortEmitted s n).nextChunk.blockFrame (by simp), by simp⟩
    rw [State.nextChunk_enc, State.shortEmitted_enc]
    show s.enc.inPos + n = s.srcLen.toNat
    omega
  · exact ⟨_, step_chunkLoop hb hp (chunkLoop_end hend.ge), rfl, rfl, rfl, ⟨rfl, rfl, rfl, rfl, rfl, rfl⟩, rfl, rfl,
      rfl, s.dstByte_finish s.enc.d⟩

/-! ## Inputs of one short chunk (R114, R116) -/

/-- A command's first step, and the run that follows it to the end. -/
theorem commandEnds_of_step {s t u : State} {v : Word} {k : Nat} (h : step (s.writeCsr .cmd v) = .next t)
    (hk : Leads k t u) (hq : Quiescent u) : CommandEnds v s u :=
  ⟨k + 1, leads_succ.2 ⟨t, h, hk⟩, hq⟩

/-- At the end of the input one step completes the command, the output as it is (R115). -/
theorem leads_done {s : State} (hb : s.status = .busy) (hp : s.phase = .eChunk) (h : s.srcLen.toNat ≤ s.enc.inPos) :
    Leads 1 s (s.finish s.enc.d) :=
  leads_succ.2 ⟨_, step_chunkLoop hb hp (chunkLoop_end h), rfl⟩

/-- Settles O57: the header, for 1 to 16 bytes one turn that emits them, and the turn that completes. -/
theorem shortInputsAreOneLiteral : Obligations.ShortInputsAreOneLiteral := by
  unfold Obligations.ShortInputsAreOneLiteral
  rintro s n hq rfl h16 hcap
  have hstart := step_compress hq hcap
  have hloop := chunkLoopInv_headerEmitted (s := s.startCommand 1) hcap
  have hhdr : hdrEnc s.srcLen.toNat = [BitVec.ofNat 8 s.srcLen.toNat] := headerBytes_of_lt (by omega)
  obtain ⟨t, ht, henc, hp, hin, -, ⟨-, -, hlen, -, hsrc, hresets⟩, hb, -⟩ :=
    compressWritesTheHeader (s.startCommand 1) hcap
  cases (execCompress_next (s := s.startCommand 1) hcap).symm.trans ht
  generalize (s.startCommand 1).headerEmitted.setPhase .eChunk = t at *
  simp only [State.startCommand_srcLen, hhdr] at henc hin hlen
  have hpos : t.enc.inPos = 0 := congrArg EncRegs.inPos henc
  have hd : t.enc.d = 1 := congrArg EncRegs.d henc
  have h0 : t.dstByte 0 = BitVec.ofNat 8 s.srcLen.toNat := hin 0 Nat.one_pos
  by_cases hn : s.srcLen.toNat = 0
  · have hdone := leads_done hb hp (by rw [hlen, hn]; exact Nat.zero_le _)
    refine ⟨_, commandEnds_of_step hstart hdone nofun, rfl, ?_, fun _ => ?_, fun h1 => by omega⟩
    · rw [State.dstByte_finish _ _ _ (.inl (by omega)), h0]
    · rw [State.finish_outLen, hd]
      rfl
  · obtain ⟨-, hturn, -⟩ := chunkLoopTurn t hb hp hloop
    obtain ⟨u, hu, hpu, hend, -, ⟨hdu, hbytes, hkeep⟩, ⟨⟨-, -, hlenu, -⟩, hbu, -⟩, -⟩ :=
      hturn s.srcLen.toNat (by rw [hlen, hpos, Nat.sub_zero]) (by omega) (by omega)
    have hdone := leads_done (hbu.trans hb) hpu (by rw [hlenu, hend])
    rw [hd, List.length_cons, State.srcBytes_length] at hdu
    rw [hd, hpos] at hbytes
    refine ⟨_, commandEnds_of_step hstart (leads_succ.2 ⟨u, hu, hdone⟩) nofun, rfl, ?_, fun h => absurd h hn,
      fun _ => ⟨?_, ?_, fun k hk => ?_⟩⟩
    · rw [State.dstByte_finish _ _ _ (.inl (by omega)), hkeep 0 (.inl (by omega)), h0]
    · rw [State.finish_outLen, BitVec.toNat_ofNat, hdu]
      omega
    · rw [State.dstByte_finish _ _ _ (.inl (by omega))]
      exact hbytes 0 (by simp)
    · have hbyte := hbytes (k + 1) (by simpa using hk)
      rw [List.getElem_cons_succ, State.getElem_srcBytes, Nat.zero_add, Nat.add_comm k, ← Nat.add_assoc] at hbyte
      rw [State.dstByte_finish _ _ _ (.inl (by omega)), hbyte]
      simp only [State.srcByte, hsrc, hresets]
      rfl

end Sys2Proof.Machine
end

section
/-! PROOF of O58, the layer about bytes: `StreamOf` says which streams stand for an input, and each emission of the
encoder (R80, R81) extends such a stream. -/

namespace Sys2Proof.Machine

open Sys2Proof.Safety Sys2Proof.Claims

/-! ## Bytes at a place -/

/-- The bytes of `f` from `a` on begin with `bytes`. -/
def HoldsAt (f : Nat → Byte) (a : Nat) (bytes : List Byte) : Prop :=
  ∀ k, (h : k < bytes.length) → f (a + k) = bytes[k]

section Bytes

variable {f g : Nat → Byte} {a : Nat} {bytes : List Byte}

theorem HoldsAt.congr (h : HoldsAt f a bytes) (hg : ∀ x < a + bytes.length, g x = f x) : HoldsAt g a bytes :=
  fun k hk => (hg _ (by omega)).trans (h k hk)

theorem holdsAt_append {rest : List Byte} :
    HoldsAt f a (bytes ++ rest) ↔ HoldsAt f a bytes ∧ HoldsAt f (a + bytes.length) rest := by
  constructor
  · intro h
    refine ⟨fun k hk => ?_, fun k hk => ?_⟩
    · rw [h k (by rw [List.length_append]; omega), List.getElem_append_left hk]
    · rw [Nat.add_assoc, h (bytes.length + k) (by rw [List.length_append]; omega)]
      simp
  · rintro ⟨hl, hr⟩ k hk
    rw [List.length_append] at hk
    by_cases hlt : k < bytes.length
    · rw [List.getElem_append_left hlt, hl k hlt]
    · rw [List.getElem_append_right (Nat.not_lt.1 hlt), ← hr (k - bytes.length) (by omega)]
      congr 1
      omega

theorem holdsAt_srcBytes (s : State) (a n : Nat) : HoldsAt s.srcByte a (s.srcBytes a n) :=
  fun k hk => (s.getElem_srcBytes a n k hk).symm

theorem HoldsAt.srcBytes_eq {s : State} (h : HoldsAt s.srcByte a bytes) : s.srcBytes a bytes.length = bytes :=
  List.ext_getElem (s.srcBytes_length a _) fun k _ hk => (s.getElem_srcBytes a _ k _).trans (h k hk)

end Bytes

/-! ## Streams that stand for an input -/

/-- A literal token as `EMIT.LIT` writes it, and its length (R80). -/
inductive IsEmittedLiteral : Instr → Nat → Prop
  | litS {m : BitVec 6} {length : Nat} (hm : literalLength m = length) (h : length ≤ 60) :
      IsEmittedLiteral (.litS m) length
  | lit1 {m : BitVec 8} {length : Nat} (hm : literalLength m = length) : IsEmittedLiteral (.lit1 m) length
  | lit2 {m : BitVec 16} {length : Nat} (hm : literalLength m = length) : IsEmittedLiteral (.lit2 m) length

/-- The bytes of `out` before `p` are the header of `len` and tokens that stand for the bytes of `inp` before `n`: a
literal for the bytes of its payload, a copy for bytes that repeat those `offset` before them (R50, R126, R131). -/
inductive StreamOf (len : Nat) (inp out : Nat → Byte) : (p n : Nat) → Prop
  | header (h : HoldsAt out 0 (hdrEnc len)) : StreamOf len inp out (hdrEnc len).length 0
  | literal {p n length : Nat} {i : Instr} (hs : StreamOf len inp out p n) (hi : IsEmittedLiteral i length)
      (htoken : HoldsAt out p (encode i).bytes)
      (hpayload : ∀ k < length, out (p + (encode i).bytes.length + k) = inp (n + k)) :
      StreamOf len inp out (p + (encode i).bytes.length + length) (n + length)
  | copy {p n offset : Nat} {i : Instr} (hs : StreamOf len inp out p n) (hi : IsEmittedCopy offset i)
      (ho : 1 ≤ offset) (hn : offset ≤ n) (htoken : HoldsAt out p (encode i).bytes)
      (hrepeats : ∀ k < copiedBytes i, inp (n + k) = inp (n + k - offset)) :
      StreamOf len inp out (p + (encode i).bytes.length) (n + copiedBytes i)

section Streams

variable {len p n : Nat} {inp out out' : Nat → Byte}

/-- A stream is what it is by the bytes before its end. -/
theorem StreamOf.congr (h : StreamOf len inp out p n) (hout : ∀ a < p, out' a = out a) :
    StreamOf len inp out' p n := by
  induction h with
  | header h => exact .header (h.congr fun a ha => hout a (by omega))
  | literal _ hi htoken hpayload ih =>
    exact .literal (ih fun a ha => hout a (by omega)) hi (htoken.congr fun a ha => hout a (by omega))
      fun k hk => (hout _ (by omega)).trans (hpayload k hk)
  | copy _ hi ho hn htoken hrepeats ih =>
    exact .copy (ih fun a ha => hout a (by omega)) hi ho hn (htoken.congr hout) hrepeats

theorem StreamOf.holdsAt_header (h : StreamOf len inp out p n) :
    HoldsAt out 0 (hdrEnc len) ∧ (hdrEnc len).length ≤ p := by
  induction h with
  | header h => exact ⟨h, le_rfl⟩
  | literal _ _ _ _ ih | copy _ _ _ _ _ _ ih => exact ⟨ih.1, by omega⟩

/-! ## Emissions extend a stream -/

/-- `EMIT.LIT` writes the encoding of a literal token (R80). -/
theorem literalTag_eq_encode {length : Nat} (h1 : 1 ≤ length) (hmax : length ≤ 65536) :
    ∃ i, IsEmittedLiteral i length ∧ literalTag length = (encode i).bytes := by
  have hfield := fun w => toNat_ofNat_pred_add_one (w := w) h1
  obtain h60 | h60 := le_or_gt length 60
  · exact ⟨_, .litS (hfield 6 (by omega)) h60, literalTag_litS h1 h60⟩
  obtain h256 | h256 := le_or_gt length 256
  · exact ⟨_, .lit1 (hfield 8 h256), literalTag_lit1 h60 h256⟩
  · exact ⟨_, .lit2 (hfield 16 hmax), literalTag_lit2 h256⟩

theorem StreamOf.emitLit {bytes : List Byte} (h : StreamOf len inp out p n) (h1 : 1 ≤ bytes.length)
    (hmax : bytes.length ≤ 65536) (hout : HoldsAt out p (literalTag bytes.length ++ bytes))
    (hinp : HoldsAt inp n bytes) :
    StreamOf len inp out (p + (literalTag bytes.length ++ bytes).length) (n + bytes.length) := by
  obtain ⟨i, hi, htag⟩ := literalTag_eq_encode h1 hmax
  obtain ⟨htoken, hpayload⟩ := holdsAt_append.1 hout
  rw [List.length_append, htag, ← Nat.add_assoc]
  rw [htag] at htoken hpayload
  exact h.literal hi htoken fun k hk => (hpayload k hk).trans (hinp k hk).symm

theorem StreamOf.copyTokens {offset : Nat} {tokens : List Instr} (h : StreamOf len inp out p n) (ho : 1 ≤ offset)
    (hn : offset ≤ n) (hi : ∀ i ∈ tokens, IsEmittedCopy offset i)
    (hout : HoldsAt out p (tokens.map fun i => (encode i).bytes).flatten)
    (hrepeats : ∀ k < (tokens.map copiedBytes).sum, inp (n + k) = inp (n + k - offset)) :
    StreamOf len inp out (p + (tokens.map fun i => (encode i).bytes).flatten.length)
      (n + (tokens.map copiedBytes).sum) := by
  induction tokens generalizing p n with
  | nil => exact h
  | cons i tokens ih =>
    simp only [List.map_cons, List.flatten_cons, List.sum_cons, List.length_append, ← Nat.add_assoc] at *
    obtain ⟨htoken, hrest⟩ := holdsAt_append.1 hout
    have hfirst := h.copy (hi i (.head _)) ho hn htoken fun k hk => hrepeats k (by omega)
    refine ih hfirst (by omega) (fun j hj => hi j (.tail _ hj)) hrest fun k hk => ?_
    rw [Nat.add_assoc]
    exact hrepeats _ (by omega)

theorem StreamOf.emitCopy {offset length : Nat} (h : StreamOf len inp out p n) (ho : 1 ≤ offset) (hn : offset ≤ n)
    (hmax : offset ≤ 65535) (h4 : 4 ≤ length) (hout : HoldsAt out p (copyBytes offset length))
    (hrepeats : ∀ k < length, inp (n + k) = inp (n + k - offset)) :
    StreamOf len inp out (p + (copyBytes offset length).length) (n + length) := by
  have hsum := sum_copiedBytes_copyTokens offset h4
  rw [copyTokens_bytes] at hout ⊢
  have hstream := h.copyTokens ho hn (fun _ => isEmittedCopy_of_mem_copyTokens hmax h4) hout (by rwa [hsum])
  rwa [hsum] at hstream

end Streams

end Sys2Proof.Machine
end

section
/-! PROOF of O58, the encoder: from its header to its end COMPRESS's output stands for the input read so far. -/

namespace Sys2Proof.Machine

open Sys2Proof.Safety Sys2Proof.Claims

/-- Up to which position of its chunk a phase of the encoder has written the output. -/
def Phase.emittedTo (e : EncRegs) : Phase → Nat
  | .bSearch | .bMatch | .bRemainder => e.nextEmit
  | .bCopy => e.s
  | .eChunk | .bInit | .cStart | .hDec | .dInit | .dFetch | .dLit | .dCopy | .dEnd => 0

/-- While COMPRESS runs, its output stands for the input up to the encoder's place. -/
def Streamed (len : Nat) (inp : Nat → Byte) (s : State) : Prop :=
  StreamOf len inp s.dstByte s.enc.d (s.enc.inPos + s.phase.emittedTo s.enc)

/-- COMPRESS of the `len` bytes of `inp` after its header: its output stands for the input so far, or, when the command
has ended, for all of it. -/
structure Records (len : Nat) (inp : Nat → Byte) (s : State) : Prop where
  source : s.srcByte = inp
  running : s.status = .busy → Streamed len inp s
  ended : Quiescent s → StreamOf len inp s.dstByte s.outLen.toNat len

section Encoder

variable {s t : State} {len n : Nat} {inp : Nat → Byte}

/-! ## Bytes that stay -/

theorem srcByte_of_sameInputs (h : SameInputs s t) : t.srcByte = s.srcByte := by
  obtain ⟨-, -, -, -, hsrc, hresets⟩ := h
  funext a
  rw [State.srcByte, State.srcByte, hsrc, hresets]

theorem WorkFrame.dstByte_of_dst (h : WorkFrame s t) (hd : t.dst = s.dst) : t.dstByte = s.dstByte :=
  funext fun _ => h.dstByte_eq (by rw [hd])

@[simp] theorem State.dstByte_setPhase (s : State) (p : Phase) : (s.setPhase p).dstByte = s.dstByte := rfl

@[simp] theorem State.dstByte_nextChunk (s : State) : s.nextChunk.dstByte = s.dstByte := rfl

@[simp] theorem State.dstByte_reinserted (s : State) : s.reinserted.dstByte = s.dstByte :=
  (WorkFrame.refl s).reinserted.dstByte_of_dst s.reinserted_dst

@[simp] theorem State.dstByte_resumed (s : State) : s.resumed.dstByte = s.dstByte :=
  (WorkFrame.refl s).resumed.dstByte_of_dst s.resumed_dst

/-! ## Emissions -/

/-- An emission leaves the stream below the cursor. -/
theorem StreamOf.below_emission {bytes : List Byte} (h : StreamOf len inp s.dstByte s.enc.d n)
    (hemit : Emitted s t bytes) : StreamOf len inp t.dstByte s.enc.d n := by
  obtain ⟨-, -, hkeep⟩ := hemit
  exact h.congr fun a ha => hkeep a (.inl ha)

/-- A literal of the next `l` input bytes (R80). -/
theorem StreamOf.literalEmitted {l : Nat} (h : StreamOf len s.srcByte s.dstByte s.enc.d n)
    (hemit : Emitted s t (literalTag l ++ s.srcBytes n l)) (h1 : 1 ≤ l) (hmax : l ≤ 65536) :
    StreamOf len s.srcByte t.dstByte t.enc.d (n + l) := by
  have hstream := h.below_emission hemit
  obtain ⟨hd, hbytes, -⟩ := hemit
  have hlen := s.srcBytes_length n l
  have hlit := hstream.emitLit (bytes := s.srcBytes n l) (by rwa [hlen]) (by rwa [hlen]) (by rwa [hlen])
    (holdsAt_srcBytes s n l)
  rwa [hlen, ← hd] at hlit

/-- A copy of `l` bytes that repeat those `offset` before them (R81). -/
theorem StreamOf.copyEmitted {offset l : Nat} (h : StreamOf len inp s.dstByte s.enc.d n)
    (hemit : Emitted s t (copyBytes offset l)) (ho : 1 ≤ offset) (hn : offset ≤ n) (hmax : offset ≤ 65535)
    (h4 : 4 ≤ l) (hrepeats : ∀ k < l, inp (n + k) = inp (n + k - offset)) :
    StreamOf len inp t.dstByte t.enc.d (n + l) := by
  have hstream := h.below_emission hemit
  obtain ⟨hd, hbytes, -⟩ := hemit
  rw [hd]
  exact hstream.emitCopy ho hn hmax h4 hbytes hrepeats

/-- The pending bytes of the chunk up to `q` (R98, R103). -/
theorem StreamOf.pendingEmitted {q : Nat} (h : StreamOf len s.srcByte s.dstByte s.enc.d (s.enc.inPos + s.enc.nextEmit))
    (hlt : s.enc.nextEmit < q) (hq : q ≤ 65536) :
    StreamOf len s.srcByte (s.pendingEmitted q).dstByte (s.pendingEmitted q).enc.d (s.enc.inPos + q) := by
  have hlit := h.literalEmitted (l := q - s.enc.nextEmit) ((workFrame_pendingEmitted s q).emits rfl rfl) (by omega)
    (by omega)
  rwa [Nat.add_assoc, Nat.add_sub_cancel' hlt.le] at hlit

/-! ## The copy phase (R99 to R102) -/

/-- A match's bytes repeat the input at the distance of its candidate, so its copy stands for them. -/
theorem StreamOf.copied {p : Nat} (hi : CopyInv s) (h4 : s.enc.s + 4 ≤ p)
    (hlong : LongestMatch s s.enc.candidate s.enc.s p)
    (h : StreamOf len s.srcByte s.dstByte s.enc.d (s.enc.inPos + s.enc.s)) :
    StreamOf len s.srcByte (s.copied p).dstByte (s.copied p).enc.d (s.enc.inPos + p) := by
  obtain ⟨hblk, ⟨hcand, hlim, -⟩, -⟩ := hi
  obtain ⟨hlimit, hmax⟩ := blockInv_sLimit_le hblk
  obtain ⟨hrepeats, -⟩ := hlong.repeats hcand.le
  have hemit : Emitted s (s.copied p) (copyBytes (s.enc.s - s.enc.candidate) (p - s.enc.s)) :=
    (workFrame_copied s p).emits (by simp) (by simp)
  have hcopy := h.copyEmitted hemit (by omega) (by omega) (by omega) (by omega) fun k hk => by
    have hk := hrepeats (s.enc.s + k) (by omega) (by omega)
    rw [State.chunkByte, State.chunkByte, ← Nat.add_assoc] at hk
    exact hk.trans (congrArg s.srcByte (by omega))
  rwa [Nat.add_assoc, Nat.add_sub_cancel' (by omega)] at hcopy

/-- Wherever the copy phase goes on to, it has written the output up to the end of its match. -/
theorem streamed_of_bCopy (hb : s.status = .busy) (hp : s.phase = .bCopy) (hi : CopyInv s)
    (hs : Streamed len s.srcByte s) (h : step s = .next t) : Streamed len s.srcByte t := by
  obtain ⟨u, hu⟩ := blockCopy_answers hi
  cases h.symm.trans (step_phaseRun hb (by simp only [State.work, hp]) hu)
  obtain ⟨p, h4, hlong, hcases⟩ := blockCopy_longest hi hu
  rw [Streamed, hp] at hs
  have hcopied := StreamOf.copied hi h4 hlong hs
  obtain ⟨-, rfl⟩ | ⟨-, rfl⟩ := hcases
  · simpa [Streamed, Phase.emittedTo] using hcopied
  · split <;> simpa [Streamed, Phase.emittedTo] using hcopied

/-! ## Every step -/

/-- The chunk loop ends the command only where no input is left (R113, R115). -/
theorem inPos_eq_of_quiescent (hb : s.status = .busy) (hp : s.phase = .eChunk) (hi : ChunkLoopInv s)
    (h : step s = .next t) (hq : Quiescent t) : s.enc.inPos = s.srcLen.toNat := by
  obtain ⟨hlong, hshort, -⟩ := chunkLoopTurn s hb hp hi
  obtain ⟨-, hin, -⟩ := hi
  by_contra hne
  obtain h17 | h17 := le_or_gt 17 (s.srcLen.toNat - s.enc.inPos)
  · cases h.symm.trans (hlong (by omega) h17)
    exact hq hb
  · obtain ⟨u, hu, -, -, -, -, ⟨-, hbu, -⟩, -⟩ := hshort _ rfl (by omega) h17
    cases h.symm.trans hu
    exact hq (hbu.trans hb)

theorem finish_outLen_toNat (hi : ChunkLoopInv s) : (s.finish s.enc.d).outLen.toNat = s.enc.d := by
  have hmax := s.dstCap.isLt
  obtain ⟨⟨hcap, -⟩, hin, -, hd⟩ := hi
  unfold Config.bound at hcap
  rw [State.finish_outLen, BitVec.toNat_ofNat, Nat.mod_eq_of_lt (by omega)]

/-- Every step of the encoder that goes on keeps the output in step with the input. -/
theorem streamed_step (hi : Inv s) (hb : s.status = .busy) (he : Encodes s.phase) (hs : Streamed len s.srcByte s)
    (h : step s = .next t) (hbt : t.status = .busy) : Streamed len s.srcByte t := by
  have hclause : ∀ p, s.phase = p → PhaseClause p s := fun _ => inv_clause hi hb
  obtain ⟨hdec, hstart⟩ := he
  rw [Streamed] at hs
  cases step_transition hb h with
  | raiseQuiet | finishQuiet | raise | tokenRaises | decoded | encoded => cases hbt
  | decompressStarts hp | compressStarts hp => exact absurd hp hstart
  | literalRuns hf | copyRuns hf => exact absurd (hdec.symm.trans hf.isDecoding) nofun
  | headerRead hp | bodyStarts hp | bodyEnds hp => exact absurd (hdec.symm.trans (isDecoding_of_eq hp rfl)) nofun
  | longChunk hp | blockStarts hp | searchEnds hp | miss hp | hit hp => rw [hp] at hs; exact hs
  | copyEnds hp | rematch hp | resume hp => exact streamed_of_bCopy hb hp (hclause _ hp) hs h
  | @shortChunk n hp hn h1 h17 =>
    rw [hp] at hs
    exact StreamOf.literalEmitted (n := s.enc.inPos) (l := n) hs (emitted_shortEmitted s n) h1 (by omega)
  | pending hp =>
    obtain ⟨hblk, ⟨-, hlim, -⟩, hlt, -⟩ : MatchInv s := hclause _ hp
    obtain ⟨hlimit, hmax⟩ := blockInv_sLimit_le hblk
    rw [hp] at hs
    simpa [Streamed, Phase.emittedTo] using hs.pendingEmitted hlt (by omega)
  | remainder hp hn =>
    obtain ⟨hch, -⟩ : RemainderInv s := hclause _ hp
    obtain ⟨-, hmax⟩ := chunkInv_bounds hch
    rw [hp] at hs
    simpa [Streamed, Phase.emittedTo] using hs.pendingEmitted hn hmax
  | noRemainder hp hn =>
    obtain ⟨-, hle, -⟩ : RemainderInv s := hclause _ hp
    rw [hp, show Phase.emittedTo s.enc .bRemainder = s.enc.blkLen from le_antisymm hle hn] at hs
    exact hs

theorem records_step (hc : Compresses len s) (hr : Records len inp s) (hb : s.status = .busy)
    (h : step s = .next t) : Records len inp t := by
  obtain ⟨rfl, hs, -⟩ := hr
  obtain ⟨he, -⟩ := hc.running hb
  refine ⟨srcByte_of_sameInputs (step_sameInputs h), streamed_step hc.inv hb he (hs hb) h, fun hq => ?_⟩
  obtain hw | ⟨hp, rfl⟩ := step_encodes_cases hb he h
  · exact absurd (hw.status.trans hb) hq
  · have hi : ChunkLoopInv s := inv_clause hc.inv hb hp
    have hend : s.enc.inPos = len := (inPos_eq_of_quiescent hb hp hi h hq).trans hc.srcLen
    have hstream := hs hb
    rw [Streamed, hp, show s.enc.inPos + Phase.emittedTo s.enc .eChunk = len from hend] at hstream
    rw [finish_outLen_toNat hi]
    exact hstream.congr fun a ha => s.dstByte_finish s.enc.d a (.inl ha)

theorem records_headerEmitted (hb : s.status = .busy) :
    Records s.srcLen.toNat s.srcByte (s.headerEmitted.setPhase .eChunk) := by
  have hw := (workFrame_headerEmitted s).setPhase .eChunk
  obtain ⟨-, hheader, -⟩ := emitted_headerEmitted s
  have hstream : StreamOf s.srcLen.toNat s.srcByte _ _ 0 := .header hheader
  refine ⟨srcByte_of_sameInputs hw.inputs, fun _ => ?_, fun hq => absurd (hw.status.trans hb) hq⟩
  rw [Streamed, State.setPhase_enc, State.headerEmitted_enc]
  exact hstream

/-- A step of COMPRESS, with what `leads_quiescent_of_decreasing` asks of it. -/
theorem compresses_records_step (h : Compresses len s ∧ Records len inp s) (hb : s.status = .busy) :
    ∃ t, step s = .next t ∧ (Compresses len t ∧ Records len inp t) ∧
      (t.status = .busy → t.encoderLeft < s.encoderLeft) := by
  obtain ⟨hc, hr⟩ := h
  obtain ⟨t, hstep, hct, hlt⟩ := compresses_step hc hb
  exact ⟨t, hstep, ⟨hct, records_step hc hr hb hstep⟩, hlt⟩

end Encoder

/-- COMPRESS ends in DONE, and its output stands for its input (R117, R105). -/
theorem compress_streams {s : State} (hi : Inv s) (hq : Quiescent s)
    (hcap : 32 + s.srcLen.toNat + s.srcLen.toNat / 6 ≤ s.dstCap.toNat) :
    ∃ t, CommandEnds 1 s t ∧ t.status = .done ∧
      StreamOf s.srcLen.toNat s.srcByte t.dstByte t.outLen.toNat s.srcLen.toNat := by
  have hstep := step_compress hq hcap
  have hc := compresses_headerEmitted (s := s.startCommand 1) (step_inv (inv_writeCsr hi .cmd 1) hstep) rfl
  have hr := records_headerEmitted (s := s.startCommand 1) rfl
  obtain ⟨k, t, hk, ⟨hct, hrt⟩, hqt⟩ :=
    leads_quiescent_of_decreasing State.encoderLeft (fun _ => compresses_records_step) ⟨hc, hr⟩
  obtain ⟨hdone, -⟩ := hct.ended hqt
  exact ⟨t, commandEnds_of_step hstep hk hqt, hdone, hrt.ended hqt⟩

end Sys2Proof.Machine
end

section
/-! PROOF of O58, the decoder: along a stream that stands for an input, the decoder writes that input, a token a
step. -/

namespace Sys2Proof.Machine

open Sys2Proof.Safety Sys2Proof.Claims

section Tokens

variable {s : State} {i : Instr} {length offset : Nat}

/-! ## Fetching a token -/

/-- An instruction whose bits are one to five bytes of a body (R58). -/
structure IsBodyToken (i : Instr) : Prop where
  wellFormed : i.wellFormed = true
  code : encode i = .token (encode i).bytes
  size : 1 ≤ (encode i).bytes.length ∧ (encode i).bytes.length ≤ 5

theorem IsEmittedLiteral.isBodyToken (hi : IsEmittedLiteral i length) : IsBodyToken i := by
  cases hi with
  | litS hm h =>
    unfold literalLength at hm
    exact ⟨decide_eq_true (by omega), rfl, by simp [encode, Code.bytes]⟩
  | lit1 | lit2 => exact ⟨rfl, rfl, by simp [encode, Code.bytes]⟩

theorem IsEmittedCopy.isBodyToken (hi : IsEmittedCopy offset i) : IsBodyToken i := by
  obtain ⟨l, o, rfl, -⟩ | ⟨l, o, rfl, -⟩ := hi <;> exact ⟨rfl, rfl, by simp [encode, Code.bytes]⟩

/-- Where the body holds a token's bytes, the decoder's step runs it (R120). -/
theorem step_token (hi : IsBodyToken i) (hb : s.status = .busy) (hp : s.phase = .dFetch)
    (hs : s.dec.s + (encode i).bytes.length ≤ s.dec.bodyLen) (hlen : s.dec.hdrLen + s.dec.bodyLen ≤ s.srcLen.toNat)
    (hsrc : HoldsAt s.srcByte (s.dec.hdrLen + s.dec.s) (encode i).bytes) : step s = exec i s := by
  obtain ⟨hwf, hcode, h1, h5⟩ := hi
  obtain ⟨-, -, hrun⟩ := stepRunsTheDecodedInstruction s i hb
  refine hrun hp (by omega) hlen ?_
  obtain ⟨more, hmore⟩ := Nat.exists_eq_add_of_le (Nat.le_min.2 ⟨h5, Nat.le_sub_of_add_le' hs⟩)
  have hdec := decodeOfEncode i (s.srcBytes (s.dec.hdrLen + s.dec.s + (encode i).bytes.length) more) hwf
  rw [hmore, State.srcBytes_add, hsrc.srcBytes_eq]
  rwa [hcode] at hdec

/-! ## Running a token -/

/-- A literal's operands in their registers, its payload next (R121 to R125). -/
def State.literalFetched (s : State) (head length : Nat) : State :=
  (s.setDec { s.dec with length := length, s := s.dec.s + head }).setPhase .dLit

/-- A copy's operands in their registers (R127 to R129). -/
def State.copyFetched (s : State) (head length offset : Nat) : State :=
  (s.setDec { s.dec with length := length, offset := offset, s := s.dec.s + head }).setPhase .dCopy

theorem workFrame_literalFetched (s : State) (head length : Nat) : WorkFrame s (s.literalFetched head length) :=
  ((WorkFrame.refl s).setDec _).setPhase _

theorem IsEmittedLiteral.pos (hi : IsEmittedLiteral i length) : 1 ≤ length := by
  cases hi <;> subst_vars <;> exact Nat.succ_pos _

theorem exec_literal (hi : IsEmittedLiteral i length) (hs : s.dec.s + (encode i).bytes.length ≤ s.dec.bodyLen) :
    exec i s = (literal (encode i).bytes.length length s).outcome := by
  cases hi with
  | litS hm => subst hm; rfl
  | lit1 hm | lit2 hm =>
    subst hm
    exact congrArg Run.outcome (if_neg (Nat.not_lt.2 hs))

theorem exec_copy (hi : IsEmittedCopy offset i) :
    exec i s = (copy (encode i).bytes.length (copiedBytes i) offset s).outcome := by
  obtain ⟨l, o, rfl, rfl⟩ | ⟨l, o, rfl, rfl, -⟩ := hi <;> rfl

/-- Where the output so far is that of `f`, and the payload is what comes next in `f`, the literal goes on as `f` does
(R126). -/
theorem State.putBytes_of_payload {f : Nat → Byte} {a d n : Nat} (hs : ∀ x < d, s.dstByte x = f x)
    (hf : ∀ k < n, s.srcByte (a + k) = f (d + k)) :
    ∀ x < d + n, (s.setDst (Memory.putBytes s.dst d (s.srcBytes a n))).dstByte x = f x := by
  intro x hx
  rw [State.dstByte_putBytes]
  split
  · next hrange => rw [State.getElem_srcBytes, hf _ (by omega), Nat.add_sub_cancel' hrange.1]
  · next hrange =>
    rw [State.srcBytes_length] at hrange
    exact hs x (by omega)

/-- Where the output so far is that of `f`, and `f` repeats itself at the distance `offset`, the copy loop goes on as
`f` does (R131, R132). -/
theorem State.copyLoop_of_repeats {f : Nat → Byte} {d n : Nat} (hs : ∀ a < d, s.dstByte a = f a) (h1 : 1 ≤ offset)
    (hle : offset ≤ d) (hf : ∀ k < n, f (d + k) = f (d + k - offset)) :
    ∀ a < d + n, (s.copyLoop offset d n).dstByte a = f a := by
  induction n generalizing s d with
  | zero => exact hs
  | succ n ih =>
    rw [show d + (n + 1) = d + 1 + n by omega]
    refine ih (fun a ha => ?_) (by omega) fun k hk => ?_
    · rw [State.dstByte_put]
      split
      · next he => rw [he, hs _ (by omega)]; exact (hf 0 (Nat.succ_pos n)).symm
      · exact hs a (by omega)
    · rw [show d + 1 + k = d + (k + 1) by omega]
      exact hf (k + 1) (by omega)

theorem copyBody_ok (h1 : 1 ≤ s.dec.offset) (hd : s.dec.offset ≤ s.dec.d)
    (hlen : s.dec.length ≤ s.dec.destLen - s.dec.d) (hcap : s.dec.d + s.dec.length ≤ s.dstCap.toNat) :
    copyBody s = .ok (((s.copyLoop s.dec.offset s.dec.d s.dec.length).setDec
      { s.dec with d := s.dec.d + s.dec.length }).setPhase .dFetch) := by
  unfold copyBody
  dsimp only
  rw [if_neg (by omega), if_neg (by omega), if_neg (by omega), State.expandCopy_eq_ok.2 ⟨hcap, rfl⟩]
  rfl

end Tokens

/-! ## The decoder on a stream -/

theorem sameInputs_trans {s t u : State} (h : SameInputs s t) (h' : SameInputs t u) : SameInputs s u := by
  obtain ⟨h1, h2, h3, h4, h5, h6⟩ := h
  obtain ⟨h1', h2', h3', h4', h5', h6'⟩ := h'
  exact ⟨h1'.trans h1, h2'.trans h2, h3'.trans h3, h4'.trans h4, h5'.trans h5, h6'.trans h6⟩

/-- DECOMPRESS, begun in `u`, is about to fetch at `p` of its input, with the `n` first of `len` output bytes written,
those of `inp`. -/
structure Decodes (u : State) (len : Nat) (inp : Nat → Byte) (p n : Nat) (s : State) : Prop where
  inputs : SameInputs u s
  busy : s.status = .busy
  fetches : s.phase = .dFetch
  body : s.dec.hdrLen + s.dec.bodyLen = u.srcLen.toNat
  cursor : s.dec.hdrLen + s.dec.s = p
  destLen : s.dec.destLen = len
  fits : len ≤ u.dstCap.toNat
  written : s.dec.d = n
  output : ∀ a < n, s.dstByte a = inp a

section Decoder

variable {s u : State} {i : Instr} {len p n length offset : Nat} {inp : Nat → Byte}

/-- The bytes of a stream's token are those the decoder fetches. -/
theorem Decodes.step_eq_exec (h : Decodes u len inp p n s) (hi : IsBodyToken i)
    (htoken : HoldsAt u.srcByte p (encode i).bytes) (hp : p + (encode i).bytes.length ≤ u.srcLen.toNat) :
    s.dec.s + (encode i).bytes.length ≤ s.dec.bodyLen ∧ step s = exec i s := by
  have hsrc := srcByte_of_sameInputs h.inputs
  obtain ⟨⟨-, -, hsrcLen, -⟩, hb, hph, hbody, rfl, -⟩ := h
  have hs : s.dec.s + (encode i).bytes.length ≤ s.dec.bodyLen := by omega
  exact ⟨hs, step_token hi hb hph hs (by rw [hbody, hsrcLen]) (by rwa [hsrc])⟩

theorem Decodes.literal (h : Decodes u len inp p n s) (hi : IsEmittedLiteral i length)
    (htoken : HoldsAt u.srcByte p (encode i).bytes)
    (hpayload : ∀ k < length, u.srcByte (p + (encode i).bytes.length + k) = inp (n + k))
    (hp : p + (encode i).bytes.length + length ≤ u.srcLen.toNat) (hn : n + length ≤ len) :
    ∃ t, step s = .next t ∧ Decodes u len inp (p + (encode i).bytes.length + length) (n + length) t := by
  obtain ⟨hs, hexec⟩ := h.step_eq_exec hi.isBodyToken htoken (by omega)
  have hsrc := srcByte_of_sameInputs h.inputs
  rw [exec_literal hi hs] at hexec
  generalize (encode i).bytes.length = head at *
  obtain ⟨hin, hb, -, hbody, rfl, rfl, hfits, rfl, hout⟩ := h
  obtain ⟨-, -, hsrcLen, hdstCap, -⟩ := id hin
  have hend : s.dec.hdrLen + (s.dec.s + head) + length ≤ s.srcLen.toNat := by rw [hsrcLen]; omega
  have hcap : s.dec.d + length ≤ s.dstCap.toNat := by rw [hdstCap]; omega
  have hrun := literalBody_ok (s := s.literalFetched head length) hi.pos (Nat.le_sub_of_add_le' hn)
    (show length ≤ s.dec.bodyLen - (s.dec.s + head) by omega) hend hcap
  have hstep := hexec.trans (congrArg Run.outcome hrun)
  have hcursor : s.dec.hdrLen + (s.dec.s + head + length) = s.dec.hdrLen + s.dec.s + head + length := by omega
  have hpayload : ∀ k < length, s.srcByte (s.dec.hdrLen + (s.dec.s + head) + k) = inp (s.dec.d + k) := fun k hk => by
    rw [hsrc, ← Nat.add_assoc]
    exact hpayload k hk
  exact ⟨_, hstep, sameInputs_trans hin (step_sameInputs hstep),
    ((((workFrame_literalFetched s head length).setDst _).setDec _).setPhase _).status.trans hb, rfl, hbody,
    hcursor, rfl, hfits, rfl, State.putBytes_of_payload (s := s.literalFetched head length) hout hpayload⟩

theorem Decodes.copy (h : Decodes u len inp p n s) (hi : IsEmittedCopy offset i) (ho : 1 ≤ offset) (hle : offset ≤ n)
    (htoken : HoldsAt u.srcByte p (encode i).bytes)
    (hrepeats : ∀ k < copiedBytes i, inp (n + k) = inp (n + k - offset))
    (hp : p + (encode i).bytes.length ≤ u.srcLen.toNat) (hn : n + copiedBytes i ≤ len) :
    ∃ t, step s = .next t ∧ Decodes u len inp (p + (encode i).bytes.length) (n + copiedBytes i) t := by
  obtain ⟨hs, hexec⟩ := h.step_eq_exec hi.isBodyToken htoken hp
  rw [exec_copy hi] at hexec
  generalize (encode i).bytes.length = head at *
  generalize copiedBytes i = length at *
  obtain ⟨hin, hb, -, hbody, rfl, rfl, hfits, rfl, hout⟩ := h
  obtain ⟨-, -, -, hdstCap, -⟩ := id hin
  have hcap : s.dec.d + length ≤ s.dstCap.toNat := by rw [hdstCap]; omega
  have hrun := copyBody_ok (s := s.copyFetched head length offset) ho hle (Nat.le_sub_of_add_le' hn) hcap
  have hstep := hexec.trans (congrArg Run.outcome ((if_neg (Nat.not_lt.2 hs)).trans hrun))
  have hw := (WorkFrame.refl (s.copyFetched head length offset)).copyLoop offset s.dec.d length
  exact ⟨_, hstep, sameInputs_trans hin (step_sameInputs hstep), hw.status.trans hb, rfl, hbody,
    (Nat.add_assoc _ _ _).symm, rfl, hfits, rfl,
    State.copyLoop_of_repeats (s := s.copyFetched head length offset) hout ho hle hrepeats⟩

/-! ## Runs -/

theorem leads_add {j k : Nat} {s t v : State} (h : Leads j s t) (h' : Leads k t v) : Leads (j + k) s v := by
  induction j generalizing s with
  | zero =>
    cases h
    rwa [Nat.zero_add]
  | succ j ih =>
    obtain ⟨w, hw, h⟩ := leads_succ.1 h
    rw [Nat.succ_add]
    exact leads_succ.2 ⟨w, hw, ih h⟩

/-- The decoder follows a stream to its end, a step a token. -/
theorem StreamOf.decodes (h : StreamOf len inp u.srcByte p n) {s : State}
    (hs : Decodes u len inp (hdrEnc len).length 0 s) (hp : p ≤ u.srcLen.toNat) (hn : n ≤ len) :
    ∃ k t, Leads k s t ∧ Decodes u len inp p n t := by
  induction h with
  | header => exact ⟨0, s, rfl, hs⟩
  | literal _ hi htoken hpayload ih =>
    obtain ⟨k, t, hk, ht⟩ := ih (by omega) (by omega)
    obtain ⟨v, hv, hdec⟩ := ht.literal hi htoken hpayload hp hn
    exact ⟨k + 1, v, leads_add hk (leads_succ.2 ⟨v, hv, rfl⟩), hdec⟩
  | copy _ hi ho hle htoken hrepeats ih =>
    obtain ⟨k, t, hk, ht⟩ := ih (by omega) (by omega)
    obtain ⟨v, hv, hdec⟩ := ht.copy hi ho hle htoken hrepeats hp hn
    exact ⟨k + 1, v, leads_add hk (leads_succ.2 ⟨v, hv, rfl⟩), hdec⟩

/-! ## DECOMPRESS (R140 to R142) -/

/-- With capacity enough the body starts (R140, R141). -/
theorem step_bodyStarts (hb : s.status = .busy) (hp : s.phase = .dInit) (h : s.dec.destLen ≤ s.dstCap.toNat) :
    step s = .next
      ((s.setDec { s.dec with bodyLen := s.srcLen.toNat - s.dec.hdrLen, s := 0, d := 0 }).setPhase .dFetch) :=
  step_phaseRun (r := decodeInit s) hb (by simp only [State.work, hp]) (if_neg (Nat.not_lt.2 h))

/-- DECOMPRESS reads the header and turns to the body (R140, R141). -/
theorem decompress_starts (hq : Quiescent u) (hlen : len ≤ 0xFFFFFFFF) (hsrc : HoldsAt u.srcByte 0 (hdrEnc len))
    (hp : (hdrEnc len).length ≤ u.srcLen.toNat) (hcap : len ≤ u.dstCap.toNat)
    (hsize : u.params.size31 = true → len ≤ 0x7FFFFFFF) :
    ∃ s, Leads 3 (u.writeCsr .cmd 2) s ∧ Decodes (u.startCommand 2) len inp (hdrEnc len).length 0 s := by
  obtain ⟨hstart, hexec⟩ := writeCsr_cmd_starts (v := 2) (i := .decompress) hq rfl
  have hturn : step (u.writeCsr .cmd 2) = .next ((u.startCommand 2).setPhase .hDec) :=
    hexec.trans (congrArg execDecompress hstart)
  have hbytes : ((u.startCommand 2).setPhase .hDec).srcBytes 0 (hdrEnc len).length = hdrEnc len :=
    HoldsAt.srcBytes_eq hsrc
  have hheader := (step_hdrEnc (s := (u.startCommand 2).setPhase .hDec) hlen rfl rfl hp hbytes).trans
    (execHdr_inRange hp ((hdrEnc_length_le len).trans (by decide)) hlen hsize)
  exact ⟨_, leads_succ.2 ⟨_, hturn, leads_succ.2 ⟨_, hheader, leads_succ.2 ⟨_, step_bodyStarts rfl rfl hcap, rfl⟩⟩⟩,
    ⟨rfl, rfl, rfl, rfl, rfl, rfl⟩, rfl, rfl, Nat.add_sub_cancel' hp, Nat.add_zero _, rfl, hcap, rfl, nofun⟩

/-- At the end of the stream DECOMPRESS is done, with the whole output kept (R134, R142). -/
theorem decompress_ends (h : Decodes u len inp u.srcLen.toNat len s) :
    ∃ t, Leads 2 s t ∧ t.status = .done ∧ t.outLen = BitVec.ofNat 32 len ∧ ∀ a < len, t.dstByte a = inp a := by
  obtain ⟨-, hb, hp, hbody, hcursor, rfl, -, hwritten, hout⟩ := h
  have hturn : step s = .next (s.setPhase .dEnd) := by
    refine step_phaseRun hb ?_ rfl
    simp only [State.work, hp, fetchOrEnd]
    exact if_pos (by omega)
  have hend : step (s.setPhase .dEnd) = .next ((s.setPhase .dEnd).finish s.dec.destLen) :=
    step_phaseRun hb rfl (if_neg (not_not.2 hwritten))
  exact ⟨_, leads_succ.2 ⟨_, hturn, leads_succ.2 ⟨_, hend, rfl⟩⟩, rfl, rfl, fun a ha =>
    (State.dstByte_finish _ _ a (.inl ha)).trans (hout a ha)⟩

end Decoder

/-- Settles O58: COMPRESS's output stands for its input, and DECOMPRESS follows it. -/
theorem decompressOfCompress : Obligations.DecompressOfCompress := by
  unfold Obligations.DecompressOfCompress
  intro s hi hq _ hcap
  obtain ⟨t, hends, hdone, hstream⟩ := compress_streams hi hq hcap
  refine ⟨t, hends, hdone, fun u _ hqu hlen hsrc hcapu hsize => ?_⟩
  rw [← hlen] at hstream hsrc
  replace hstream := hstream.congr hsrc
  obtain ⟨hheader, hp⟩ := hstream.holdsAt_header
  have h31 : u.params.size31 = true → s.srcLen.toNat ≤ 0x7FFFFFFF := fun hs =>
    hsize.resolve_left (by rw [hs]; nofun)
  have hmax : s.srcLen.toNat ≤ 0xFFFFFFFF := Nat.le_of_lt_succ s.srcLen.isLt
  obtain ⟨v, hv, hdec⟩ := decompress_starts (inp := s.srcByte) hqu hmax hheader hp hcapu h31
  obtain ⟨k, w, hw, hdecw⟩ := hstream.decodes (u := u.startCommand 2) hdec le_rfl le_rfl
  obtain ⟨x, hx, hstatus, hout, hbytes⟩ := decompress_ends hdecw
  have hqx : Quiescent x := fun hb => absurd (hstatus.symm.trans hb) nofun
  refine ⟨x, ⟨_, leads_add hv (leads_add hw hx), hqx⟩, hstatus, ?_, hbytes⟩
  rw [hout, BitVec.ofNat_toNat, BitVec.setWidth_eq]

end Sys2Proof.Machine
end

section
/-! PROOF of O10 to O14 and O20: what each form of a token answers (R121 to R133), and the end of the body (R134). -/

namespace Sys2Proof.Machine

open Sys2Proof.Safety Sys2Proof.Claims

section Tokens

variable {s t : State} {k : ErrKind} {i : Instr} {head length offset : Nat}

/-! ## The two kinds of token -/

/-- A literal token, with the number of bytes before its payload and the length of its payload (R53, R54). -/
inductive IsLiteral : Instr → (head length : Nat) → Prop
  | litS (m : BitVec 6) : IsLiteral (.litS m) 1 (literalLength m)
  | lit1 (m : BitVec 8) : IsLiteral (.lit1 m) 2 (literalLength m)
  | lit2 (m : BitVec 16) : IsLiteral (.lit2 m) 3 (literalLength m)
  | lit3 (m : BitVec 24) : IsLiteral (.lit3 m) 4 (literalLength m)
  | lit4 (m : BitVec 32) : IsLiteral (.lit4 m) 5 (literalLength m)

/-- A copy token, with its size, its length and its offset (R55 to R57). -/
inductive IsCopy : Instr → (head length offset : Nat) → Prop
  | copy1 (l : BitVec 3) (offset : BitVec 11) : IsCopy (.copy1 l offset) 2 (copy1Length l) (copyOffset offset)
  | copy2 (l : BitVec 6) (offset : BitVec 16) : IsCopy (.copy2 l offset) 3 (copyLength l) (copyOffset offset)
  | copy4 (l : BitVec 6) (offset : BitVec 32) : IsCopy (.copy4 l offset) 5 (copyLength l) (copyOffset offset)

theorem IsLiteral.pos (hi : IsLiteral i head length) : 1 ≤ length := by
  cases hi <;> exact Nat.succ_pos _

theorem IsCopy.pos (hi : IsCopy i head length offset) : 1 ≤ length := by
  cases hi with
  | copy1 => exact Nat.le_add_right_of_le (by decide)
  | copy2 | copy4 => exact Nat.le_add_right 1 _

theorem IsLiteral.headBytes_eq (hi : IsLiteral i head length) : i.headBytes = head := by
  cases hi <;> rfl

theorem IsCopy.headBytes_eq (hi : IsCopy i head length offset) : i.headBytes = head := by
  cases hi <;> rfl

/-- Where the body holds a literal's tag and length bytes, all five forms do the same (R121 to R125). -/
theorem IsLiteral.exec_eq (hi : IsLiteral i head length) (hs : s.dec.s + head ≤ s.dec.bodyLen) :
    exec i s = (literal head length s).outcome := by
  cases hi with
  | litS => rfl
  | lit1 | lit2 | lit3 | lit4 => exact congrArg Run.outcome (if_neg (Nat.not_lt.2 hs))

theorem IsCopy.exec_eq (hi : IsCopy i head length offset) : exec i s = (copy head length offset s).outcome := by
  cases hi <;> rfl

/-! ## Frames -/

theorem WorkFrame.tokenFrame (h : WorkFrame s t) (hht : t.ht = s.ht) (henc : t.enc = s.enc) : TokenFrame s t :=
  ⟨h.inputs, h.status, h.err, h.outLen, hht, henc, h.dstUnspec⟩

/-- The operands a literal sets before it raises are not among the registers `TokenRaised` names. -/
theorem tokenRaised_literalFetched : TokenRaised k s ((s.literalFetched head length).raise k) :=
  tokenRaised_raise (s.literalFetched head length) k

theorem tokenRaised_copyFetched : TokenRaised k s ((s.copyFetched head length offset).raise k) :=
  tokenRaised_raise (s.copyFetched head length offset) k

/-! ## Literals (R121 to R126) -/

/-- A payload written to `DST` reads as it stands in `SRC`, every other byte as before. -/
theorem State.dstByte_payload (s : State) (a d n x : Nat) :
    (s.setDst (Memory.putBytes s.dst d (s.srcBytes a n))).dstByte x =
      if d ≤ x ∧ x < d + n then s.srcByte (a + (x - d)) else s.dstByte x := by
  simp only [State.dstByte_putBytes, State.srcBytes_length, State.getElem_srcBytes, dite_eq_ite]

theorem literal_completes (h1 : 1 ≤ length) (h : LiteralFits s head length) :
    ∃ t, (literal head length s).outcome = .next t ∧ LiteralResult s t head length := by
  obtain ⟨hbody, hsrc, hdest, hcap⟩ := h
  have hrun := literalBody_ok (s := s.literalFetched head length) h1 (Nat.le_sub_of_add_le' hdest)
    (Nat.le_sub_of_add_le' hbody)
    (show s.dec.hdrLen + (s.dec.s + head) + length ≤ s.srcLen.toNat by omega) (hdest.trans hcap)
  have hbytes := (s.literalFetched head length).dstByte_payload (s.dec.hdrLen + (s.dec.s + head)) s.dec.d length
  refine ⟨_, congrArg Run.outcome hrun, rfl, rfl, fun k hk => ?_, fun a ha => ?_, ?_⟩
  · refine (hbytes (s.dec.d + k)).trans ((if_pos (by omega)).trans ?_)
    rw [Nat.add_sub_cancel_left, Nat.add_assoc]
    rfl
  · exact (hbytes a).trans (if_neg (by omega))
  · exact ((((workFrame_literalFetched s head length).setDst _).setDec _).setPhase _).tokenFrame rfl rfl

/-- A literal whose payload exceeds what is left of the output or of the body raises (R126). -/
theorem literalBody_overruns
    (h : s.dec.destLen - s.dec.d < s.dec.length ∨ s.dec.bodyLen - s.dec.s < s.dec.length) :
    literalBody s = .ok (s.raise .unsupportedLiteralLength) := by
  unfold literalBody
  dsimp only
  split
  · rfl
  split
  · rfl
  · next hd => exact if_pos (h.resolve_left hd)

theorem literal_overruns (h1 : 1 ≤ length) (h : LiteralOverruns s head length) :
    ∃ t, (literal head length s).outcome = .next t ∧ TokenRaised .unsupportedLiteralLength s t := by
  have hover : s.dec.destLen - s.dec.d < length ∨ s.dec.bodyLen - (s.dec.s + head) < length := by omega
  exact ⟨_, congrArg Run.outcome (literalBody_overruns (s := s.literalFetched head length) hover),
    tokenRaised_literalFetched⟩

theorem IsLiteral.completes (hi : IsLiteral i head length) (h : LiteralFits s head length) :
    ∃ t, exec i s = .next t ∧ LiteralResult s t head length := by
  rw [hi.exec_eq (Nat.le_of_add_right_le h.1)]
  exact literal_completes hi.pos h

theorem IsLiteral.overruns (hi : IsLiteral i head length) (hs : s.dec.s + head ≤ s.dec.bodyLen)
    (h : LiteralOverruns s head length) :
    ∃ t, exec i s = .next t ∧ TokenRaised .unsupportedLiteralLength s t := by
  rw [hi.exec_eq hs]
  exact literal_overruns hi.pos h

theorem longLiteral_cutShort (h : s.dec.bodyLen < s.dec.s + head) :
    ∃ t, (longLiteral head length s).outcome = .next t ∧ TokenRaised .corrupt s t :=
  ⟨_, congrArg Run.outcome (if_pos h), tokenRaised_raise s .corrupt⟩

/-! ## Copies (R127 to R133) -/

@[simp] theorem State.copyLoop_ht (s : State) (offset d n : Nat) : (s.copyLoop offset d n).ht = s.ht := by
  rw [State.copyLoop_eq_setDst, State.setDst_ht]

@[simp] theorem State.copyLoop_enc (s : State) (offset d n : Nat) : (s.copyLoop offset d n).enc = s.enc := by
  rw [State.copyLoop_eq_setDst, State.setDst_enc]

/-- The bytes of `DST` up to `d`, and from there on the last `offset` of them over and over (R131, R132). -/
def State.repeated (s : State) (d offset a : Nat) : Byte :=
  if a < d then s.dstByte a else s.dstByte (d - offset + (a - d) % offset)

theorem State.repeated_below (s : State) {d a : Nat} (offset : Nat) (h : a < d) : s.repeated d offset a = s.dstByte a :=
  if_pos h

theorem State.repeated_add (s : State) (d offset k : Nat) :
    s.repeated d offset (d + k) = s.dstByte (d - offset + k % offset) := by
  refine (if_neg (by omega)).trans ?_
  rw [Nat.add_sub_cancel_left]

/-- From `d` on each byte is the one at the distance `offset` before it. -/
theorem State.repeated_periodic (s : State) {d : Nat} (hle : offset ≤ d) (k : Nat) :
    s.repeated d offset (d + k) = s.repeated d offset (d + k - offset) := by
  rw [State.repeated_add]
  by_cases hk : k < offset
  · rw [State.repeated_below s offset (by omega), Nat.mod_eq_of_lt hk, Nat.sub_add_comm hle]
  · rw [Nat.add_sub_assoc (Nat.not_lt.1 hk), State.repeated_add, Nat.mod_eq_sub_mod (Nat.not_lt.1 hk)]

theorem State.copyLoop_repeats (s : State) {d n k : Nat} (h1 : 1 ≤ offset) (hle : offset ≤ d) (hk : k < n) :
    (s.copyLoop offset d n).dstByte (d + k) = s.dstByte (d - offset + k % offset) := by
  rw [State.copyLoop_of_repeats (fun _ ha => (s.repeated_below offset ha).symm) h1 hle
    (fun k _ => s.repeated_periodic hle k) _ (by omega), State.repeated_add]

theorem copy_completes (h : CopyFits s head length offset) :
    ∃ t, (copy head length offset s).outcome = .next t ∧ CopyResult s t head length offset := by
  obtain ⟨hs, h1, hle, hdest, hcap⟩ := h
  have hrun := copyBody_ok (s := s.copyFetched head length offset) h1 hle (Nat.le_sub_of_add_le' hdest)
    (hdest.trans hcap)
  have hw : WorkFrame s ((s.copyFetched head length offset).copyLoop offset s.dec.d length) :=
    (((WorkFrame.refl s).setDec _).setPhase _).copyLoop _ _ _
  refine ⟨_, congrArg Run.outcome ((if_neg (Nat.not_lt.2 hs)).trans hrun), rfl, rfl,
    fun k hk => State.copyLoop_repeats _ h1 hle hk, fun a ha => State.copyLoop_outside _ _ _ _ _ ha,
    ((hw.setDec _).setPhase _).tokenFrame (State.copyLoop_ht _ _ _ _) (State.copyLoop_enc _ _ _ _)⟩

/-- A copy with an illegal operand raises (R130). -/
theorem copyBody_bad
    (h : s.dec.offset = 0 ∨ s.dec.d < s.dec.offset ∨ s.dec.destLen - s.dec.d < s.dec.length) :
    copyBody s = .ok (s.raise .corrupt) := by
  unfold copyBody
  dsimp only
  split
  · rfl
  · next h0 =>
    split
    · rfl
    · next hd => exact if_pos ((h.resolve_left h0).resolve_left hd)

theorem copy_bad (h1 : 1 ≤ length) (h : s.dec.bodyLen < s.dec.s + head ∨ CopyOperandsBad s length offset) :
    ∃ t, (copy head length offset s).outcome = .next t ∧ TokenRaised .corrupt s t := by
  by_cases hs : s.dec.bodyLen < s.dec.s + head
  · exact ⟨_, congrArg Run.outcome (if_pos hs), tokenRaised_raise s .corrupt⟩
  · have hbad : offset = 0 ∨ s.dec.d < offset ∨ s.dec.destLen - s.dec.d < length := by
      have hoperands := h.resolve_left hs
      omega
    exact ⟨_, congrArg Run.outcome ((if_neg hs).trans (copyBody_bad (s := s.copyFetched head length offset) hbad)),
      tokenRaised_copyFetched⟩

theorem IsCopy.completes (hi : IsCopy i head length offset) (h : CopyFits s head length offset) :
    ∃ t, exec i s = .next t ∧ CopyResult s t head length offset := by
  rw [hi.exec_eq]
  exact copy_completes h

theorem IsCopy.bad (hi : IsCopy i head length offset)
    (h : s.dec.bodyLen < s.dec.s + head ∨ CopyOperandsBad s length offset) :
    ∃ t, exec i s = .next t ∧ TokenRaised .corrupt s t := by
  rw [hi.exec_eq]
  exact copy_bad hi.pos h

/-! ## The end of the body (R120, R134) -/

/-- At the end of the body the decoder turns to `D_END` (R120). -/
theorem step_bodyEnds (hb : s.status = .busy) (hp : s.phase = .dFetch) (hs : s.dec.bodyLen ≤ s.dec.s) :
    step s = .next (s.setPhase .dEnd) := by
  refine step_phaseRun hb ?_ rfl
  simp only [State.work, hp, fetchOrEnd]
  exact if_pos hs

theorem step_dEnd (hb : s.status = .busy) (hp : s.phase = .dEnd) (h : decodeEnd s = .ok t) : step s = .next t :=
  step_phaseRun hb (by simp only [State.work, hp]) h

end Tokens

/-- Settles O10: every literal form sets its operands and runs the one literal body. -/
theorem literalsCopyTheirPayload : Obligations.LiteralsCopyTheirPayload := fun _ =>
  ⟨fun m => (IsLiteral.litS m).completes, fun m => (IsLiteral.lit1 m).completes,
    fun m => (IsLiteral.lit2 m).completes, fun m => (IsLiteral.lit3 m).completes,
    fun m => (IsLiteral.lit4 m).completes⟩

/-- Settles O11: the extent test comes first. -/
theorem longLiteralCutShortIsCorrupt : Obligations.LongLiteralCutShortIsCorrupt := fun _ =>
  ⟨fun _ => longLiteral_cutShort, fun _ => longLiteral_cutShort, fun _ => longLiteral_cutShort,
    fun _ => longLiteral_cutShort⟩

/-- Settles O12: LIT.S has no extent test, the others pass theirs; then one of R126's tests fails. -/
theorem literalOverrunIsUnsupported : Obligations.LiteralOverrunIsUnsupported := fun _ =>
  ⟨fun m => literal_overruns (IsLiteral.litS m).pos, fun m => (IsLiteral.lit1 m).overruns,
    fun m => (IsLiteral.lit2 m).overruns, fun m => (IsLiteral.lit3 m).overruns,
    fun m => (IsLiteral.lit4 m).overruns⟩

/-- Settles O13: every copy form runs the one copy loop, which repeats the pattern. -/
theorem copiesRepeatThePattern : Obligations.CopiesRepeatThePattern := fun _ =>
  ⟨fun l offset => (IsCopy.copy1 l offset).completes, fun l offset => (IsCopy.copy2 l offset).completes,
    fun l offset => (IsCopy.copy4 l offset).completes⟩

/-- Settles O14: the extent test fails, or one of the three operand tests. -/
theorem badCopyIsCorrupt : Obligations.BadCopyIsCorrupt := fun _ =>
  ⟨fun l offset => (IsCopy.copy1 l offset).bad, fun l offset => (IsCopy.copy2 l offset).bad,
    fun l offset => (IsCopy.copy4 l offset).bad⟩

/-- Settles O20: the turn to `D_END`, and the two outcomes of its test. -/
theorem bodyEndsWithTheDeclaredLength : Obligations.BodyEndsWithTheDeclaredLength := by
  unfold Obligations.BodyEndsWithTheDeclaredLength
  refine fun s hb => ⟨step_bodyEnds hb, fun hp hd => ?_, fun hp hd => ?_⟩
  · exact ⟨_, step_dEnd hb hp (if_pos hd), tokenRaised_raise s .corrupt⟩
  · exact ⟨_, step_dEnd hb hp (if_neg (not_not.2 hd)), rfl, rfl, rfl, ⟨rfl, rfl, rfl, rfl, rfl, rfl⟩, rfl, rfl, rfl,
      s.dstByte_finish s.dec.destLen⟩

end Sys2Proof.Machine
end

section
/-! PROOF of O59: DECOMPRESS of a stream and of the same stream cut short run in step until the cut; there the stream's
next token still writes output, so the cut stream has not written the length it declares. -/

namespace Sys2Proof

/-- What decodes still decodes, to the same instruction, with more bytes after it. -/
theorem decode_followedBy {c : Code} {i : Instr} (h : decode c = .ok i) (more : List Byte) :
    decode (c.followedBy more) = .ok i := by
  obtain ⟨hw, rest, rfl⟩ := encodeOfDecode c i h
  have happend : ((encode i).followedBy rest).followedBy more = (encode i).followedBy (rest ++ more) := by
    cases encode i with
    | header bytes => exact congrArg Code.header (List.append_assoc ..)
    | token bytes => exact congrArg Code.token (List.append_assoc ..)
    | command v => rfl
  rw [happend]
  exact decodeOfEncode i (rest ++ more) hw

/-- Bits and the same bits with more after them do not decode to two instructions. -/
theorem decode_unique {c : Code} {i j : Instr} {more : List Byte} (h : decode c = .ok j)
    (h' : decode (c.followedBy more) = .ok i) : j = i :=
  Except.ok.inj ((decode_followedBy h more).symm.trans h')

/-- A token's tag and trailing bytes are among the bytes it was decoded from. -/
theorem headBytes_le_length {bytes : List Byte} {i : Instr} (h : decodeToken bytes = .ok i) :
    i.headBytes ≤ bytes.length := by
  cases bytes with
  | nil => cases h
  | cons t rest => exact (headBytes_of_decodeToken h).2

end Sys2Proof

namespace Sys2Proof.Machine

open Sys2Proof.Safety Sys2Proof.Claims

section Truncation

variable {s t u v : State} {i : Instr} {n m : Nat}

/-! ## How a command ends -/

/-- The CORE comes to an error. -/
def Fails (s : State) : Prop := ∃ k t, Leads k s t ∧ t.status = .error

theorem Fails.of_error (h : s.status = .error) : Fails s := ⟨0, s, rfl, h⟩

theorem Fails.of_step (h : step s = .next t) (ht : Fails t) : Fails s := by
  obtain ⟨k, v, hk, hv⟩ := ht
  exact ⟨k + 1, v, leads_succ.2 ⟨t, h, hk⟩, hv⟩

/-- A run that ends in DONE goes through no error: an error ends the command (R151, R158). -/
theorem not_error_of_leads_done {k : Nat} (h : Leads k s t) (ht : t.status = .done) : s.status ≠ .error := by
  intro he
  have hstay : Leads k s s := leads_quiescent (by rw [Quiescent, he]; nofun) k
  cases hstay.symm.trans h
  exact absurd (he.symm.trans ht) nofun

/-- A run that is not over and ends in DONE goes on with a step that does not fail. -/
theorem exists_step_of_leads_done {k : Nat} (h : Leads k s t) (ht : t.status = .done) (hb : s.status = .busy) :
    ∃ j s', step s = .next s' ∧ s'.status ≠ .error ∧ Leads j s' t := by
  cases k with
  | zero =>
    cases h
    exact absurd (hb.symm.trans ht) nofun
  | succ j =>
    obtain ⟨s', hs, h⟩ := leads_succ.1 h
    exact ⟨j, s', hs, not_error_of_leads_done h ht, h⟩

/-! ## One step of DECOMPRESS that does not fail -/

/-- A step that fetches bits and does not fail runs the instruction they decode to. -/
theorem step_decoded {c : Code} (hb : s.status = .busy) (hw : s.work = .instruction c) (h : step s = .next t)
    (ht : t.status ≠ .error) : ∃ i, decode c = .ok i ∧ exec i s = .next t := by
  simp only [step, if_pos hb, hw] at h
  cases hd : decode c with
  | ok i =>
    rw [hd] at h
    exact ⟨i, rfl, h⟩
  | error e =>
    rw [hd] at h
    cases e <;> cases h <;> exact absurd rfl ht

/-- The step of a header that does not fail (R71). -/
theorem step_header (hb : s.status = .busy) (hp : s.phase = .hDec) (h : step s = .next t) (ht : t.status ≠ .error) :
    ∃ value len, decode (.header s.fetchHeader) = .ok (.hdr value len) ∧
      t = (s.setDec { s.dec with destLen := value, hdrLen := len }).setPhase .dInit := by
  obtain ⟨i, hd, hx⟩ := step_decoded hb (State.work_hDec hp) h ht
  obtain ⟨value, len, rfl, -⟩ := decodeHeader_eq_ok hd
  obtain rfl | ⟨-, rfl⟩ | hr := execHdr_cases hx
  · exact absurd rfl ht
  · exact absurd rfl ht
  · exact ⟨value, len, hd, hr⟩

/-- The step of R140 and R141 that does not fail. -/
theorem destLen_le_of_step_dInit (hb : s.status = .busy) (hp : s.phase = .dInit) (h : step s = .next t)
    (ht : t.status ≠ .error) : s.dec.destLen ≤ s.dstCap.toNat := by
  by_contra hcap
  have hraise : step s = .next (s.raise .dstTooSmall) :=
    step_phaseRun (r := decodeInit s) hb (by simp only [State.work, hp]) (if_pos (Nat.not_le.1 hcap))
  cases h.symm.trans hraise
  exact ht rfl

/-- The bytes the decoder hands to the token decoder (R120). -/
def State.tokenBytes (s : State) : List Byte :=
  s.srcBytes (s.dec.hdrLen + s.dec.s) (min 5 (s.dec.bodyLen - s.dec.s))

/-- A step between tokens that does not fail (R120). -/
theorem step_dFetch (hi : DecoderInv s) (hb : s.status = .busy) (hp : s.phase = .dFetch)
    (hs : s.dec.s < s.dec.bodyLen) (h : step s = .next t) (ht : t.status ≠ .error) :
    ∃ i, decode (.token s.tokenBytes) = .ok i ∧ exec i s = .next t ∧ s.dec.s + i.headBytes ≤ s.dec.bodyLen := by
  obtain ⟨-, -, hbody, -⟩ := hi
  obtain ⟨i, hd, hx⟩ := step_decoded hb (State.work_dFetch hp hs hbody.le) h ht
  have hhead := headBytes_le_length hd
  rw [State.srcBytes_length] at hhead
  exact ⟨i, hd, hx, by omega⟩

/-! ## What a token moves -/

/-- From `s` to `t` the decoder took `n` bytes of the body and wrote `m` bytes of output. -/
structure Advances (n m : Nat) (s t : State) : Prop where
  status : t.status = s.status
  fetches : t.phase = .dFetch
  hdrLen : t.dec.hdrLen = s.dec.hdrLen
  destLen : t.dec.destLen = s.dec.destLen
  cursor : t.dec.s = s.dec.s + n
  written : t.dec.d = s.dec.d + m

/-- Between tokens of a body the token fails, or takes `n` bytes of the body and writes `m` bytes of output. -/
def Moves (i : Instr) (n m : Nat) : Prop :=
  ∀ s t : State, DecoderInv s → s.dec.s + i.headBytes ≤ s.dec.bodyLen → exec i s = .next t → t.status ≠ .error →
    Advances n m s t

theorem IsLiteral.moves {head length : Nat} (hi : IsLiteral i head length) : Moves i (head + length) length := by
  intro s t hinv hs hx ht
  rw [hi.headBytes_eq] at hs
  obtain ⟨-, -, hbody, -, -, hcap, -⟩ := hinv
  by_cases hover : LiteralOverruns s head length
  · obtain ⟨u, hu, ⟨-, -, he, -⟩, -⟩ := hi.overruns hs hover
    cases hx.symm.trans hu
    exact absurd he ht
  · obtain ⟨u, hu, hdec, hp, -, -, -, hstatus, -⟩ := hi.completes (s := s) (by unfold LiteralFits; omega)
    cases hx.symm.trans hu
    exact ⟨hstatus, hp, by rw [hdec], by rw [hdec], by rw [hdec, Nat.add_assoc], by rw [hdec]⟩

theorem IsCopy.moves {head length offset : Nat} (hi : IsCopy i head length offset) : Moves i head length := by
  intro s t hinv hs hx ht
  rw [hi.headBytes_eq] at hs
  obtain ⟨-, -, -, -, -, hcap, -⟩ := hinv
  by_cases hbad : CopyOperandsBad s length offset
  · obtain ⟨u, hu, ⟨-, -, he, -⟩, -⟩ := hi.bad (.inr hbad)
    cases hx.symm.trans hu
    exact absurd he ht
  · obtain ⟨u, hu, hdec, hp, -, -, -, hstatus, -⟩ := hi.completes (s := s) (by unfold CopyFits; omega)
    cases hx.symm.trans hu
    exact ⟨hstatus, hp, by rw [hdec], by rw [hdec], by rw [hdec], by rw [hdec]⟩

theorem IsLiteral.exists_moves {head length : Nat} (hi : IsLiteral i head length) : ∃ n m, 1 ≤ m ∧ Moves i n m :=
  ⟨_, _, hi.pos, hi.moves⟩

theorem IsCopy.exists_moves {head length offset : Nat} (hi : IsCopy i head length offset) :
    ∃ n m, 1 ≤ m ∧ Moves i n m :=
  ⟨_, _, hi.pos, hi.moves⟩

/-- Every token writes output: neither a literal nor a copy is empty. -/
theorem exists_moves {bytes : List Byte} (h : decodeToken bytes = .ok i) : ∃ n m, 1 ≤ m ∧ Moves i n m := by
  have hc := decode_isCommand (c := .token bytes) h
  cases i with
  | litS m => exact (IsLiteral.litS m).exists_moves
  | lit1 m => exact (IsLiteral.lit1 m).exists_moves
  | lit2 m => exact (IsLiteral.lit2 m).exists_moves
  | lit3 m => exact (IsLiteral.lit3 m).exists_moves
  | lit4 m => exact (IsLiteral.lit4 m).exists_moves
  | copy1 l offset => exact (IsCopy.copy1 l offset).exists_moves
  | copy2 l offset => exact (IsCopy.copy2 l offset).exists_moves
  | copy4 l offset => exact (IsCopy.copy4 l offset).exists_moves
  | hdr => exact absurd h decodeToken_ne_hdr
  | compress | decompress | maxlen => cases hc

/-! ## A stream and the same stream cut short -/

/-- The input of `u` is the input of `s` cut short by one byte or more. -/
structure CutsInput (s u : State) : Prop where
  dstCap : u.dstCap = s.dstCap
  shorter : u.srcLen.toNat < s.srcLen.toNat
  src : ∀ a < u.srcLen.toNat, u.srcByte a = s.srcByte a

theorem CutsInput.step (h : CutsInput s u) (hs : step s = .next t) (hu : step u = .next v) : CutsInput t v := by
  have hst := step_sameInputs hs
  have huv := step_sameInputs hu
  have hsrc := srcByte_of_sameInputs hst
  have husrc := srcByte_of_sameInputs huv
  obtain ⟨-, -, hlen, hcap, -⟩ := hst
  obtain ⟨-, -, hulen, hucap, -⟩ := huv
  obtain ⟨hdstCap, hshorter, hbytes⟩ := h
  exact ⟨by rw [hucap, hcap, hdstCap], by rwa [hulen, hlen], by rwa [hulen, hsrc, husrc]⟩

/-- A read inside the cut input is how the same read of the whole input begins. -/
theorem CutsInput.srcBytes_eq_append (h : CutsInput s u) {a k l : Nat} (hk : a + k ≤ u.srcLen.toNat) (hkl : k ≤ l) :
    ∃ rest, s.srcBytes a l = u.srcBytes a k ++ rest := by
  have hsame : HoldsAt s.srcByte a (u.srcBytes a k) :=
    (holdsAt_srcBytes u a k).congr fun x hx => (h.src x (by rw [State.srcBytes_length] at hx; omega)).symm
  have hreads := hsame.srcBytes_eq
  rw [State.srcBytes_length] at hreads
  obtain ⟨j, rfl⟩ := Nat.exists_eq_add_of_le hkl
  exact ⟨_, (s.srcBytes_add a k j).trans (congrArg (· ++ _) hreads)⟩

/-- The machine of a stream and the machine of a cut of it, both about to run the phase `p`. -/
structure CutRun (p : Phase) (s u : State) : Prop where
  input : CutsInput s u
  inv : Inv s ∧ Inv u
  busy : s.status = .busy ∧ u.status = .busy
  phase : s.phase = p ∧ u.phase = p

theorem CutRun.step {p q : Phase} (h : CutRun p s u) (hs : step s = .next t) (hu : step u = .next v)
    (hb : t.status = .busy ∧ v.status = .busy) (hq : t.phase = q ∧ v.phase = q) : CutRun q t v :=
  ⟨h.input.step hs hu, ⟨step_inv h.inv.1 hs, step_inv h.inv.2 hu⟩, hb, hq⟩

/-- Between tokens, both machines have taken and written as much. -/
structure Abreast (s u : State) : Prop extends CutRun .dFetch s u where
  hdrLen : u.dec.hdrLen = s.dec.hdrLen
  destLen : u.dec.destLen = s.dec.destLen
  cursor : u.dec.s = s.dec.s
  written : u.dec.d = s.dec.d

theorem Abreast.decoderInv (h : Abreast s u) : DecoderInv s ∧ DecoderInv u :=
  ⟨inv_clause h.inv.1 h.busy.1 h.phase.1, inv_clause h.inv.2 h.busy.2 h.phase.2⟩

/-- The stream's body goes on where the cut's ends. -/
theorem Abreast.cursor_lt (h : Abreast s u) : s.dec.s < s.dec.bodyLen := by
  obtain ⟨⟨-, -, hbody, -⟩, -, -, hbodyu, hle, -⟩ := h.decoderInv
  have hlt := h.input.shorter
  rw [h.hdrLen] at hbodyu
  rw [h.cursor] at hle
  omega

theorem Abreast.tokenBytes_eq_append (h : Abreast s u) (hs : u.dec.s < u.dec.bodyLen) :
    ∃ rest, s.tokenBytes = u.tokenBytes ++ rest := by
  obtain ⟨⟨-, -, hbody, -⟩, -, -, hbodyu, -⟩ := h.decoderInv
  have hlt := h.input.shorter
  unfold State.tokenBytes
  rw [h.hdrLen, h.cursor] at *
  exact h.input.srcBytes_eq_append (by omega) (by omega)

/-- At the cut less than the declared length is written, which fails (R134). -/
theorem Abreast.fails_at_end (h : Abreast s u) (hend : u.dec.bodyLen ≤ u.dec.s) (hd : s.dec.d < s.dec.destLen) :
    Fails u := by
  have hne : u.dec.d ≠ u.dec.destLen := by rw [h.written, h.destLen]; exact hd.ne
  exact .of_step (step_bodyEnds h.busy.2 h.phase.2 hend)
    (.of_step (step_dEnd h.busy.2 rfl (if_pos hne)) (.of_error rfl))

theorem Abreast.of_advances (h : Abreast s u) (hs : step s = .next t) (hu : step u = .next v)
    (ht : Advances n m s t) (hv : Advances n m u v) : Abreast t v where
  toCutRun := h.toCutRun.step hs hu ⟨ht.status.trans h.busy.1, hv.status.trans h.busy.2⟩ ⟨ht.fetches, hv.fetches⟩
  hdrLen := by rw [hv.hdrLen, ht.hdrLen, h.hdrLen]
  destLen := by rw [hv.destLen, ht.destLen, h.destLen]
  cursor := by rw [hv.cursor, ht.cursor, h.cursor]
  written := by rw [hv.written, ht.written, h.written]

/-- A step of the stream's machine: its token is the cut's next token too, or the cut fails. -/
theorem Abreast.step (h : Abreast s u) (hs : step s = .next t) (ht : t.status ≠ .error) :
    Fails u ∨ ∃ v, step u = .next v ∧ Abreast t v := by
  obtain ⟨hinv, hinvu⟩ := h.decoderInv
  obtain ⟨i, hdec, hx, hfits⟩ := step_dFetch hinv h.busy.1 h.phase.1 h.cursor_lt hs ht
  obtain ⟨n, m, hm, hmoves⟩ := exists_moves hdec
  have hadv := hmoves s t hinv hfits hx ht
  by_cases hend : u.dec.bodyLen ≤ u.dec.s
  · obtain ⟨-, -, -, -, hd, -⟩ : DecoderInv t :=
      inv_clause (step_inv h.inv.1 hs) (hadv.status.trans h.busy.1) hadv.fetches
    rw [hadv.written, hadv.destLen] at hd
    exact .inl (h.fails_at_end hend (by omega))
  obtain ⟨v, hv⟩ := noStepStops u h.inv.2
  by_cases he : v.status = .error
  · exact .inl (.of_step hv (.of_error he))
  have hlt := Nat.not_le.1 hend
  obtain ⟨j, hdecu, hxu, hfitsu⟩ := step_dFetch hinvu h.busy.2 h.phase.2 hlt hv he
  obtain ⟨rest, hrest⟩ := h.tokenBytes_eq_append hlt
  obtain rfl := decode_unique (more := rest) hdecu (hrest ▸ hdec)
  exact .inr ⟨v, hv, h.of_advances hs hv hadv (hmoves u v hinvu hfitsu hxu he)⟩

/-- Where the stream is accepted, the cut fails. -/
theorem Abreast.fails {k : Nat} (h : Abreast s u) (hk : Leads k s t) (ht : t.status = .done) : Fails u := by
  induction k generalizing s u with
  | zero =>
    cases hk
    exact absurd (h.busy.1.symm.trans ht) nofun
  | succ k ih =>
    obtain ⟨s', hs, hk⟩ := leads_succ.1 hk
    obtain hfails | ⟨u', hu, h'⟩ := h.step hs (not_error_of_leads_done hk ht)
    · exact hfails
    · exact .of_step hu (ih h' hk)

/-! ## The start of DECOMPRESS -/

theorem CutRun.fails_of_dInit {k : Nat} (h : CutRun .dInit s u) (hhdr : u.dec.hdrLen = s.dec.hdrLen)
    (hdest : u.dec.destLen = s.dec.destLen) (hk : Leads k s t) (ht : t.status = .done) : Fails u := by
  obtain ⟨j, s', hs, hne, hk⟩ := exists_step_of_leads_done hk ht h.busy.1
  have hcap := destLen_le_of_step_dInit h.busy.1 h.phase.1 hs hne
  have hu := step_bodyStarts h.busy.2 h.phase.2 (by rwa [hdest, h.input.dstCap])
  cases hs.symm.trans (step_bodyStarts h.busy.1 h.phase.1 hcap)
  exact .of_step hu (Abreast.fails ⟨h.step hs hu h.busy ⟨rfl, rfl⟩, hhdr, hdest, rfl, rfl⟩ hk ht)

theorem CutRun.fails_of_hDec {k : Nat} (h : CutRun .hDec s u) (hk : Leads k s t) (ht : t.status = .done) :
    Fails u := by
  obtain ⟨j, s', hs, hne, hk⟩ := exists_step_of_leads_done hk ht h.busy.1
  obtain ⟨value, len, hd, rfl⟩ := step_header h.busy.1 h.phase.1 hs hne
  obtain ⟨u', hu⟩ := noStepStops u h.inv.2
  by_cases he : u'.status = .error
  · exact .of_step hu (.of_error he)
  obtain ⟨value', len', hdu, rfl⟩ := step_header h.busy.2 h.phase.2 hu he
  obtain ⟨rest, hrest⟩ : ∃ rest, s.fetchHeader = u.fetchHeader ++ rest :=
    h.input.srcBytes_eq_append (by omega) (min_le_min_right _ h.input.shorter.le)
  cases decode_unique (more := rest) hdu (hrest ▸ hd)
  exact .of_step hu ((h.step hs hu h.busy ⟨rfl, rfl⟩).fails_of_dInit rfl rfl hk ht)

/-- The start of DECOMPRESS turns to the header (R140). -/
theorem step_decompress (hq : Quiescent s) :
    step (s.writeCsr .cmd 2) = .next ((s.startCommand 2).setPhase .hDec) := by
  obtain ⟨hstart, hexec⟩ := writeCsr_cmd_starts (v := 2) (i := .decompress) hq rfl
  exact hexec.trans (congrArg execDecompress hstart)

end Truncation

/-- Settles O59: header, capacity test and tokens are the same in both machines up to the cut. -/
theorem truncatedStreamFails : Obligations.TruncatedStreamFails := by
  unfold Obligations.TruncatedStreamFails
  rintro s t u hi hq ⟨k, hk, -⟩ ht hiu hqu - hcap hlen hsrc
  have hs := step_decompress hq
  have hu := step_decompress hqu
  have hcut : CutRun .hDec ((s.startCommand 2).setPhase .hDec) ((u.startCommand 2).setPhase .hDec) :=
    ⟨⟨hcap, hlen, hsrc⟩, ⟨step_inv (inv_writeCsr hi .cmd 2) hs, step_inv (inv_writeCsr hiu .cmd 2) hu⟩,
      ⟨rfl, rfl⟩, ⟨rfl, rfl⟩⟩
  have hb : (s.writeCsr .cmd 2).status = .busy := by
    rw [(writeCsr_cmd_starts (i := .decompress) hq rfl).1]
    rfl
  obtain ⟨j, s', hs', -, hk⟩ := exists_step_of_leads_done hk ht hb
  cases hs'.symm.trans hs
  obtain ⟨l, v, hv, he⟩ := Fails.of_step hu (hcut.fails_of_hDec hk ht)
  exact ⟨v, ⟨l, hv, by rw [Quiescent, he]; nofun⟩, he⟩

end Sys2Proof.Machine
end

section
/-! PROOF of O18 and O19: the start of DECOMPRESS (R140), and the capacity test between its header and its tokens
(R141). -/

namespace Sys2Proof.Machine

open Sys2Proof.Safety Sys2Proof.Claims

/-- Settles O18: by what `execDecompress` is, which tests nothing. -/
theorem decompressTurnsToItsHeader : Obligations.DecompressTurnsToItsHeader := fun _ => rfl

/-- A length beyond the capacity ends the command where the body would start (R141). -/
theorem step_dstTooSmall {s : State} (hb : s.status = .busy) (hp : s.phase = .dInit)
    (h : s.dstCap.toNat < s.dec.destLen) : step s = .next (s.raise .dstTooSmall) :=
  step_phaseRun (r := decodeInit s) hb (by simp only [State.work, hp]) (if_pos h)

/-- Settles O19: the two outcomes of the capacity test. -/
theorem capacityIsTestedBeforeTokens : Obligations.CapacityIsTestedBeforeTokens := fun s hb hp =>
  ⟨fun hover => ⟨_, step_dstTooSmall hb hp hover, raised_raise s .dstTooSmall, rfl⟩, step_bodyStarts hb hp⟩

end Sys2Proof.Machine
end

section
/-! PROOF of O39 and O9: the errors each phase may raise (R152), and a quiescent CORE (R158, R170). -/

namespace Sys2Proof.Machine

/-- Settles O39: of the two outcomes `step_raisesListed` allows, only the listed error ends in ERROR. -/
theorem errorsOnlyWhereListed : Obligations.ErrorsOnlyWhereListed := by
  unfold Obligations.ErrorsOnlyWhereListed
  intro s t hb h he
  obtain ⟨hne, -⟩ | hmay := step_raisesListed hb h
  · exact absurd he hne
  · exact hmay

/-- Settles O9, by induction on the number of steps (`leads_quiescent`). -/
theorem quiescentCoreDoesNothing : Obligations.QuiescentCoreDoesNothing := fun _ => leads_quiescent

end Sys2Proof.Machine
end

section
/-! PROOF of O55: every command ends (R181). A run in COMPRESS has fewer input bytes ahead of it after each step (O56),
a run in DECOMPRESS less declared output (R135 (a)), and the start of a command leads into one of the two or ends. -/

namespace Sys2Proof.Machine

open Sys2Proof.Safety Sys2Proof.Claims

section Termination

variable {s t u : State}

/-! ## Runs that end -/

/-- Some number of steps leads to a quiescent state. -/
def Terminates (s : State) : Prop := ∃ k t, Leads k s t ∧ Quiescent t

theorem Terminates.of_quiescent (h : Quiescent s) : Terminates s := ⟨0, s, rfl, h⟩

theorem Terminates.of_step (h : step s = .next t) (ht : Terminates t) : Terminates s := by
  obtain ⟨k, v, hk, hv⟩ := ht
  exact ⟨k + 1, v, leads_succ.2 ⟨t, h, hk⟩, hv⟩

/-- A state that meets the invariant and, while its command runs, stands in one of the phases of `R`. -/
structure RunsWithin (R : Phase → Prop) (s : State) : Prop where
  inv : Inv s
  phase : s.status = .busy → R s.phase

/-- A command ends if the arrows between phases stay within `R`, where every step that goes on lowers `m`: no step
stops (O53). -/
theorem RunsWithin.terminates {R : Phase → Prop} (m : State → Nat) (hR : ∀ p q, R p → follows p q = true → R q)
    (hm : ∀ s t : State, Inv s → s.status = .busy → R s.phase → step s = .next t → t.status = .busy → m t < m s)
    (h : RunsWithin R s) : Terminates s := by
  have hstep : ∀ s, RunsWithin R s → s.status = .busy →
      ∃ t, step s = .next t ∧ RunsWithin R t ∧ (t.status = .busy → m t < m s) := fun s h hb => by
    obtain ⟨t, hs⟩ := noStepStops s h.inv
    exact ⟨t, hs, ⟨step_inv h.inv hs, fun ht => hR _ _ (h.phase hb) (phasesFollowTheRules s t hb hs ht)⟩,
      hm s t h.inv hb (h.phase hb) hs⟩
  obtain ⟨k, t, hk, -, hq⟩ := leads_quiescent_of_decreasing m hstep h
  exact ⟨k, t, hk, hq⟩

/-! ## COMPRESS -/

theorem terminates_of_encodes (hi : Inv s) (he : Encodes s.phase) : Terminates s :=
  RunsWithin.terminates State.encoderLeft (fun _ _ => Encodes.of_follows)
    (fun _ _ hi hb he hs ht => (step_transition hb hs).encoderLeft_lt hi hb ht he) ⟨hi, fun _ => he⟩

/-! ## DECOMPRESS -/

theorem isDecoding_of_follows {p q : Phase} (hp : isDecoding p = true) (h : follows p q = true) :
    isDecoding q = true := by
  revert h
  cases p
  case cStart | eChunk | bInit | bSearch | bMatch | bCopy | bRemainder => cases hp
  case hDec | dInit | dFetch | dLit | dCopy | dEnd => cases q <;> intro h <;> cases h <;> rfl

theorem Fetched.destLen (h : Fetched s u) : u.dec.destLen = s.dec.destLen := by cases h <;> rfl

/-- Only the header sets the declared length (R71). -/
theorem Transition.destLen (h : Transition s t) (hp : s.phase ≠ .hDec) : t.dec.destLen = s.dec.destLen := by
  cases h with
  | headerRead hp' => exact absurd hp' hp
  | tokenRaises hf | literalRuns hf | copyRuns hf => exact hf.destLen
  | raiseQuiet | finishQuiet | raise | decoded | encoded | decompressStarts | bodyStarts | bodyEnds | compressStarts
  | shortChunk | longChunk | blockStarts | searchEnds | miss | hit | pending | copyEnds | rematch | resume
  | remainder | noRemainder => rfl

/-- A step from one fetch to the next runs a token, and every token writes output. -/
theorem dec_d_lt_of_step_dFetch (hi : Inv s) (hb : s.status = .busy) (hp : s.phase = .dFetch)
    (h : step s = .next t) (ht : t.status = .busy) (hq : t.phase = .dFetch) : s.dec.d < t.dec.d := by
  have hinv : DecoderInv s := inv_clause hi hb hp
  have hlt : s.dec.s < s.dec.bodyLen := by
    by_contra hend
    cases (step_bodyEnds hb hp (not_lt.1 hend)).symm.trans h
    cases hq
  have hne : t.status ≠ .error := by rw [ht]; nofun
  obtain ⟨i, hdec, hx, hfits⟩ := step_dFetch hinv hb hp hlt h hne
  obtain ⟨n, m, hm, hmoves⟩ := exists_moves hdec
  have hwritten := (hmoves s t hinv hfits hx hne).written
  omega

/-- What the decoder has still to do: the declared bytes it has not written, then the phases left before it fetches.
Before the header is read the declared length may yet become the largest there is (R71). -/
def State.decoderLeft (s : State) : Nat :=
  match s.phase with
  | .hDec => 2 * Config.lenMax + 3
  | .dInit => 2 * s.dec.destLen + 2
  | .dLit | .dCopy => 2 * (s.dec.destLen - s.dec.d) + 2
  | .dFetch => 2 * (s.dec.destLen - s.dec.d) + 1
  | .dEnd | .cStart | .eChunk | .bInit | .bSearch | .bMatch | .bCopy | .bRemainder => 0

theorem decoderLeft_lt (hi : Inv s) (hb : s.status = .busy) (hp : isDecoding s.phase = true) (h : step s = .next t)
    (ht : t.status = .busy) : t.decoderLeft < s.decoderLeft := by
  have harrow := phasesFollowTheRules s t hb h ht
  have hclause : ∀ p, t.phase = p → PhaseClause p t := fun _ => inv_clause (step_inv hi h) ht
  have hdest := (step_transition hb h).destLen
  obtain ⟨hgrows, -⟩ := outputGrowsUpward s t hi hb h ht
  rw [State.decoderLeft, State.decoderLeft]
  cases hs : s.phase <;> rw [hs] at hp harrow hdest hgrows
  case cStart | eChunk | bInit | bSearch | bMatch | bCopy | bRemainder => cases hp
  case dEnd => cases harrow
  case hDec =>
    have hq : t.phase = .dInit := of_decide_eq_true harrow
    obtain ⟨-, -, -, hmax⟩ := hclause _ hq
    rw [hq]
    dsimp only
    omega
  case dInit =>
    have hq : t.phase = .dFetch := of_decide_eq_true harrow
    rw [hq, hdest nofun]
    dsimp only
    omega
  case dLit | dCopy =>
    have hq : t.phase = .dFetch := of_decide_eq_true harrow
    obtain ⟨hd, -⟩ := hgrows (by decide)
    rw [hq, hdest nofun]
    dsimp only
    omega
  case dFetch =>
    obtain hq | hq : t.phase = .dFetch ∨ t.phase = .dEnd := by simpa [follows] using harrow
    · have hd := dec_d_lt_of_step_dFetch hi hb hs h ht hq
      obtain ⟨-, -, -, -, hle, -⟩ : DecoderInv t := hclause _ hq
      rw [hq, ← hdest nofun]
      dsimp only
      omega
    · rw [hq]
      exact Nat.succ_pos _

theorem terminates_of_isDecoding (hi : Inv s) (hp : isDecoding s.phase = true) : Terminates s :=
  RunsWithin.terminates (R := (isDecoding · = true)) State.decoderLeft (fun _ _ => isDecoding_of_follows)
    (fun _ _ => decoderLeft_lt) ⟨hi, fun _ => hp⟩

/-! ## The start of a command -/

/-- A command that starts ends at once, or goes on with the header or the chunk loop (R15). -/
theorem terminates_of_cStart (hi : Inv s) (hb : s.status = .busy) (hp : s.phase = .cStart) : Terminates s := by
  obtain ⟨t, h⟩ := noStepStops s hi
  have hit := step_inv hi h
  refine .of_step h ?_
  by_cases ht : t.status = .busy
  · have harrow := phasesFollowTheRules s t hb h ht
    rw [hp] at harrow
    obtain hq | hq : t.phase = .hDec ∨ t.phase = .eChunk := by simpa [follows] using harrow
    · exact terminates_of_isDecoding hit (isDecoding_of_eq hq rfl)
    · exact terminates_of_encodes hit (hq ▸ ⟨rfl, nofun⟩)
  · exact .of_quiescent ht

end Termination

/-- Settles O55: a quiescent state has ended, and a running command starts, encodes or decodes. -/
theorem everyCommandEnds : Obligations.EveryCommandEnds := by
  unfold Obligations.EveryCommandEnds
  intro s hi
  by_cases hb : s.status = .busy
  · by_cases hp : s.phase = .cStart
    · exact terminates_of_cStart hi hb hp
    · cases hd : isDecoding s.phase with
      | true => exact terminates_of_isDecoding hi hd
      | false => exact terminates_of_encodes hi ⟨hd, hp⟩
  · exact Terminates.of_quiescent hb

end Sys2Proof.Machine
end
